-- ==== Sys2Proof/Word.lean ====
section
/-! DEFINITION. The carried word types (R11, R72): bytes, 16-bit and 32-bit operands, and byte sequences. -/

namespace Sys2Proof

/-- A byte is 8 bits (R11). -/
abbrev Byte := BitVec 8

/-- A two-byte operand: `u16` as it is, `s16` read by `BitVec.toInt` (R72). -/
abbrev Half := BitVec 16

/-- A `u32` operand or control register (R29, R72). -/
abbrev Word := BitVec 32

/-- A byte sequence, first byte sent or received at the head (R11). -/
abbrev Frame := List Byte

end Sys2Proof
end

