-- ==== Sys2Proof/Config.lean ====
section
/-! DEFINITION. The profile record a model of the LMC takes (R8), the grant policies (R196), the
control file's shape (R29), and the free values of the environment (R57). -/

namespace Sys2Proof

/-- Control registers 0 to 4, 32 bits each (R29, R30, R31). -/
structure Ctrl where
  policy   : Word
  tRstLow  : Word
  tRstHigh : Word
  tSettle  : Word
  tPoll    : Word
deriving DecidableEq, Repr

/-- `ARB_POLICY` (R196). -/
inductive ArbPolicy where
  | roundRobin
  | any
deriving DecidableEq, Repr

/-- `RSSI_MAP` (R8, R113) as plain data: `scale * raw + offset`, or a table of 256 values, which
spells every function of a byte (log entry 5). -/
inductive RssiMap where
  | linear (scale offset : Int)
  | table (values : List Int)
deriving DecidableEq, Repr

/-- The profile record (R8), one field per row of its table. Sets and predicates are written as
plain data (log entry 5). -/
structure Profile where
  /-- `F_XTAL`, Hz. -/
  fXtal      : Nat
  /-- `FSHIFT`; `FSTEP = F_XTAL / 2^FSHIFT`. -/
  fShift     : Nat
  /-- `FRF_BYTES`. -/
  frfBytes   : Nat
  fMin       : Nat
  fMax       : Nat
  pMin       : Int
  pMax       : Int
  /-- `PA_BITS`. -/
  paBits     : Nat
  sfMin      : Nat
  sfMax      : Nat
  /-- `BW_SET`: pairs of a bandwidth in kHz and its 4-bit code. -/
  bwSet      : List (Nat × Nat)
  crSet      : List Nat
  /-- The triples `(sf, bw, cr)` on which `MOD_COMBO_OK` is false. -/
  comboRefused : List (Nat × Nat × Nat)
  preMin     : Nat
  preMax     : Nat
  /-- `N`, the FIFO depth and the maximum Frame length. -/
  fifoDepth  : Nat
  addrBits   : Nat
  regFifo    : Nat
  regOpmode  : Nat
  regFrf     : Nat
  regPa      : Nat
  regRssi    : Nat
  regModem   : Nat
  regPreamble : Nat
  regSync    : Nat
  regVersion : Nat
  opmodeTx   : Byte
  opmodeRx   : Byte
  /-- `RX_ENTRY`: whether `RECEIVE` writes `OPMODE_RX` first. -/
  rxEntry    : Bool
  dummy      : Byte
  /-- `EXPECTED_IDS`, as inclusive ranges of byte values. -/
  expectedIds : List (Nat × Nat)
  rssiMap    : RssiMap
  busId      : Nat
  devId      : Nat
  spiHz      : Nat
  /-- `RST_PIN`: no event of R52 carries it (log entry 20). -/
  rstPin     : Nat
  /-- `M`, the number of client ports. -/
  ports      : Nat
  arbPolicy  : ArbPolicy
  /-- `INF`, the timeout value that means none. -/
  inf        : Word
  /-- Reset values of `CTRL` (R31). -/
  ctrlReset  : Ctrl
deriving DecidableEq, Repr

/-- FREE VALUE (R57, I1; log entry 4): whether the environment's n-th answer is `ok`. Nothing
constrains it. -/
opaque Config.freeOk : Nat → Bool

/-- FREE VALUE (R57, I1; log entry 4): byte `i` of the environment's n-th answer. -/
opaque Config.freeByte : Nat → Nat → Byte

/-- FREE VALUE (R196; log entry 17): the client the arbiter starts from under `ANY` when the
schedule names none. -/
opaque Config.freePick : Nat → Nat

end Sys2Proof
end

