-- ==== Sys2Proof/Machine/Operands.lean ====
section
/-! DEFINITION. Operand forms: the byte-order helpers of R12, the operand readers of R72, and the
frame length of every opcode (R71, R73, R74). -/

namespace Sys2Proof.Machine

/-- `be_k(v)`: the k-byte big-endian sequence of `v mod 2^(8k)` (R12). -/
def be : Nat → Nat → Frame
  | 0, _ => []
  | k + 1, v => BitVec.ofNat 8 (v >>> (8 * k)) :: be k v

/-- Value of a big-endian byte sequence after the value `acc` of the bytes before it. -/
def fromBeAcc : Nat → Frame → Nat
  | acc, [] => acc
  | acc, b :: bs => fromBeAcc (acc * 256 + b.toNat) bs

/-- `from_be(bs)`: the unsigned value of a big-endian byte sequence (R12). -/
def fromBe (bs : Frame) : Nat := fromBeAcc 0 bs

/-- `be_2(v mod 2^16)` of an integer: its two's-complement pattern (R12, R113). -/
def beInt16 (v : Int) : Frame := be 2 (v % 65536).toNat

/-- `frame[i .. i+n-1]` (R11). -/
def bytesAt (f : Frame) (i n : Nat) : Frame := (f.drop i).take n

/-- `u8` operand at offset `i` (R72). -/
def u8At (f : Frame) (i : Nat) : Byte := f.getD i 0#8

/-- `u16` operand, or the pattern of an `s16` operand, at offset `i` (R72). -/
def u16At (f : Frame) (i : Nat) : Half := BitVec.ofNat 16 (fromBe (bytesAt f i 2))

/-- `u32` operand at offset `i` (R72). -/
def u32At (f : Frame) (i : Nat) : Word := BitVec.ofNat 32 (fromBe (bytesAt f i 4))

/-- `sext_16`: the integer of an `s16` operand (R12, R72). -/
def sext16 (h : Half) : Int := h.toInt

/-- The exact length of a frame with opcode `op` whose second byte is `second` (R73, R74); none for
a reserved opcode (R71, R81). -/
def frameLength (p : Profile) (op : Byte) (second : Byte) : Option Nat :=
  match op.toNat with
  | 0x01 => some 14
  | 0x02 => some 1
  | 0x03 => some (2 + second.toNat)
  | 0x04 => some 5
  | 0x05 => some 5
  | 0x06 => some 1
  | 0x07 => some 1
  | 0x08 => some 1
  | 0x09 => some 6
  | 0x0A => some 2
  | 0x10 => some 5
  | 0x11 => some (1 + p.frfBytes)
  | 0x12 => some 3
  | 0x13 => some 5
  | 0x14 => some 3
  | 0x15 => some 2
  | 0x16 => some 2
  | 0x17 => some (2 + second.toNat)
  | _ => none

/-- An SPI write transaction's bytes: address byte with bit 7 set, then the data (R53, R88). -/
def writeBytes (a : Nat) (bs : Frame) : Frame := (0x80#8 ||| BitVec.ofNat 8 a) :: bs

/-- An SPI read transaction's bytes: address byte with bit 7 clear, then `n` dummy bytes (R54, R89). -/
def readBytes (p : Profile) (a n : Nat) : Frame :=
  (BitVec.ofNat 8 a &&& 0x7F#8) :: List.replicate n p.dummy

end Sys2Proof.Machine
end

