-- ==== Sys2Proof/Machine/Profiles.lean ====
section
/-! DEFINITION. Reference profile P0 (R8), the readings of the profile's sets and functions, and the
well-formedness of a profile (R9). -/

namespace Sys2Proof.Machine

/-- Reset values of `CTRL` in P0 (R30, R31). -/
def ctrlReset0 : Ctrl :=
  { policy := 1#32, tRstLow := 100#32, tRstHigh := 100#32, tSettle := 100#32, tPoll := 100#32 }

/-- Reference profile P0 (R8). The OPEN fields `busId`, `devId`, `spiHz` and `rstPin` have no value
in the spec; 0 here is DESIGN CHOICE (log entry 6). -/
def P0 : Profile :=
  { fXtal := 32000000, fShift := 19, frfBytes := 3, fMin := 137000000, fMax := 1020000000,
    pMin := -9, pMax := 22, paBits := 8, sfMin := 6, sfMax := 12,
    bwSet := [(125, 7), (250, 8), (500, 9)], crSet := [5, 6, 7, 8], comboRefused := [],
    preMin := 0, preMax := 65535, fifoDepth := 32, addrBits := 7,
    regFifo := 0x00, regOpmode := 0x01, regFrf := 0x06, regPa := 0x09, regRssi := 0x1B,
    regModem := 0x1D, regPreamble := 0x20, regSync := 0x39, regVersion := 0x42,
    opmodeTx := 0x83#8, opmodeRx := 0x85#8, rxEntry := true, dummy := 0x00#8,
    expectedIds := [(0x01, 0xFF)], rssiMap := .linear (-1) 0,
    busId := 0, devId := 0, spiHz := 0, rstPin := 0,
    ports := 3, arbPolicy := .roundRobin, inf := 0xFFFFFFFF#32, ctrlReset := ctrlReset0 }

/-- The 4-bit code of a bandwidth in kHz, none when it is no key of `BW_SET` (R109). -/
def bwCode (p : Profile) (bw : Nat) : Option Nat :=
  (p.bwSet.find? fun e => e.1 == bw).map Prod.snd

/-- `MOD_COMBO_OK(sf, bw, cr)` (R108). -/
def comboOk (p : Profile) (sf bw cr : Nat) : Bool := !p.comboRefused.contains (sf, bw, cr)

/-- `v in EXPECTED_IDS` (R137). -/
def expectedId (p : Profile) (v : Byte) : Bool :=
  p.expectedIds.any fun r => decide (r.1 ≤ v.toNat ∧ v.toNat ≤ r.2)

/-- `RSSI_MAP(raw)` in dBm (R113). -/
def rssiOf (m : RssiMap) (raw : Byte) : Int :=
  match m with
  | .linear scale offset => scale * (raw.toNat : Int) + offset
  | .table values => values.getD raw.toNat 0

/-- A well-formed profile (R9, R108). The clauses `bwKeys_nodup`, `addrBits_le`, `paBits_le`,
`ports_pos`, `frfBytes_pos` and `table_len` are the model's: DEDUCED from `BW_SET` being a map, from the
widths of R73, R86 and R87 and from `rr = M-1` (log entry 16). -/
structure WellFormedProfile (p : Profile) : Prop where
  fXtal_pos : 0 < p.fXtal
  fStep_gt : 2 ^ p.fShift < p.fXtal
  fMax_fits : p.fMax * 2 ^ p.fShift / p.fXtal < 256 ^ p.frfBytes
  fRange : p.fMin ≤ p.fMax
  pRange : p.pMin ≤ p.pMax
  pMin_fits : -(2 ^ (p.paBits - 1) : Int) ≤ p.pMin
  pMax_fits : p.pMax < (2 ^ (p.paBits - 1) : Int)
  bwKeys_nodup : (p.bwSet.map Prod.fst).Nodup
  bwCodes_nodup : (p.bwSet.map Prod.snd).Nodup
  bwCodes_lt : ∀ e ∈ p.bwSet, e.2 < 16
  crSet_range : ∀ d ∈ p.crSet, 1 ≤ d - 4 ∧ d - 4 ≤ 7
  fifoDepth_range : 1 ≤ p.fifoDepth ∧ p.fifoDepth ≤ 255
  sfMax_le : p.sfMax ≤ 15
  decFreq_fits : ((256 ^ p.frfBytes - 1) * p.fXtal + (2 ^ p.fShift - 1)) / 2 ^ p.fShift < 2 ^ 32
  rssi_fits : ∀ raw : Byte, -32768 ≤ rssiOf p.rssiMap raw ∧ rssiOf p.rssiMap raw ≤ 32767
  tPoll_pos : p.ctrlReset.tPoll ≠ 0#32
  addrs_fit : ∀ a ∈ [p.regFifo, p.regOpmode, p.regFrf, p.regPa, p.regRssi, p.regModem,
    p.regPreamble, p.regSync, p.regVersion, p.regFrf + p.frfBytes - 1, p.regModem + 1,
    p.regPreamble + 1], a < 2 ^ p.addrBits
  sf_fixed : p.sfMin = 6 ∧ p.sfMax = 12
  cr_fixed : p.crSet = [5, 6, 7, 8]
  addrBits_le : p.addrBits ≤ 7
  paBits_le : 1 ≤ p.paBits ∧ p.paBits ≤ 8
  ports_pos : 1 ≤ p.ports
  frfBytes_pos : 1 ≤ p.frfBytes
  table_len : ∀ values, p.rssiMap = .table values → values.length = 256

end Sys2Proof.Machine
end

