-- ==== Sys2Proof/Syntax.lean ====
section
/-! DEFINITION. The instructions: one constructor per mnemonic of spec/opcode_table.json (format H,
R71 and R73, and format S, R87 to R89), with the operands each one carries. -/

namespace Sys2Proof

/-- RadioConfig (R26) in its carried widths; `power` is an `s16` and `cr` the denominator of the
rate 4/`cr` (R75, R79). -/
structure RadioConfig where
  freq     : Word
  power    : Half
  sf       : Byte
  bw       : Half
  cr       : Byte
  sync     : Byte
  preamble : Half
deriving DecidableEq, Repr

/-- The instruction set. The first eighteen are the commands of R71 in its order; `reserved` is a
frame whose opcode is reserved (R81, all eight RESERVED rows, log entry 14); `illegal` is an empty
frame or one of the wrong length (R82); the last two are the SPI transaction frames the LMC builds
(R88, R89). -/
inductive Instr where
  | init (cfg : RadioConfig)
  | detect
  | transmit (data : Frame)
  | receive (timeout : Word)
  | setFreq (freq : Word)
  | readRssi
  | stop
  | getState
  | writeCtrl (idx : Byte) (value : Word)
  | readCtrl (idx : Byte)
  | encFreq (freq : Word)
  | decFreq (reg : Nat)
  | encPower (power : Half)
  | encMod (sf : Byte) (bw : Half) (cr : Byte)
  | encPreamble (preamble : Half)
  | encSync (sync : Byte)
  | decRssi (raw : Byte)
  | decPayload (data : Frame)
  | reserved (op : Byte) (rest : Frame)
  | illegal (frame : Frame)
  | spiWrite (addr : BitVec 7) (data : Frame)
  | spiRead (addr : BitVec 7) (n : Nat)
deriving DecidableEq, Repr

/-- The three kinds R80 and R90 divide the instructions into. -/
inductive InstrKind where
  /-- Runs only as owner of the arbiter lock. -/
  | arbitrated
  /-- Runs whole in its submission step. -/
  | immediate
  /-- An SPI transaction, built by the LMC and never submitted. -/
  | transaction
deriving DecidableEq, Repr

/-- The class of an instruction (R80, R90). -/
def Instr.kind : Instr → InstrKind
  | .init _ => .arbitrated
  | .detect => .arbitrated
  | .transmit _ => .arbitrated
  | .receive _ => .arbitrated
  | .setFreq _ => .arbitrated
  | .readRssi => .arbitrated
  | .stop => .arbitrated
  | .getState => .immediate
  | .writeCtrl _ _ => .arbitrated
  | .readCtrl _ => .immediate
  | .encFreq _ => .immediate
  | .decFreq _ => .immediate
  | .encPower _ => .immediate
  | .encMod _ _ _ => .immediate
  | .encPreamble _ => .immediate
  | .encSync _ => .immediate
  | .decRssi _ => .immediate
  | .decPayload _ => .immediate
  | .reserved _ _ => .immediate
  | .illegal _ => .immediate
  | .spiWrite _ _ => .transaction
  | .spiRead _ _ => .transaction

end Sys2Proof
end

