-- ==== Sys2Proof/WellFormed.lean ====
section
/-! DEFINITION. Which instruction terms are the reading of some byte sequence: the checks the types
of Syntax.lean do not already make. -/

namespace Sys2Proof

open Sys2Proof.Machine

/-- The well-formedness of an instruction under a profile. An operand out of the command's accepted
range is well formed (R83); what is checked is that the term is one the encodings of R71 to R74, R81,
R82, R88 and R89 spell. -/
def Instr.wf (p : Profile) : Instr → Bool
  | .init _ => true
  | .detect => true
  | .transmit data => decide (data.length < 256)
  | .receive _ => true
  | .setFreq _ => true
  | .readRssi => true
  | .stop => true
  | .getState => true
  | .writeCtrl _ _ => true
  | .readCtrl _ => true
  | .encFreq _ => true
  | .decFreq reg => decide (reg < 256 ^ p.frfBytes)
  | .encPower _ => true
  | .encMod _ _ _ => true
  | .encPreamble _ => true
  | .encSync _ => true
  | .decRssi _ => true
  | .decPayload data => decide (data.length < 256)
  | .reserved op rest => (frameLength p op (rest.headD 0#8)).isNone
  | .illegal [] => true
  | .illegal (op :: rest) =>
    match frameLength p op (rest.headD 0#8) with
    | none => false
    | some n => decide (rest.length + 1 ≠ n)
  | .spiWrite _ _ => true
  | .spiRead _ n => decide (1 ≤ n)

end Sys2Proof
end

