-- ==== Sys2Proof/Decode.lean ====
section
/-! DEFINITION. The command decoder, total on byte sequences (R91), the reading of an SPI frame (R87,
R90), and the encoder, written from the same tables (R71, R73, R88, R89). -/

namespace Sys2Proof

open Sys2Proof.Machine

/-- The command of an assigned opcode whose frame `f` has its exact length (R71, R73, R75, R76). -/
def decodeCommand (p : Profile) (op : Byte) (f : Frame) : Instr :=
  match op.toNat with
  | 0x01 => .init {
      freq := u32At f 1, power := u16At f 5, sf := u8At f 7, bw := u16At f 8, cr := u8At f 10,
      sync := u8At f 11, preamble := u16At f 12 }
  | 0x02 => .detect
  | 0x03 => .transmit (bytesAt f 2 (u8At f 1).toNat)
  | 0x04 => .receive (u32At f 1)
  | 0x05 => .setFreq (u32At f 1)
  | 0x06 => .readRssi
  | 0x07 => .stop
  | 0x08 => .getState
  | 0x09 => .writeCtrl (u8At f 1) (u32At f 2)
  | 0x0A => .readCtrl (u8At f 1)
  | 0x10 => .encFreq (u32At f 1)
  | 0x11 => .decFreq (fromBe (bytesAt f 1 p.frfBytes))
  | 0x12 => .encPower (u16At f 1)
  | 0x13 => .encMod (u8At f 1) (u16At f 2) (u8At f 4)
  | 0x14 => .encPreamble (u16At f 1)
  | 0x15 => .encSync (u8At f 1)
  | 0x16 => .decRssi (u8At f 1)
  | 0x17 => .decPayload (bytesAt f 2 (u8At f 1).toNat)
  | _ => .illegal f

/-- The command decoder (R91): reserved opcodes and wrong lengths are rejected by name. -/
def decodeFrame (p : Profile) (f : Frame) : Instr :=
  match f with
  | [] => .illegal []
  | op :: rest =>
    match frameLength p op (rest.headD 0#8) with
    | none => .reserved op rest
    | some n => if f.length = n then decodeCommand p op f else .illegal f

/-- The reading of an SPI frame, as a fake transport may do it (R87, R90). The LMC itself decodes
none. -/
def decodeSpi (p : Profile) (f : Frame) : Option Instr :=
  match f with
  | [] => none
  | a :: rest =>
    if a.getLsbD 7 then some (.spiWrite (a.setWidth 7) rest)
    else if rest ≠ [] ∧ rest.all (· == p.dummy) then some (.spiRead (a.setWidth 7) rest.length)
    else none

/-- The frame of an instruction (R71, R73; format S by R88, R89). -/
def encode (p : Profile) : Instr → Frame
  | .init c => 0x01#8 :: (be 4 c.freq.toNat ++ be 2 c.power.toNat ++ [c.sf] ++ be 2 c.bw.toNat ++
      [c.cr] ++ [c.sync] ++ be 2 c.preamble.toNat)
  | .detect => [0x02#8]
  | .transmit data => 0x03#8 :: BitVec.ofNat 8 data.length :: data
  | .receive timeout => 0x04#8 :: be 4 timeout.toNat
  | .setFreq freq => 0x05#8 :: be 4 freq.toNat
  | .readRssi => [0x06#8]
  | .stop => [0x07#8]
  | .getState => [0x08#8]
  | .writeCtrl idx value => 0x09#8 :: idx :: be 4 value.toNat
  | .readCtrl idx => [0x0A#8, idx]
  | .encFreq freq => 0x10#8 :: be 4 freq.toNat
  | .decFreq reg => 0x11#8 :: be p.frfBytes reg
  | .encPower power => 0x12#8 :: be 2 power.toNat
  | .encMod sf bw cr => 0x13#8 :: sf :: (be 2 bw.toNat ++ [cr])
  | .encPreamble preamble => 0x14#8 :: be 2 preamble.toNat
  | .encSync sync => [0x15#8, sync]
  | .decRssi raw => [0x16#8, raw]
  | .decPayload data => 0x17#8 :: BitVec.ofNat 8 data.length :: data
  | .reserved op rest => op :: rest
  | .illegal f => f
  | .spiWrite a data => writeBytes a.toNat data
  | .spiRead a n => readBytes p a.toNat n

/-- The `n` bytes of a word numbered with bit 0 the least significant bit of the first byte. -/
def wordBytes : Nat → Nat → Frame
  | 0, _ => []
  | n + 1, w => BitVec.ofNat 8 w :: wordBytes n (w / 256)

/-- A frame lengthened with zero bytes to the length its opcode has (log entry 23); a reserved opcode
and a frame already as long stay as they are. -/
def padFrame (p : Profile) (f : Frame) : Frame :=
  match f with
  | [] => []
  | op :: rest =>
    match frameLength p op (rest.headD 0#8) with
    | none => f
    | some n => f ++ List.replicate (n - f.length) 0#8

/-- The frame of an opcode-table word of `nbits` bits. -/
def tableFrame (p : Profile) (nbits w : Nat) : Frame := padFrame p (wordBytes (nbits / 8) w)

/-- The instruction the decoder reads, under P0, from an opcode-table word of `nbits` bits. -/
def decodeTableWord (nbits w : Nat) : Option Instr :=
  some (decodeFrame P0 (tableFrame P0 nbits w))

end Sys2Proof
end

