-- ==== Sys2Proof/Machine/State.lean ====
section
/-! DEFINITION. The LMC state record (R21), its parts, the reasons a step could stop, and the state
after power-on reset (R47). Plain data throughout. -/

namespace Sys2Proof.Machine

/-- TransceiverState (R23). -/
inductive TState where
  | uninitialized
  | idle
  | transmitting
  | receiving
  | error
deriving DecidableEq, Repr

/-- `pin_mode` (R28). -/
inductive PinMode where
  | unconfigured
  | output
deriving DecidableEq, Repr

/-- `pin_level` (R28). -/
inductive PinLevel where
  | low
  | high
  | undriven
deriving DecidableEq, Repr

/-- The environment's answer to a transport call: `ok(in)` or `fail` (R57). `Open` and `SetClock`
are answered with `ok []`. -/
inductive Answer where
  | ok (bytes : Frame)
  | fail
deriving DecidableEq, Repr

/-- The kind of a `Wait` (R15, R231). -/
inductive WaitKind where
  | rstLow
  | rstHigh
  | settle
  | poll
deriving DecidableEq, Repr

/-- Response status (R85); no other code is ever produced (I23). -/
inductive Status where
  | ok
  | transportError
  | invalidParameter
  | invalidState
  | deviceNotFound
  | cancelled
  | illegalCommand
deriving DecidableEq, Repr

/-- The event kinds of the history (R52). -/
inductive Event where
  | openBus (busId devId : Nat) (ok : Bool)
  | setClock (hz : Nat) (ok : Bool)
  | close
  | xfer (out : Frame) (r : Answer)
  | pinMode
  | pinWrite (level : Bool)
  | pinCleanup
  | wait (kind : WaitKind) (ms : Word)
  | submit (client : Nat) (frame : Frame)
  | grant (client : Nat)
  | resp (client : Nat) (frame : Frame)
deriving DecidableEq, Repr

/-- `step` of R22: where in its command's pseudocode the running command is, named by the primitive
or the decision that comes next (log entries 1 and 2). -/
inductive Pos where
  /-- Granted: the checks of R130 come next. -/
  | start
  /-- `Open` was answered (R131). -/
  | opened
  /-- `SetClock` was answered (R131). -/
  | clocked
  /-- The handle was closed after a failed clock set (R131). -/
  | released
  /-- `PinWrite(0)` comes next (R134). -/
  | pinLow
  /-- `Wait(RST_LOW)` comes next (R134). -/
  | holdLow
  /-- `PinWrite(1)` comes next (R134). -/
  | pinHigh
  /-- `Wait(RST_HIGH)` comes next (R134). -/
  | holdHigh
  /-- Configuration write `n` comes next, or the end when there is none (R133, R135). -/
  | cfgWrite (n : Nat)
  /-- The version read was answered (R137). -/
  | version
  /-- The FIFO write was answered (R138). -/
  | txMode
  /-- The `OPMODE_TX` write was answered (R138). -/
  | txSettle
  /-- The settle wait is over (R138). -/
  | txDone
  /-- The `OPMODE_RX` write was answered (R139). -/
  | rxEnter
  /-- A FIFO read comes next (R139). -/
  | rxPoll
  /-- A FIFO read was answered (R139). -/
  | rxJudge
  /-- The retune write was answered (R142). -/
  | tuned
  /-- The signal-strength read was answered (R143). -/
  | rssi
  /-- `STOP` has dealt with the transport; the pin comes next (R171). -/
  | stopPin
  /-- `STOP` has dealt with the pin; the response comes next (R171). -/
  | stopDone
deriving DecidableEq, Repr

/-- `seq` of R22 when a command runs: the owning client, the decoded command, the position, and the
answer of the last transport primitive, which is the pseudocode's local `r` (log entry 2). -/
structure Seq where
  client : Nat
  cmd    : Instr
  pos    : Pos
  answer : Answer
deriving DecidableEq, Repr

/-- The model's own: which LMC step is being carried out, a submission on a port (R191) or a step of
the sequencer (R194). Between steps it is `sequencer` (log entry 9). -/
inductive Turn where
  | submission (client : Nat)
  | sequencer
deriving DecidableEq, Repr

/-- The model's own: which of the enabled steps the environment has chosen (log entry 3). `run` is a
step of the LMC, a grant or the owner's next primitive; `pick` is read only by a grant under `ANY`. -/
inductive Move where
  | submit (client : Nat)
  | run (pick : Nat)
deriving DecidableEq, Repr

/-- The reasons the machine stops with a fault: none. The LMC has no trap and every error is a status
in a response frame (R218; 93_implementation_defined.md: no item uses `fault`). -/
inductive Fault where
deriving DecidableEq, Repr

/-- The reasons an instruction is refused. -/
inductive Refusal where
  /-- Raised by an arm of `exec` whose instruction has no meaning yet (safe). No arm raises it. -/
  | notModelled (mnemonic : String)
deriving DecidableEq, Repr

/-- The LMC state. The fields from `tstate` to `hist` are those of R21; `profile` is configuration;
`turn` and the fields after `hist` are the model's own. -/
structure State where
  /-- The profile record (R8); no step writes it. -/
  profile     : Profile
  tstate      : TState
  /-- RadioConfig last written by a successful `INIT` (R25). -/
  cfg         : RadioConfig
  cfgValid    : Bool
  busOpen     : Bool
  pinMode     : PinMode
  pinLevel    : PinLevel
  /-- The control file (R29). -/
  ctrl        : Ctrl
  deviceId    : Byte
  devValid    : Bool
  stopped     : Bool
  stopReq     : Bool
  /-- The client whose arbitrated command is running (R40). -/
  owner       : Option Nat
  /-- `pending[c]` (R40), one entry per client port. -/
  pending     : List (Option Instr)
  rr          : Nat
  /-- `outstanding[c]` (R41), one entry per client port. -/
  outstanding : List Bool
  seq         : Option Seq
  /-- FIFO reads the running `RECEIVE` has made (R42). -/
  k           : Nat
  /-- The event history, oldest event first (R52). -/
  hist        : List Event
  /-- Which LMC step is being carried out (log entry 9). -/
  turn        : Turn
  /-- Client agents: the frames each client has still to submit, next one first (log entry 10). -/
  inbox       : List (List Frame)
  /-- The moves the environment has chosen, next one first (log entry 3). -/
  sched       : List Move
  /-- The environment's scripted answers, next one first (log entry 4). -/
  answers     : List Answer
  /-- How many answers have been drawn; the free values are applied to it (log entry 4). -/
  draws       : Nat
deriving DecidableEq, Repr

/-- The value `cfg` holds at reset, where the spec gives none: DESIGN CHOICE (log entry 7). -/
def cfgReset : RadioConfig :=
  { freq := 0#32, power := 0#16, sf := 0#8, bw := 0#16, cr := 0#8, sync := 0#8, preamble := 0#16 }

/-- Power-on reset under a profile (R47, R260). `cfg` and `k` are DESIGN CHOICE (log entries 7, 8),
and so are the model's own fields (log entry 9). -/
def State.resetOf (p : Profile) : State :=
  { profile := p, tstate := .uninitialized, cfg := cfgReset, cfgValid := false, busOpen := false,
    pinMode := .unconfigured, pinLevel := .undriven, ctrl := p.ctrlReset, deviceId := 0x00#8,
    devValid := false, stopped := false, stopReq := false, owner := none,
    pending := List.replicate p.ports none, rr := p.ports - 1,
    outstanding := List.replicate p.ports false, seq := none, k := 0, hist := [],
    turn := .sequencer, inbox := List.replicate p.ports [], sched := [], answers := [], draws := 0 }

/-- The machine right after power-on reset, under P0. -/
def State.reset : State := State.resetOf P0

end Sys2Proof.Machine
end

