-- ==== Sys2Proof/Machine/Flags.lean ====
section
/-! DEFINITION. Every flag computation: the receive flags byte, the state flags byte (R43), and the
byte codes of TransceiverState (R23) and of the statuses (R85). -/

namespace Sys2Proof.Machine

/-- The byte encoding of TransceiverState (R23). -/
def TState.code : TState → Byte
  | .uninitialized => 0#8
  | .idle => 1#8
  | .transmitting => 2#8
  | .receiving => 3#8
  | .error => 4#8

/-- The status codes (R85). -/
def Status.code : Status → Byte
  | .ok => 0x00#8
  | .transportError => 0x01#8
  | .invalidParameter => 0x02#8
  | .invalidState => 0x03#8
  | .deviceNotFound => 0x04#8
  | .cancelled => 0x05#8
  | .illegalCommand => 0x06#8

/-- A bit at position `i` of a byte whose other bits are 0. -/
def flagBit (b : Bool) (i : Nat) : Byte := if b then 1#8 <<< i else 0#8

/-- Receive flags byte: bit 0 `FRAME_PRESENT`, bit 1 `AMBIGUOUS`, bits 7:2 zero (R43). -/
def rxFlags (framePresent ambiguous : Bool) : Byte := flagBit framePresent 0 ||| flagBit ambiguous 1

/-- State flags byte of `GET_STATE`, bits 7:6 zero (R43, R172). -/
def State.flags (s : State) : Byte :=
  flagBit s.busOpen 0 ||| flagBit s.stopped 1 ||| flagBit s.stopReq 2 |||
  flagBit s.owner.isSome 3 ||| flagBit s.devValid 4 ||| flagBit s.cfgValid 5

/-- `POLICY.STRIP`, bit 0 (R30). -/
def policyStrip (policy : Word) : Bool := policy.getLsbD 0

/-- `POLICY.ZERO_AS_DATA`, bit 1 (R30). -/
def policyZeroAsData (policy : Word) : Bool := policy.getLsbD 1

end Sys2Proof.Machine
end

