-- ==== Sys2Proof/Machine/Ops.lean ====
section
/-! DEFINITION. The named operations the meanings are written over: the event history (R52), the
oracle (R57), the bus, pin and wait primitives (R14, R15, R53, R54, R69), completion of a command
(R15, R194), taking an error (R132, R225), and the two shapes of a meaning, arbitrated and immediate
(R80). -/

namespace Sys2Proof.Machine

/-- Append one event to the history (R52). -/
def State.emit (s : State) (e : Event) : State := { s with hist := s.hist ++ [e] }

/-! ### The oracle -/

/-- Whether an answer is `ok`. -/
def Answer.isOk : Answer → Bool
  | .ok _ => true
  | .fail => false

/-- The bytes of an answer; none for `fail`. -/
def Answer.bytes : Answer → Frame
  | .ok bs => bs
  | .fail => []

/-- `n` free bytes of draw `d`. -/
def freeBytes (d n : Nat) : Frame := (List.range n).map (Config.freeByte d)

/-- The free answer of draw `d`, with `n` bytes when it is `ok`. -/
def freeAnswer (d n : Nat) : Answer :=
  match Config.freeOk d with
  | true => .ok (freeBytes d n)
  | false => .fail

/-- A scripted answer's bytes cut, or filled up with free bytes, to the `n` bytes that
`len(in) = len(out)` requires (R52, log entry 4). -/
def fitBytes (d n : Nat) (bs : Frame) : Frame := (bs ++ freeBytes d n).take n

/-- The environment's next answer to a call that carries `n` bytes (R57): the script's, or a free
value once the script is used up. -/
def State.nextAnswer (s : State) (n : Nat) : Answer :=
  match s.answers with
  | [] => freeAnswer s.draws n
  | .fail :: _ => .fail
  | .ok bs :: _ => .ok (fitBytes s.draws n bs)

/-- The state after one answer has been drawn. -/
def State.drawn (s : State) : State := { s with answers := s.answers.tail, draws := s.draws + 1 }

/-- Keep an answer as the running command's local `r` (log entry 2). -/
def State.latch (s : State) (r : Answer) : State :=
  { s with seq := s.seq.map fun q => { q with answer := r } }

/-- Move the running command to a position of its pseudocode (R22). -/
def State.goto (s : State) (pos : Pos) : State :=
  { s with seq := s.seq.map fun q => { q with pos := pos } }

/-! ### Bus, pin and wait primitives -/

/-- One SPI transaction: the environment answers, one `Xfer` event is recorded (R53, R54, R60). -/
def State.transfer (s : State) (out : Frame) : State :=
  (s.drawn.emit (.xfer out (s.nextAnswer out.length))).latch (s.nextAnswer out.length)

/-- `SpiWrite(a, bs)` (R53). -/
def State.spiWrite (s : State) (a : Nat) (bs : Frame) : State := s.transfer (writeBytes a bs)

/-- `SpiRead(a, n)` (R54). -/
def State.spiRead (s : State) (a n : Nat) : State := s.transfer (readBytes s.profile a n)

/-- The data a read returned: the bytes after the one clocked in during the address byte (R54). -/
def Answer.data (r : Answer) : Frame := r.bytes.drop 1

/-- `Open()` (R69). -/
def State.openTransport (s : State) : State :=
  (s.drawn.emit (.openBus s.profile.busId s.profile.devId (s.nextAnswer 0).isOk)).latch
    (s.nextAnswer 0)

/-- `SetClock()` (R69). When it is answered `ok` the transport counts as open (R131): `bus_open` becomes 1
in this step and not with the primitive that follows, so a `GET_STATE` between the two reads 1. The spec
names no step for the assignment; this one is the model's, DESIGN CHOICE (R16, R27, R131, R205; log
entry 25). -/
def State.setClock (s : State) : State :=
  { (s.drawn.emit (.setClock s.profile.spiHz (s.nextAnswer 0).isOk)).latch (s.nextAnswer 0) with
    busOpen := s.busOpen || (s.nextAnswer 0).isOk }

/-- `Close()` (R69). -/
def State.closeTransport (s : State) : State := { s.emit .close with busOpen := false }

/-- `PinMode(); pin_mode <- Output` (R134). -/
def State.pinOutput (s : State) : State := { s.emit .pinMode with pinMode := .output }

/-- `PinWrite(level); pin_level <- level` (R134). -/
def State.pinWrite (s : State) (level : Bool) : State :=
  { s.emit (.pinWrite level) with pinLevel := if level then .high else .low }

/-- `PinCleanup(); pin_mode <- Unconfigured; pin_level <- Undriven` (R171). -/
def State.pinCleanup (s : State) : State :=
  { s.emit .pinCleanup with pinMode := .unconfigured, pinLevel := .undriven }

/-- `Wait(kind, ms)` (R15, R231). -/
def State.wait (s : State) (kind : WaitKind) (ms : Word) : State := s.emit (.wait kind ms)

/-! ### Completing a command -/

/-- Deliver `status || data` to client `c`, whose port is then free for its next command (R84, R41). -/
def State.respond (s : State) (c : Nat) (st : Status) (data : Frame) : State :=
  { s.emit (.resp c (st.code :: data)) with outstanding := s.outstanding.set c false }

/-- Complete an immediate command in its submission step (R191, R192). -/
def State.reply (s : State) (c : Nat) (st : Status) (data : Frame) : State :=
  { s.respond c st data with turn := .sequencer }

/-- Complete the running arbitrated command: respond and release the lock, in one step (R194, R198). -/
def State.finish (s : State) (c : Nat) (st : Status) (data : Frame) : State :=
  { s.respond c st data with owner := none, seq := none }

/-- Enter `Error`: nothing else changes (R225). -/
def State.enterError (s : State) : State := { s with tstate := .error }

/-- `bus_fail()`, taken wherever a transport primitive answered `fail` (R132, R216). -/
def State.busFail (s : State) (c : Nat) : State := s.enterError.finish c .transportError []

/-! ### The two shapes of a meaning -/

/-- An arbitrated command submitted on port `c` waits in `pending[c]` (R191, R193). -/
def State.accept (s : State) (c : Nat) (i : Instr) : State :=
  { s with pending := s.pending.set c (some i), turn := .sequencer }

/-- An arbitrated command: at submission it is accepted; as owner of the lock its next primitive is
performed; granted to nobody it waits without effect (R80, R191, R193, R194; log entry 12). -/
def runArbitrated (accept : Nat → State → State) (body : Seq → State → State) (s : State) :
    Host.Outcome State Fault Refusal :=
  match s.turn with
  | .submission c => .next (accept c s)
  | .sequencer =>
    match s.seq with
    | some q => .next (body q s)
    | none => .next s

/-- An immediate command: it runs whole in its submission step and nowhere else (R80, R192; log
entry 12). -/
def runImmediate (answer : State → Status × Frame) (s : State) : Host.Outcome State Fault Refusal :=
  match s.turn with
  | .submission c => .next (s.reply c (answer s).1 (answer s).2)
  | .sequencer => .next s

end Sys2Proof.Machine
end

