-- ==== Sys2Proof/Machine/Arbiter.lean ====
section
/-! DEFINITION. The half-duplex arbiter (43_arbitration.md): submission, choice and grant, and the
reading of the schedule. -/

namespace Sys2Proof.Machine

/-! ### Choice and grant -/

/-- Whether client `c` has a pending command. -/
def isPending (pending : List (Option Instr)) (c : Nat) : Bool := (pending[c]?.join).isSome

/-- Whether client `c` has a pending `STOP`. -/
def isPendingStop (pending : List (Option Instr)) (c : Nat) : Bool :=
  decide (pending[c]?.join = some .stop)

/-- The clients in the order `first, first + 1, ...` taken mod `m` (R196). -/
def clientsFrom (m first : Nat) : List Nat := (List.range m).map fun i => (first + i) % m

/-- `choose(s)`: the lowest client with a pending `STOP`; otherwise by `ARB_POLICY`, where `ANY` takes
its choice from `pick` (R195, R196; log entry 17). That the grant rule looks for a pending `STOP` and does
not read `stop_req`, as R39 says it does, is DEDUCED from R194 to R196 (log entry 26). That every `STOP`
comes first, so that the bound of R197 does not hold while other ports go on submitting `STOP`, is DEDUCED
from R195 (log entry 27). -/
def State.choose (s : State) (pick : Nat) : Option Nat :=
  match (List.range s.profile.ports).find? (isPendingStop s.pending) with
  | some c => some c
  | none =>
    match s.profile.arbPolicy with
    | .roundRobin => (clientsFrom s.profile.ports (s.rr + 1)).find? (isPending s.pending)
    | .any => (clientsFrom s.profile.ports pick).find? (isPending s.pending)

/-- Grant to client `c` its pending command `i` (R194). -/
def State.grantTo (s : State) (c : Nat) (i : Instr) : State :=
  { s.emit (.grant c) with
    pending := s.pending.set c none
    owner := some c
    rr := c
    seq := some { client := c, cmd := i, pos := .start, answer := .ok [] } }

/-- The grant step: enabled when no client owns the lock and some command is pending (R194);
otherwise nothing happens. -/
def State.grant (s : State) (pick : Nat) : State :=
  match s.owner, s.choose pick with
  | none, some c =>
    match s.pending[c]?.join with
    | some i => s.grantTo c i
    | none => s
  | _, _ => s

/-! ### Submission -/

/-- The first lines of the submission step: `Submit(c, f)` is recorded and the port is occupied; the
frame leaves the client's queue `f :: rest` (R191). -/
def State.takeFrame (s : State) (c : Nat) (f : Frame) (rest : List Frame) : State :=
  { s.emit (.submit c f) with
    outstanding := s.outstanding.set c true
    inbox := s.inbox.set c rest
    turn := .submission c }

/-- The submission step of client `c` up to the decoded command: enabled when the port has no
outstanding command and the client has a frame to submit (R190, R191). -/
def State.beginSubmit (s : State) (c : Nat) : Option (Instr × State) :=
  match s.outstanding[c]?, s.inbox[c]? with
  | some false, some (f :: rest) => some (decodeFrame s.profile f, s.takeFrame c f rest)
  | _, _ => none

/-! ### The schedule -/

/-- Whether an LMC step, a primitive of the owner or a grant, is enabled (R194). -/
def State.lmcReady (s : State) : Bool :=
  s.seq.isSome || (s.owner.isNone && s.pending.any Option.isSome)

/-- Whether client `c` has an enabled submission step. -/
def State.canSubmit (s : State) (c : Nat) : Bool := (s.beginSubmit c).isSome

/-- The move when the schedule names none: the LMC's own step if one is enabled, otherwise the
lowest client that can submit (log entry 3). -/
def State.defaultMove (s : State) : Move :=
  if s.lmcReady then .run (Config.freePick s.draws)
  else match (List.range s.outstanding.length).find? s.canSubmit with
    | some c => .submit c
    | none => .run 0

/-- The next move. -/
def State.nextMove (s : State) : Move :=
  match s.sched with
  | m :: _ => m
  | [] => s.defaultMove

/-- The state with its next move taken off the schedule. -/
def State.popMove (s : State) : State := { s with sched := s.sched.tail }

/-- The step is the sequencer's: the owner's next primitive comes (R194). -/
def State.ownTurn (s : State) : State := { s with turn := .sequencer }

/-! ### Loading a frame -/

/-- Client 0 next to submit `f` and the schedule next to let it (log entry 10). -/
def State.loadFrame (s : State) (f : Frame) : State :=
  { s with
    outstanding := if s.outstanding = [] then [false] else s.outstanding.set 0 false
    inbox := match s.inbox with
      | [] => [[f]]
      | fs :: rest => (f :: fs) :: rest
    sched := .submit 0 :: s.sched }

end Sys2Proof.Machine
end

