-- ==== Sys2Proof/Machine/Bus.lean ====
section
/-! DEFINITION. The two SPI transaction frames as instructions of the bus (R53, R54, R88, R89). They
are the primitives the commands are built from; no command frame spells one (R55, R90; log entry 13). -/

namespace Sys2Proof.Machine

/-- `SPI_WRITE`: one write transaction (R53, R88). -/
def execSpiWrite (addr : BitVec 7) (data : Frame) (s : State) : Host.Outcome State Fault Refusal :=
  .next (s.spiWrite addr.toNat data)

/-- `SPI_READ`: one read transaction of `n` data bytes (R54, R89). -/
def execSpiRead (addr : BitVec 7) (n : Nat) (s : State) : Host.Outcome State Fault Refusal :=
  .next (s.spiRead addr.toNat n)

end Sys2Proof.Machine
end

