-- ==== Sys2Proof/Machine/Codec.lean ====
section
/-! DEFINITION. The Register Codec (40_codec.md): its functions, over a profile, and the meanings of
the eight codec commands. All arithmetic is exact (R119). -/

namespace Sys2Proof.Machine

/-! ### Codec functions -/

/-- `freq_ok(f)` (R102). -/
def freqOk (p : Profile) (f : Nat) : Bool := decide (p.fMin ≤ f ∧ f ≤ p.fMax)

/-- The register value of a frequency: `floor(f * 2^FSHIFT / F_XTAL)` (R101). -/
def freqReg (p : Profile) (f : Nat) : Nat := f * 2 ^ p.fShift / p.fXtal

/-- `enc_freq(f)` (R101). -/
def encFreq (p : Profile) (f : Nat) : Frame := be p.frfBytes (freqReg p f)

/-- `dec_freq(r)`: `ceil(r * F_XTAL / 2^FSHIFT)` (R103). -/
def decFreq (p : Profile) (r : Nat) : Nat := (r * p.fXtal + (2 ^ p.fShift - 1)) / 2 ^ p.fShift

/-- `power_ok(v)` (R106). -/
def powerOk (p : Profile) (v : Int) : Bool := decide (p.pMin ≤ v ∧ v ≤ p.pMax)

/-- `enc_power(v)`: the two's-complement pattern `v mod 2^PA_BITS` (R105). -/
def encPower (p : Profile) (v : Int) : Byte := BitVec.ofNat 8 (v % (2 ^ p.paBits : Int)).toNat

/-- `mod_ok(sf, bw, cr)` (R108). -/
def modOk (p : Profile) (sf bw cr : Nat) : Bool :=
  decide (p.sfMin ≤ sf ∧ sf ≤ p.sfMax) && (bwCode p bw).isSome && p.crSet.contains cr &&
    comboOk p sf bw cr

/-- `enc_mod(sf, bw, cr)`: the two modem-config bytes (R107, R109, R110). -/
def encMod (p : Profile) (sf bw cr : Nat) : Frame :=
  [(BitVec.ofNat 8 ((bwCode p bw).getD 0) <<< 4) ||| (BitVec.ofNat 8 (cr - 4) <<< 1),
    BitVec.ofNat 8 sf <<< 4]

/-- The preamble range check (R111). -/
def preOk (p : Profile) (n : Nat) : Bool := decide (p.preMin ≤ n ∧ n ≤ p.preMax)

/-- `enc_pre(n)` (R111). -/
def encPre (n : Nat) : Frame := be 2 n

/-- `enc_sync(w)` (R112). -/
def encSync (w : Byte) : Frame := [w]

/-- `dec_rssi(raw)` (R113). -/
def decRssi (p : Profile) (raw : Byte) : Int := rssiOf p.rssiMap raw

/-- `strip0(raw)`: the bytes up to the last one that is not 0x00 (R115). -/
def strip0 : Frame → Frame
  | [] => []
  | b :: bs =>
    match strip0 bs with
    | [] => if b = 0#8 then [] else [b]
    | kept => b :: kept

/-- `all_zero(raw)` (R116). -/
def allZero (raw : Frame) : Bool := !raw.isEmpty && raw.all (· == 0#8)

/-- `is_data(raw, pol)` (R116). -/
def isData (raw : Frame) (pol : Word) : Bool := raw.any (· != 0#8) || policyZeroAsData pol

/-- `dec_payload(raw, pol)`: the receive flags byte and the Frame (R115). -/
def decPayload (raw : Frame) (pol : Word) : Byte × Frame :=
  (rxFlags true (allZero raw), if policyStrip pol then strip0 raw else raw)

/-- The response data `[flags, len(out)] || out` (R86, R114, R139). -/
def payloadData (r : Byte × Frame) : Frame := r.1 :: BitVec.ofNat 8 r.2.length :: r.2

/-- `cfg_ok(cfg)` (R117). -/
def cfgOk (p : Profile) (c : RadioConfig) : Bool :=
  freqOk p c.freq.toNat && powerOk p (sext16 c.power) &&
    modOk p c.sf.toNat c.bw.toNat c.cr.toNat && preOk p c.preamble.toNat

/-- `cfg_writes(cfg)`: the five register writes, in order (R118). -/
def cfgWrites (p : Profile) (c : RadioConfig) : List (Nat × Frame) :=
  [(p.regFrf, encFreq p c.freq.toNat),
   (p.regPa, [encPower p (sext16 c.power)]),
   (p.regModem, encMod p c.sf.toNat c.bw.toNat c.cr.toNat),
   (p.regPreamble, encPre c.preamble.toNat),
   (p.regSync, encSync c.sync)]

/-! ### Codec commands -/

/-- Respond with data when the check holds, `INVALID_PARAMETER` when it does not (R100, R217). -/
def checked (okay : Bool) (data : Frame) : Status × Frame :=
  if okay then (.ok, data) else (.invalidParameter, [])

/-- `ENC_FREQ` (R101). -/
def execEncFreq (freq : Word) (s : State) : Host.Outcome State Fault Refusal :=
  runImmediate (fun s => checked (freqOk s.profile freq.toNat) (encFreq s.profile freq.toNat)) s

/-- `DEC_FREQ` (R103). -/
def execDecFreq (reg : Nat) (s : State) : Host.Outcome State Fault Refusal :=
  runImmediate (fun s => (.ok, be 4 (decFreq s.profile reg))) s

/-- `ENC_POWER` (R105). -/
def execEncPower (power : Half) (s : State) : Host.Outcome State Fault Refusal :=
  runImmediate
    (fun s => checked (powerOk s.profile (sext16 power)) [encPower s.profile (sext16 power)]) s

/-- `ENC_MOD` (R107). -/
def execEncMod (sf : Byte) (bw : Half) (cr : Byte) (s : State) :
    Host.Outcome State Fault Refusal :=
  runImmediate
    (fun s => checked (modOk s.profile sf.toNat bw.toNat cr.toNat)
      (encMod s.profile sf.toNat bw.toNat cr.toNat)) s

/-- `ENC_PREAMBLE` (R111). -/
def execEncPreamble (preamble : Half) (s : State) : Host.Outcome State Fault Refusal :=
  runImmediate (fun s => checked (preOk s.profile preamble.toNat) (encPre preamble.toNat)) s

/-- `ENC_SYNC` (R112). -/
def execEncSync (sync : Byte) (s : State) : Host.Outcome State Fault Refusal :=
  runImmediate (fun _ => (.ok, encSync sync)) s

/-- `DEC_RSSI` (R113). -/
def execDecRssi (raw : Byte) (s : State) : Host.Outcome State Fault Refusal :=
  runImmediate (fun s => (.ok, beInt16 (decRssi s.profile raw))) s

/-- `DEC_PAYLOAD` (R114). -/
def execDecPayload (data : Frame) (s : State) : Host.Outcome State Fault Refusal :=
  runImmediate
    (fun s => checked (decide (data.length ≤ s.profile.fifoDepth))
      (payloadData (decPayload data s.ctrl.policy))) s

end Sys2Proof.Machine
end

