-- ==== Sys2Proof/Machine/Transceiver.lean ====
section
/-! DEFINITION. The Transceiver commands and the reset-and-configure sequencer (41_transceiver.md).
Each body is the command's pseudocode, one primitive a step: it resumes at its position, makes the
decisions that come before the next primitive, and performs that primitive (log entry 1). -/

namespace Sys2Proof.Machine

/-! ### Shared sub-procedures -/

/-- The first primitive of `reset_sequence()` (R134). -/
def State.beginReset (s : State) : State :=
  if s.pinMode = .unconfigured then s.pinOutput.goto .pinLow else (s.pinWrite false).goto .holdLow

/-- `INVALID_STATE` after grant: no other event and no state change (R130, R219). -/
def State.badState (s : State) (c : Nat) : State := s.finish c .invalidState []

/-- `INVALID_PARAMETER` after grant: no other event and no state change (R130, R217). -/
def State.badParameter (s : State) (c : Nat) : State := s.finish c .invalidParameter []

/-! ### INIT -/

/-- The end of `INIT`: the configuration is latched and the state becomes `Idle` (R133). -/
def initDone (cfg : RadioConfig) (q : Seq) (s : State) : State :=
  { s with cfg := cfg, cfgValid := true, tstate := .idle }.finish q.client .ok []

/-- Configuration write `n`, or the end when all are written (R133, R135). -/
def initWrite (cfg : RadioConfig) (n : Nat) (q : Seq) (s : State) : State :=
  match (cfgWrites s.profile cfg)[n]? with
  | some w => (s.spiWrite w.1 w.2).goto (.cfgWrite (n + 1))
  | none => initDone cfg q s

/-- The checks of `INIT` and its first primitive. `cfg_valid` is cleared here, as R133's pseudocode has
it, while `tstate` keeps its value until the end (log entry 15). -/
def initStart (cfg : RadioConfig) (q : Seq) (s : State) : State :=
  if s.tstate = .transmitting ∨ s.tstate = .receiving then s.badState q.client
  else if cfgOk s.profile cfg = false then s.badParameter q.client
  else if s.busOpen then { s with stopped := false, cfgValid := false }.beginReset
  else { s with stopped := false, cfgValid := false }.openTransport.goto .opened

/-- The pseudocode of `INIT` with `ensure_open` and `reset_sequence` (R131, R133, R134). -/
def initBody (cfg : RadioConfig) (q : Seq) (s : State) : State :=
  match q.pos with
  | .start => initStart cfg q s
  | .opened => if q.answer.isOk then s.setClock.goto .clocked else s.busFail q.client
  | .clocked => if q.answer.isOk then s.beginReset else s.closeTransport.goto .released
  | .released => s.busFail q.client
  | .pinLow => (s.pinWrite false).goto .holdLow
  | .holdLow => (s.wait .rstLow s.ctrl.tRstLow).goto .pinHigh
  | .pinHigh => (s.pinWrite true).goto .holdHigh
  | .holdHigh => (s.wait .rstHigh s.ctrl.tRstHigh).goto (.cfgWrite 0)
  | .cfgWrite n => if n = 0 ∨ q.answer.isOk then initWrite cfg n q s else s.busFail q.client
  | _ => s

/-- `INIT` (R133). -/
def execInit (cfg : RadioConfig) (s : State) : Host.Outcome State Fault Refusal :=
  runArbitrated (fun c s => s.accept c (.init cfg)) (initBody cfg) s

/-! ### DETECT -/

/-- A transport failure of `DETECT` (R137, R216). -/
def detectFail (q : Seq) (s : State) : State := { s with devValid := false }.busFail q.client

/-- The version read of `DETECT` (R137). -/
def detectRead (s : State) : State := (s.spiRead s.profile.regVersion 1).goto .version

/-- The judgement of the version byte `v` (R137, R220). -/
def detectJudge (v : Byte) (q : Seq) (s : State) : State :=
  if v = 0x00#8 ∨ expectedId s.profile v = false then
    { s with devValid := false }.enterError.finish q.client .deviceNotFound [v]
  else { s with deviceId := v, devValid := true }.finish q.client .ok [v]

/-- The pseudocode of `DETECT` with `ensure_open` (R131, R137). -/
def detectBody (q : Seq) (s : State) : State :=
  match q.pos with
  | .start =>
    if s.stopped = true ∨ ¬(s.tstate = .uninitialized ∨ s.tstate = .idle) then s.badState q.client
    else if s.busOpen then detectRead s
    else s.openTransport.goto .opened
  | .opened => if q.answer.isOk then s.setClock.goto .clocked else detectFail q s
  | .clocked => if q.answer.isOk then detectRead s else s.closeTransport.goto .released
  | .released => detectFail q s
  | .version => if q.answer.isOk then detectJudge (u8At q.answer.data 0) q s else detectFail q s
  | _ => s

/-- `DETECT` (R137). -/
def execDetect (s : State) : Host.Outcome State Fault Refusal :=
  runArbitrated (fun c s => s.accept c .detect) detectBody s

/-! ### TRANSMIT -/

/-- The pseudocode of `TRANSMIT` (R138). -/
def transmitBody (data : Frame) (q : Seq) (s : State) : State :=
  match q.pos with
  | .start =>
    if s.tstate ≠ .idle then s.badState q.client
    else if s.profile.fifoDepth < data.length then s.badParameter q.client
    else ({ s with tstate := .transmitting }.spiWrite s.profile.regFifo data).goto .txMode
  | .txMode =>
    if q.answer.isOk then (s.spiWrite s.profile.regOpmode [s.profile.opmodeTx]).goto .txSettle
    else s.busFail q.client
  | .txSettle =>
    if q.answer.isOk then (s.wait .settle s.ctrl.tSettle).goto .txDone else s.busFail q.client
  | .txDone => { s with tstate := .idle }.finish q.client .ok []
  | _ => s

/-- `TRANSMIT` (R138). -/
def execTransmit (data : Frame) (s : State) : Host.Outcome State Fault Refusal :=
  runArbitrated (fun c s => s.accept c (.transmit data)) (transmitBody data) s

/-! ### RECEIVE -/

/-- One FIFO read of the poll loop (R139). -/
def receiveRead (s : State) : State := (s.spiRead s.profile.regFifo s.profile.fifoDepth).goto .rxJudge

/-- After a FIFO read that was answered `ok` with data bytes `r`: data, then cancel, then timeout,
then the poll wait (R139, R141, R224). -/
def receiveJudge (timeout : Word) (r : Frame) (q : Seq) (s : State) : State :=
  if isData r s.ctrl.policy then
    { s with tstate := .idle }.finish q.client .ok (payloadData (decPayload r s.ctrl.policy))
  else if s.stopReq then { s with tstate := .idle }.finish q.client .cancelled []
  else if timeout ≠ s.profile.inf ∧ timeout.toNat ≤ s.k * s.ctrl.tPoll.toNat then
    { s with tstate := .idle }.finish q.client .ok [0x00#8, 0x00#8]
  else (s.wait .poll s.ctrl.tPoll).goto .rxPoll

/-- The pseudocode of `RECEIVE` (R139). -/
def receiveBody (timeout : Word) (q : Seq) (s : State) : State :=
  match q.pos with
  | .start =>
    if s.tstate ≠ .idle then s.badState q.client
    else if s.profile.rxEntry then
      ({ s with tstate := .receiving }.spiWrite s.profile.regOpmode [s.profile.opmodeRx]).goto .rxEnter
    else receiveRead { s with tstate := .receiving, k := 0 }
  | .rxEnter => if q.answer.isOk then receiveRead { s with k := 0 } else s.busFail q.client
  | .rxPoll => receiveRead s
  | .rxJudge =>
    if q.answer.isOk then receiveJudge timeout q.answer.data q { s with k := s.k + 1 }
    else s.busFail q.client
  | _ => s

/-- `RECEIVE` (R139). -/
def execReceive (timeout : Word) (s : State) : Host.Outcome State Fault Refusal :=
  runArbitrated (fun c s => s.accept c (.receive timeout)) (receiveBody timeout) s

/-! ### SET_FREQ and READ_RSSI -/

/-- The pseudocode of `SET_FREQ` (R142). -/
def setFreqBody (freq : Word) (q : Seq) (s : State) : State :=
  match q.pos with
  | .start =>
    if s.tstate ≠ .idle then s.badState q.client
    else if freqOk s.profile freq.toNat = false then s.badParameter q.client
    else (s.spiWrite s.profile.regFrf (encFreq s.profile freq.toNat)).goto .tuned
  | .tuned =>
    if q.answer.isOk then { s with cfg := { s.cfg with freq := freq } }.finish q.client .ok []
    else s.busFail q.client
  | _ => s

/-- `SET_FREQ` (R142). -/
def execSetFreq (freq : Word) (s : State) : Host.Outcome State Fault Refusal :=
  runArbitrated (fun c s => s.accept c (.setFreq freq)) (setFreqBody freq) s

/-- The response data of `READ_RSSI`: the decoded strength, then the raw byte (R86, R143). -/
def rssiData (p : Profile) (raw : Byte) : Frame := beInt16 (decRssi p raw) ++ [raw]

/-- The pseudocode of `READ_RSSI` (R143). -/
def readRssiBody (q : Seq) (s : State) : State :=
  match q.pos with
  | .start =>
    if s.tstate ≠ .idle then s.badState q.client
    else (s.spiRead s.profile.regRssi 1).goto .rssi
  | .rssi =>
    if q.answer.isOk then s.finish q.client .ok (rssiData s.profile (u8At q.answer.data 0))
    else s.busFail q.client
  | _ => s

/-- `READ_RSSI` (R143). -/
def execReadRssi (s : State) : Host.Outcome State Fault Refusal :=
  runArbitrated (fun c s => s.accept c .readRssi) readRssiBody s

end Sys2Proof.Machine
end

