-- ==== Sys2Proof/Machine/Control.lean ====
section
/-! DEFINITION. The control commands and the frames that spell no command (42_control.md). -/

namespace Sys2Proof.Machine

/-! ### The control file -/

/-- `x[i]`, none for a reserved index (R29, R36). -/
def ctrlRead (x : Ctrl) (i : Byte) : Option Word :=
  match i.toNat with
  | 0 => some x.policy
  | 1 => some x.tRstLow
  | 2 => some x.tRstHigh
  | 3 => some x.tSettle
  | 4 => some x.tPoll
  | _ => none

/-- `x[i] <- v`, none when the write is rejected: a reserved index, or a zero `T_POLL`. Bits 31:2 of
`POLICY` are ignored (R30, R35, R36, R173). -/
def ctrlWrite (x : Ctrl) (i : Byte) (v : Word) : Option Ctrl :=
  match i.toNat with
  | 0 => some { x with policy := v &&& 0x00000003#32 }
  | 1 => some { x with tRstLow := v }
  | 2 => some { x with tRstHigh := v }
  | 3 => some { x with tSettle := v }
  | 4 => if v = 0#32 then none else some { x with tPoll := v }
  | _ => none

/-! ### STOP -/

/-- `STOP` at submission: it waits like every arbitrated command, and `stop_req` is set at once
(R170, R191). -/
def stopAccept (c : Nat) (s : State) : State := { s.accept c .stop with stopReq := true }

/-- The end of `STOP` (R171). -/
def stopEnd (q : Seq) (s : State) : State :=
  { s with tstate := if s.tstate = TState.idle then .uninitialized else s.tstate,
           stopped := true, stopReq := false }.finish q.client .ok []

/-- The pin's part of `STOP` (R171). -/
def stopRelease (q : Seq) (s : State) : State :=
  if s.pinMode = .output then s.pinCleanup.goto .stopDone else stopEnd q s

/-- The pseudocode of `STOP` after grant (R171). -/
def stopBody (q : Seq) (s : State) : State :=
  match q.pos with
  | .start => if s.busOpen then s.closeTransport.goto .stopPin else stopRelease q s
  | .stopPin => stopRelease q s
  | .stopDone => stopEnd q s
  | _ => s

/-- `STOP` (R170, R171). -/
def execStop (s : State) : Host.Outcome State Fault Refusal := runArbitrated stopAccept stopBody s

/-! ### GET_STATE, WRITE_CTRL, READ_CTRL -/

/-- `GET_STATE` (R172). -/
def execGetState (s : State) : Host.Outcome State Fault Refusal :=
  runImmediate (fun s => (.ok, [s.tstate.code, s.flags, s.deviceId])) s

/-- The pseudocode of `WRITE_CTRL` after grant (R173). -/
def writeCtrlBody (idx : Byte) (value : Word) (q : Seq) (s : State) : State :=
  match ctrlWrite s.ctrl idx value with
  | some x => { s with ctrl := x }.finish q.client .ok []
  | none => s.badParameter q.client

/-- `WRITE_CTRL` (R173). -/
def execWriteCtrl (idx : Byte) (value : Word) (s : State) : Host.Outcome State Fault Refusal :=
  runArbitrated (fun c s => s.accept c (.writeCtrl idx value)) (writeCtrlBody idx value) s

/-- The response of `READ_CTRL` (R174). -/
def readCtrlAnswer (x : Ctrl) (idx : Byte) : Status × Frame :=
  match ctrlRead x idx with
  | some v => (.ok, be 4 v.toNat)
  | none => (.invalidParameter, [])

/-- `READ_CTRL` (R174). -/
def execReadCtrl (idx : Byte) (s : State) : Host.Outcome State Fault Refusal :=
  runImmediate (fun s => readCtrlAnswer s.ctrl idx) s

/-! ### Frames that spell no command -/

/-- A frame with a reserved opcode completes with `ILLEGAL_COMMAND` (R81, R175, R223). -/
def execReserved (_op : Byte) (_rest : Frame) (s : State) : Host.Outcome State Fault Refusal :=
  runImmediate (fun _ => (.illegalCommand, [])) s

/-- An empty frame or one of the wrong length completes with `ILLEGAL_COMMAND` (R82, R175, R223). -/
def execIllegal (_frame : Frame) (s : State) : Host.Outcome State Fault Refusal :=
  runImmediate (fun _ => (.illegalCommand, [])) s

end Sys2Proof.Machine
end

