-- ==== Sys2Proof/Machine/Dispatch.lean ====
section
/-! DEFINITION. The dispatch of every instruction to its meaning. -/

namespace Sys2Proof.Machine

def exec (i : Instr) (s : State) : Host.Outcome State Fault Refusal :=
  match i with
  | .init cfg => Sys2Proof.Machine.execInit cfg s
  | .detect => Sys2Proof.Machine.execDetect s
  | .transmit data => Sys2Proof.Machine.execTransmit data s
  | .receive timeout => Sys2Proof.Machine.execReceive timeout s
  | .setFreq freq => Sys2Proof.Machine.execSetFreq freq s
  | .readRssi => Sys2Proof.Machine.execReadRssi s
  | .stop => Sys2Proof.Machine.execStop s
  | .getState => Sys2Proof.Machine.execGetState s
  | .writeCtrl idx value => Sys2Proof.Machine.execWriteCtrl idx value s
  | .readCtrl idx => Sys2Proof.Machine.execReadCtrl idx s
  | .encFreq freq => Sys2Proof.Machine.execEncFreq freq s
  | .decFreq reg => Sys2Proof.Machine.execDecFreq reg s
  | .encPower power => Sys2Proof.Machine.execEncPower power s
  | .encMod sf bw cr => Sys2Proof.Machine.execEncMod sf bw cr s
  | .encPreamble preamble => Sys2Proof.Machine.execEncPreamble preamble s
  | .encSync sync => Sys2Proof.Machine.execEncSync sync s
  | .decRssi raw => Sys2Proof.Machine.execDecRssi raw s
  | .decPayload data => Sys2Proof.Machine.execDecPayload data s
  | .reserved op rest => Sys2Proof.Machine.execReserved op rest s
  | .illegal frame => Sys2Proof.Machine.execIllegal frame s
  | .spiWrite addr data => Sys2Proof.Machine.execSpiWrite addr data s
  | .spiRead addr n => Sys2Proof.Machine.execSpiRead addr n s

end Sys2Proof.Machine
end

