-- ==== Sys2Proof/Machine/Step.lean ====
section
/-! DEFINITION. One step of the machine (R194 and the opening of 43_arbitration.md): a client's
submission step, or a step of the LMC itself, a primitive of the owner or a grant. -/

namespace Sys2Proof.Machine

/-- One step. The move comes from the schedule; a move that is not enabled has no effect beyond
being passed over (R190; log entry 11). -/
def step (s : State) : Host.Outcome State Fault Refusal :=
  match s.nextMove with
  | .submit c =>
    match s.popMove.beginSubmit c with
    | some (i, t) => exec i t
    | none => .next s.popMove
  | .run pick =>
    match s.popMove.seq with
    | some q => exec q.cmd s.popMove.ownTurn
    | none => .next (s.popMove.grant pick)

/-- The state whose next step submits and runs the opcode-table word (log entries 10 and 23). -/
def State.withFetchWord (s : State) (nbits w : Nat) : State :=
  s.loadFrame (tableFrame s.profile nbits w)

end Sys2Proof.Machine
end

