-- ==== Sys2Proof/Machine/Assembler.lean ====
section
/-! DEFINITION. The assembler syntax (R92), from a line's characters to the instruction and its frame,
and the pseudo-instructions (R93). Host software: no step of the machine calls it. -/

namespace Sys2Proof.Machine

/-! ### Tokens -/

/-- A token of a line. -/
inductive Tok where
  /-- A mnemonic, a field name or a number. -/
  | word (chars : List Char)
  /-- A quoted ASCII string, as its characters' codes. -/
  | str (bytes : Frame)
  /-- One of `=`, `,`, `[`, `]` and `:`. -/
  | sign (c : Char)
deriving DecidableEq, Repr

/-- Whether a character belongs to a word. -/
def isWordChar (c : Char) : Bool := c.isAlphanum || c == '_' || c == '-'

/-- Whether a character is a sign of its own. -/
def isSign (c : Char) : Bool := c == '=' || c == ',' || c == '[' || c == ']' || c == ':'

/-- The finished word, if there is one, before the tokens that follow it. -/
def flush (word : List Char) (toks : List Tok) : List Tok :=
  if word = [] then toks else .word word :: toks

/-- The tokens of a line: `word` holds the characters of the word being read, `quote` those of the
string being read. -/
def lexFrom (word : List Char) (quote : Option Frame) : List Char → Option (List Tok)
  | [] =>
    match quote with
    | none => some (flush word [])
    | some _ => none
  | c :: cs =>
    match quote with
    | some bytes =>
      if c = '"' then (lexFrom [] none cs).map (Tok.str bytes :: ·)
      else if c.toNat < 128 then lexFrom [] (some (bytes ++ [BitVec.ofNat 8 c.toNat])) cs
      else none
    | none =>
      if isWordChar c then lexFrom (word ++ [c]) none cs
      else if c = ' ' then (lexFrom [] none cs).map (flush word)
      else if c = '"' then (lexFrom [] (some []) cs).map (flush word)
      else if isSign c then (lexFrom [] none cs).map fun toks => flush word (.sign c :: toks)
      else none

/-- The tokens of a line. -/
def lexLine (line : List Char) : Option (List Tok) := lexFrom [] none line

/-! ### Numbers -/

/-- The value of a digit in base 10 or 16. -/
def digitValue (base : Nat) (c : Char) : Option Nat :=
  let v :=
    if c.isDigit then some (c.toNat - '0'.toNat)
    else if 'a' ≤ c ∧ c ≤ 'f' then some (c.toNat - 'a'.toNat + 10)
    else if 'A' ≤ c ∧ c ≤ 'F' then some (c.toNat - 'A'.toNat + 10)
    else none
  v.filter (· < base)

/-- The value of a digit sequence after the value `acc` of the digits before it. -/
def digitsFrom (base acc : Nat) : List Char → Option Nat
  | [] => some acc
  | c :: cs => (digitValue base c).bind fun v => digitsFrom base (acc * base + v) cs

/-- A number: decimal, or hexadecimal after `0x` (R11, R92). -/
def natOf : List Char → Option Nat
  | [] => none
  | ['0', 'x'] => none
  | '0' :: 'x' :: cs => digitsFrom 16 0 cs
  | cs => digitsFrom 10 0 cs

/-- An integer: a number, or one after a minus sign. -/
def intOf : List Char → Option Int
  | '-' :: cs => (natOf cs).map fun n => -(n : Int)
  | cs => (natOf cs).map Int.ofNat

/-- A word of `w` bits from an integer in the unsigned range. -/
def unsignedOf (w : Nat) (v : Int) : Option (BitVec w) :=
  if 0 ≤ v ∧ v < 2 ^ w then some (BitVec.ofInt w v) else none

/-- An `s16` from an integer in its range. -/
def signed16Of (v : Int) : Option Half :=
  if -32768 ≤ v ∧ v < 32768 then some (BitVec.ofInt 16 v) else none

/-! ### Operand lists -/

/-- `name=<integer>, name=<integer>, ...`, for the names in their order. -/
def fieldsOf : List (List Char) → List Tok → Option (List Int)
  | [], [] => some []
  | [name], [.word n, .sign '=', .word v] =>
    if n = name then (intOf v).map fun x => [x] else none
  | name :: names, .word n :: .sign '=' :: .word v :: .sign ',' :: rest =>
    if n = name then
      (intOf v).bind fun x => (fieldsOf names rest).map (x :: ·)
    else none
  | _, _ => none

/-- `b, b, ...]`: the bytes of a list after its opening bracket. -/
def bytesOf : List Tok → Option Frame
  | [.sign ']'] => some []
  | [.word b, .sign ']'] => (intOf b).bind fun v => (unsignedOf 8 v).map fun x => [x]
  | .word b :: .sign ',' :: rest =>
    (intOf b).bind fun v => (unsignedOf 8 v).bind fun x => (bytesOf rest).map (x :: ·)
  | _ => none

/-- A `<frame>` operand: a list or a quoted string. Its length must fit the length byte. -/
def frameOf (toks : List Tok) : Option Frame :=
  (match toks with
    | [.str bytes] => some bytes
    | .sign '[' :: rest => bytesOf rest
    | _ => none).filter fun f => f.length < 256

/-- A control index: a number or a symbolic name (R78). -/
def ctrlIndexOf (word : List Char) : Option Byte :=
  if word = "POLICY".toList then some 0#8
  else if word = "T_RST_LOW".toList then some 1#8
  else if word = "T_RST_HIGH".toList then some 2#8
  else if word = "T_SETTLE".toList then some 3#8
  else if word = "T_POLL".toList then some 4#8
  else (intOf word).bind (unsignedOf 8)

/-- One integer operand without a name. -/
def oneOf : List Tok → Option Int
  | [.word v] => intOf v
  | _ => none

/-! ### Commands -/

/-- The operands of `INIT` (R75, R92). -/
def initOf (toks : List Tok) : Option Instr :=
  match fieldsOf ["freq".toList, "power".toList, "sf".toList, "bw".toList, "cr".toList,
    "sync".toList, "preamble".toList] toks with
  | some [freq, power, sf, bw, cr, sync, preamble] => do
    let freq ← unsignedOf 32 freq
    let power ← signed16Of power
    let sf ← unsignedOf 8 sf
    let bw ← unsignedOf 16 bw
    let cr ← unsignedOf 8 cr
    let sync ← unsignedOf 8 sync
    let preamble ← unsignedOf 16 preamble
    return .init { freq, power, sf, bw, cr, sync, preamble }
  | _ => none

/-- The operand of `RECEIVE`: a number of milliseconds, or `INF` (R77). -/
def timeoutOf (p : Profile) : List Tok → Option Instr
  | [.word n, .sign '=', .word v] =>
    if n = "timeout".toList then
      if v = "INF".toList then some (.receive p.inf)
      else (intOf v).bind fun x => (unsignedOf 32 x).map .receive
    else none
  | _ => none

/-- The command of a mnemonic and its operand tokens (R92). An operand that fits its type is accepted
whatever the command's range (R83; log entry 24). -/
def commandOf (p : Profile) (mnemonic : List Char) (toks : List Tok) : Option Instr :=
  if mnemonic = "INIT".toList then initOf toks
  else if mnemonic = "DETECT".toList then if toks = [] then some .detect else none
  else if mnemonic = "TRANSMIT".toList then (frameOf toks).map .transmit
  else if mnemonic = "RECEIVE".toList then timeoutOf p toks
  else if mnemonic = "SET_FREQ".toList then
    (oneOf toks).bind fun v => (unsignedOf 32 v).map .setFreq
  else if mnemonic = "READ_RSSI".toList then if toks = [] then some .readRssi else none
  else if mnemonic = "STOP".toList then if toks = [] then some .stop else none
  else if mnemonic = "GET_STATE".toList then if toks = [] then some .getState else none
  else if mnemonic = "WRITE_CTRL".toList then
    match toks with
    | [.word idx, .sign ',', .word v] =>
      (ctrlIndexOf idx).bind fun i => (intOf v).bind fun x =>
        (unsignedOf 32 x).map fun value => .writeCtrl i value
    | _ => none
  else if mnemonic = "READ_CTRL".toList then
    match toks with
    | [.word idx] => (ctrlIndexOf idx).map .readCtrl
    | _ => none
  else if mnemonic = "ENC_FREQ".toList then
    (oneOf toks).bind fun v => (unsignedOf 32 v).map .encFreq
  else if mnemonic = "DEC_FREQ".toList then
    (oneOf toks).bind fun v =>
      if 0 ≤ v ∧ v.toNat < 256 ^ p.frfBytes then some (.decFreq v.toNat) else none
  else if mnemonic = "ENC_POWER".toList then (oneOf toks).bind fun v => (signed16Of v).map .encPower
  else if mnemonic = "ENC_MOD".toList then
    match fieldsOf ["sf".toList, "bw".toList, "cr".toList] toks with
    | some [sf, bw, cr] => do
      let sf ← unsignedOf 8 sf
      let bw ← unsignedOf 16 bw
      let cr ← unsignedOf 8 cr
      return .encMod sf bw cr
    | _ => none
  else if mnemonic = "ENC_PREAMBLE".toList then
    (oneOf toks).bind fun v => (unsignedOf 16 v).map .encPreamble
  else if mnemonic = "ENC_SYNC".toList then (oneOf toks).bind fun v => (unsignedOf 8 v).map .encSync
  else if mnemonic = "DEC_RSSI".toList then (oneOf toks).bind fun v => (unsignedOf 8 v).map .decRssi
  else if mnemonic = "DEC_PAYLOAD".toList then (frameOf toks).map .decPayload
  else none

/-- A line: an optional client port `c<n>:`, then one command (R92). -/
def parseLine (p : Profile) (line : List Char) : Option (Option Nat × Instr) :=
  match lexLine line with
  | some (.word ('c' :: n) :: .sign ':' :: .word mnemonic :: toks) =>
    (natOf n).bind fun port => (commandOf p mnemonic toks).map fun i => (some port, i)
  | some (.word mnemonic :: toks) => (commandOf p mnemonic toks).map fun i => (none, i)
  | _ => none

/-- The frame a line assembles to (R73, R92). -/
def assembleLine (p : Profile) (line : String) : Option Frame :=
  (parseLine p line.toList).map fun l => encode p l.2

/-! ### Pseudo-instructions -/

/-- The pseudo-instructions of R93. `reinit` carries the RadioConfig the client keeps, that of its last
`INIT` that completed OK (`KeptConfigs.forReinit`). -/
inductive Pseudo where
  | scanStep (freq : Word)
  | listen (freq : Word) (dwell : Word)
  | setPolicy (strip zero : Bool)
  | setTiming (lo hi settle poll : Word)
  | reinit (kept : RadioConfig)
deriving DecidableEq, Repr

/-- The commands of a pseudo-instruction, each submitted after the previous one's response (R93). -/
def Pseudo.expand : Pseudo → List Instr
  | .scanStep freq => [.setFreq freq, .readRssi]
  | .listen freq dwell => [.setFreq freq, .receive dwell]
  | .setPolicy strip zero =>
    [.writeCtrl 0#8 (((if zero then 1#32 else 0#32) <<< 1) ||| (if strip then 1#32 else 0#32))]
  | .setTiming lo hi settle poll =>
    [.writeCtrl 1#8 lo, .writeCtrl 2#8 hi, .writeCtrl 3#8 settle, .writeCtrl 4#8 poll]
  | .reinit kept => [.init kept]

end Sys2Proof.Machine
end

