-- ==== Sys2Proof/Machine/HostAgents.lean ====
section
/-! DEFINITION. The host model (R236 to R250): the transmit task, the receive task, the controller with
its `stop()`, and the frequency scanner, each as a function from the response it waited for to its next
action. They are host software outside the LMC and outside `State` (R6, R236; log entry 21).
Machine/HostSystem.lean puts them on their ports around the LMC. -/

namespace Sys2Proof.Machine

/-- A client has `i` as its next command: its frame joins the end of the client's queue (R70, R73). -/
def State.offer (s : State) (c : Nat) (i : Instr) : State :=
  { s with inbox := s.inbox.modify c fun fs => fs ++ [encode s.profile i] }

/-! ### Parameters, queues and responses -/

/-- The host parameters, with the example values of R237 and R239 where the spec gives one; it gives
`heartbeat`, `backoffMs`, `joinMs` and `queueCap` none (R238, R240, R242, R245). -/
structure HostParams where
  heartbeat   : Frame
  txPopMs     : Nat := 1000
  txGapMs     : Nat := 500
  rxTimeoutMs : Word := 100#32
  backoffMs   : Nat
  joinMs      : Nat
  /-- The queue capacity; none is unbounded. -/
  queueCap    : Option Nat
deriving DecidableEq, Repr

/-- The bounds of the host parameters: `HEARTBEAT` is a Frame of 0 to `N` bytes (R238), and `QUEUE_CAP`
is positive or unbounded (R245). -/
def HostParams.wf (p : Profile) (hp : HostParams) : Bool :=
  decide (hp.heartbeat.length ≤ p.fifoDepth ∧ hp.queueCap ≠ some 0)

/-- The three host agents (R236). -/
inductive HostAgent where
  | transmitTask
  | receiveTask
  | controller
deriving DecidableEq, Repr

/-- What the host keeps for `REINIT`: for each client the RadioConfig it last sent in an `INIT` that
completed OK, none before there is one (R93). -/
structure KeptConfigs where
  transmitTask : Option RadioConfig := none
  receiveTask  : Option RadioConfig := none
  controller   : Option RadioConfig := none
deriving DecidableEq, Repr

/-- The configuration an agent's own `INIT`s left. -/
def KeptConfigs.own (k : KeptConfigs) : HostAgent → Option RadioConfig
  | .transmitTask => k.transmitTask
  | .receiveTask => k.receiveTask
  | .controller => k.controller

/-- An `INIT` of agent `a` with `cfg` completed OK (R93). -/
def KeptConfigs.keep (k : KeptConfigs) (a : HostAgent) (cfg : RadioConfig) : KeptConfigs :=
  match a with
  | .transmitTask => { k with transmitTask := some cfg }
  | .receiveTask => { k with receiveTask := some cfg }
  | .controller => { k with controller := some cfg }

/-- The host's shared state: the two queues, `stop_flag`, and the configurations kept for `REINIT`. -/
structure HostSide where
  outbound : List Frame
  inbound  : List Frame
  stopFlag : Bool
  kept     : KeptConfigs
deriving DecidableEq, Repr

/-- Whether a queue has room; a push to a full queue waits (R245). -/
def hasRoom (cap : Option Nat) (queue : List Frame) : Bool :=
  match cap with
  | none => true
  | some n => decide (queue.length < n)

/-- The caller's push to the outbound queue; none while the queue is full and the caller waits (R245). -/
def HostSide.pushOutbound (hp : HostParams) (h : HostSide) (f : Frame) : Option HostSide :=
  if hasRoom hp.queueCap h.outbound then some { h with outbound := h.outbound ++ [f] } else none

/-- The receive task's push to the inbound queue; none while the queue is full and the task waits
(R245). -/
def HostSide.pushInbound (hp : HostParams) (h : HostSide) (f : Frame) : Option HostSide :=
  if hasRoom hp.queueCap h.inbound then some { h with inbound := h.inbound ++ [f] } else none

/-- The caller's take from the inbound queue: the oldest Frame; none while the queue is empty (R245). -/
def HostSide.takeInbound (h : HostSide) : Option (Frame × HostSide) :=
  match h.inbound with
  | [] => none
  | f :: rest => some (f, { h with inbound := rest })

/-- The status byte of a response frame (R84). -/
def statusOf (resp : Frame) : Byte := resp.headD 0xFF#8

/-- Whether the response has status `st`. -/
def hasStatus (resp : Frame) (st : Status) : Bool := statusOf resp == st.code

/-- The Frame of a `RECEIVE` response with `FRAME_PRESENT = 1`; none otherwise (R43, R86). -/
def receivedFrame (resp : Frame) : Option Frame :=
  match resp with
  | st :: flags :: len :: data =>
    if st = Status.ok.code ∧ flags.getLsbD 0 = true then some (data.take len.toNat) else none
  | _ => none

/-- The signal strength of a `READ_RSSI` response with status `OK`, the s16 in dBm (R86, R250). -/
def receivedRssi (resp : Frame) : Option Half :=
  match resp with
  | [st, hi, lo, _raw] =>
    if st = Status.ok.code then some (BitVec.ofNat 16 (fromBe [hi, lo])) else none
  | _ => none

/-- The host after the response to agent `a`'s `INIT` with `cfg`: one that completed OK is kept for that
agent's `REINIT` (R93). -/
def HostSide.afterInit (h : HostSide) (a : HostAgent) (cfg : RadioConfig) (resp : Frame) : HostSide :=
  if hasStatus resp .ok then { h with kept := h.kept.keep a cfg } else h

/-- The configuration agent `a`'s `REINIT` sends: the one it last sent itself in an `INIT` that completed
OK (R93). For a task that has none of its own the spec names no configuration: it sends the controller's,
DESIGN CHOICE (log entry 28). -/
def KeptConfigs.forReinit (k : KeptConfigs) (a : HostAgent) : Option RadioConfig :=
  (k.own a).or k.controller

/-- The configuration agent `a` re-initializes with when that is `wanted` after an error; none while
`stop_flag` is 1 (R241, R249), and none while there is no configuration to send (log entry 28). -/
def HostSide.recovery (h : HostSide) (a : HostAgent) (wanted : Bool) : Option RadioConfig :=
  if wanted && !h.stopFlag then h.kept.forReinit a else none

/-! ### What a task does next -/

/-- One action of an agent: submit a command and wait for its response, sleep a number of milliseconds,
take the next outbound Frame waiting at most so long, push a Frame to the inbound queue, wait at most so
long for both task loops to end, wait for the caller, or end. -/
inductive TaskAction where
  | submit (i : Instr)
  | sleep (ms : Nat)
  | popOutbound (ms : Nat)
  | pushInbound (f : Frame)
  | join (ms : Nat)
  | awaitCaller
  | finished
deriving DecidableEq, Repr

/-- Where the transmit task is in its loop. -/
inductive TxPos where
  /-- At the head of the loop, where `stop_flag` is read; then the queue wait. -/
  | loop
  /-- `TRANSMIT` comes next, with the popped Frame or the heartbeat. -/
  | sending (f : Option Frame)
  /-- The backoff after an error comes next (R240); the flag says whether `REINIT` follows (R241). -/
  | backoff (reinit : Bool)
  /-- `REINIT` comes next (R241). -/
  | reinit (cfg : RadioConfig)
  /-- The gap comes next (R237). -/
  | gap
deriving DecidableEq, Repr

/-- Where the receive task is in its loop. -/
inductive RxPos where
  /-- At the head of the loop, where `stop_flag` is read; then `RECEIVE`. -/
  | loop
  /-- A received Frame is pushed next. -/
  | pushing (f : Frame)
  /-- The backoff after an error comes next (R240); the flag says whether `REINIT` follows (R241). -/
  | backoff (reinit : Bool)
  /-- `REINIT` comes next (R241). -/
  | reinit (cfg : RadioConfig)
deriving DecidableEq, Repr

/-- The statuses after which `on_error` submits `REINIT`, when the host is not stopping (R241). -/
def needsReinit (resp : Frame) : Bool := hasStatus resp .transportError || hasStatus resp .invalidState

/-! ### The transmit task -/

/-- The transmit task's next action at a position (R237, R240, R241). `stop_flag` is read at the loop head
in the step that ends the queue wait: the spec gives host steps no size, DESIGN CHOICE (log entry 31). -/
def txAction (hp : HostParams) (h : HostSide) (pos : TxPos) : TaskAction :=
  match pos with
  | .loop => if h.stopFlag then .finished else .popOutbound hp.txPopMs
  | .sending f => .submit (.transmit (f.getD hp.heartbeat))
  | .backoff _ => .sleep hp.backoffMs
  | .reinit cfg => .submit (.init cfg)
  | .gap => .sleep hp.txGapMs

/-- The transmit task's position and the host after the action at a position is over; `resp` is the
response when the action was a submission. The gap also follows a failed transmit (R237, R240, R241).
`on_error` reads `stop_flag` in the step that ends the backoff, one step before the submission of `REINIT`,
DESIGN CHOICE (log entry 31). -/
def txAfter (h : HostSide) (pos : TxPos) (resp : Frame) : TxPos × HostSide :=
  match pos with
  | .loop => (.sending h.outbound.head?, { h with outbound := h.outbound.tail })
  | .sending _ => (if hasStatus resp .ok then .gap else .backoff (needsReinit resp), h)
  | .backoff reinit => (((h.recovery .transmitTask reinit).map TxPos.reinit).getD .gap, h)
  | .reinit cfg => (.gap, h.afterInit .transmitTask cfg resp)
  | .gap => (.loop, h)

/-! ### The receive task -/

/-- The receive task's next action at a position (R239, R240, R241). `stop_flag` is read at the loop head
in the step that submits `RECEIVE`, DESIGN CHOICE (log entry 31). -/
def rxAction (hp : HostParams) (h : HostSide) (pos : RxPos) : TaskAction :=
  match pos with
  | .loop => if h.stopFlag then .finished else .submit (.receive hp.rxTimeoutMs)
  | .pushing f => .pushInbound f
  | .backoff _ => .sleep hp.backoffMs
  | .reinit cfg => .submit (.init cfg)

/-- The Frame a `RECEIVE` response pushes to the inbound queue: one with `FRAME_PRESENT` that is not
empty (R239). -/
def pushedFrame (resp : Frame) : Option Frame := (receivedFrame resp).filter fun f => f ≠ []

/-- The receive task's position and the host after the action at a position is over; a push that finds
the queue full stays where it is (R239, R240, R241, R245). `on_error` reads `stop_flag` in the step that
ends the backoff, DESIGN CHOICE (log entry 31). -/
def rxAfter (hp : HostParams) (h : HostSide) (pos : RxPos) (resp : Frame) : RxPos × HostSide :=
  match pos with
  | .loop =>
    match pushedFrame resp with
    | some f => (.pushing f, h)
    | none =>
      if hasStatus resp .ok || hasStatus resp .cancelled then (.loop, h)
      else (.backoff (needsReinit resp), h)
  | .pushing f =>
    match h.pushInbound hp f with
    | some h' => (.loop, h')
    | none => (.pushing f, h)
  | .backoff reinit => (((h.recovery .receiveTask reinit).map RxPos.reinit).getD .loop, h)
  | .reinit cfg => (.loop, h.afterInit .receiveTask cfg resp)

/-! ### The frequency scanner -/

/-- `ceil(FSTEP)` in Hz (R246). -/
def minStep (p : Profile) : Nat := (p.fXtal + (2 ^ p.fShift - 1)) / 2 ^ p.fShift

/-- The scan's argument check (R246). -/
def scanOk (p : Profile) (first last step : Nat) : Bool :=
  decide (minStep p ≤ step ∧ p.fMin ≤ first ∧ first ≤ last ∧ last ≤ p.fMax)

/-- The scan frequency sequence, none when the arguments are refused (R246). -/
def scanSequence (p : Profile) (first last step : Nat) : Option (List Nat) :=
  if scanOk p first last step then
    some ((List.range ((last - first) / step + 1)).map fun i => first + i * step)
  else none

/-- ScanResult: u32 Hz, s16 dBm or none, and a Frame or none (R250). -/
structure ScanResult where
  frequency : Word
  strength  : Option Half
  packet    : Option Frame
deriving DecidableEq, Repr

/-- The result of a step that failed (R249). -/
def ScanResult.empty (f : Word) : ScanResult := { frequency := f, strength := none, packet := none }

/-- The scanner's mode: (a) one signal-strength reading, (b) a bounded listen (R247). -/
inductive ScanMode where
  | signal
  | listen (dwell : Word)
deriving DecidableEq, Repr

/-- The caller's arguments of a scan (R246, R247); `FIRST_HIT` is false unless the caller sets it
(R248). -/
structure ScanArgs where
  first    : Nat
  last     : Nat
  step     : Nat
  mode     : ScanMode
  firstHit : Bool := false
deriving DecidableEq, Repr

/-- Where the scanner is in its step for the current frequency. -/
inductive ScanPos where
  /-- The caller has not yet asked for the next result (R250). -/
  | ask
  /-- `SET_FREQ` comes next. -/
  | tune
  /-- `READ_RSSI` or `RECEIVE` comes next. -/
  | measure
  /-- The backoff before `REINIT` comes next (90_conflicts.md C3). -/
  | backoff
  /-- `REINIT` comes next (R249). -/
  | recover (cfg : RadioConfig)
deriving DecidableEq, Repr

/-- The scanner: the frequencies still to visit, the current one first (R246 to R250). -/
structure Scanner where
  todo     : List Word
  mode     : ScanMode
  firstHit : Bool
  pos      : ScanPos
deriving DecidableEq, Repr

/-- The start of a scan: `InvalidParameter` to the caller when a check of R246 fails, before any
command; otherwise a scanner that visits the sequence of R246. No other definition builds a scanner. -/
def startScan (p : Profile) (a : ScanArgs) : Except Status Scanner :=
  match scanSequence p a.first a.last a.step with
  | none => .error .invalidParameter
  | some l =>
    .ok { todo := l.map (BitVec.ofNat 32), mode := a.mode, firstHit := a.firstHit, pos := .ask }

/-- The caller asks for the next result: only then may the commands of the next frequency be issued
(R250). None when the scanner is not waiting to be asked. -/
def Scanner.ask (h : HostSide) (sc : Scanner) : Option Scanner :=
  if sc.pos = .ask ∧ sc.todo ≠ [] ∧ h.stopFlag = false then some { sc with pos := .tune } else none

/-- The command that measures at the current frequency (R247). -/
def ScanMode.command : ScanMode → Instr
  | .signal => .readRssi
  | .listen dwell => .receive dwell

/-- The scanner's next action; the scan is over when no frequency is left or the host's `stop_flag` is
1 (R247, R249). When the flag is read, and that the backoff stands only before `REINIT`, are DESIGN
CHOICE (log entry 29). -/
def Scanner.action (hp : HostParams) (h : HostSide) (sc : Scanner) : TaskAction :=
  match sc.pos, sc.todo with
  | .backoff, _ => .sleep hp.backoffMs
  | .recover cfg, _ => .submit (.init cfg)
  | _, [] => .finished
  | .ask, _ :: _ => if h.stopFlag then .finished else .awaitCaller
  | .tune, f :: _ => .submit (.setFreq f)
  | .measure, _ :: _ => .submit sc.mode.command

/-- Whether `recover` submits `REINIT` after a status (R249). -/
def needsRecovery (resp : Frame) : Bool := needsReinit resp || hasStatus resp .deviceNotFound

/-- The scanner after a failed command of its step: on to the next frequency, after backoff and `REINIT`
if the status asks for it (R249, 90_conflicts.md C3). -/
def Scanner.afterError (sc : Scanner) (resp : Frame) : Scanner :=
  { sc with todo := sc.todo.tail, pos := if needsRecovery resp then .backoff else .ask }

/-- What the response to the measuring command tells (R247). -/
def ScanMode.result (m : ScanMode) (f : Word) (resp : Frame) : ScanResult :=
  match m with
  | .signal => { frequency := f, strength := receivedRssi resp, packet := none }
  | .listen _ => { frequency := f, strength := none, packet := receivedFrame resp }

/-- The scanner after a step that yielded `r`: on to the next frequency, or the end on a first hit
(R248). -/
def Scanner.afterResult (sc : Scanner) (r : ScanResult) : Scanner :=
  { sc with todo := if r.packet.isSome && sc.firstHit then [] else sc.todo.tail, pos := .ask }

/-- The scanner and the host after the scanner's action is over, with the ScanResult the step yields;
`resp` is the response when the action was a submission (R247, R248, R249). -/
def Scanner.after (h : HostSide) (sc : Scanner) (resp : Frame) :
    Scanner × HostSide × Option ScanResult :=
  match sc.pos, sc.todo with
  | .backoff, _ =>
    ({ sc with pos := ((h.recovery .controller true).map ScanPos.recover).getD .ask }, h, none)
  | .recover cfg, _ => ({ sc with pos := .ask }, h.afterInit .controller cfg resp, none)
  | .tune, f :: _ =>
    if hasStatus resp .ok then ({ sc with pos := .measure }, h, none)
    else (sc.afterError resp, h, some (.empty f))
  | .measure, f :: _ =>
    if hasStatus resp .ok then
      (sc.afterResult (sc.mode.result f resp), h, some (sc.mode.result f resp))
    else (sc.afterError resp, h, some (.empty f))
  | _, _ => (sc, h, none)

/-! ### The controller -/

/-- What the caller has the controller do: configuration, `DETECT`, a scan, `stop()` (R236).
Configuration is read as steps 1 and 2 of R263, `SET_TIMING`, `SET_POLICY` and the configuring `INIT`:
R236 does not say what it covers, DESIGN CHOICE (log entry 32). -/
inductive Job where
  | setTiming (lo hi settle poll : Word)
  | setPolicy (strip zero : Bool)
  | configure (cfg : RadioConfig)
  | detect
  | scan (args : ScanArgs)
  | stop
deriving DecidableEq, Repr

/-- What the controller tells its caller: the responses to the writes of the control file, the response to
the configuring `INIT` or to `DETECT`, a scan that was refused, one ScanResult, the end of a scan, or the end of `stop()` with whether both task loops
had ended within the bound. -/
inductive Report where
  | written (resps : List Frame)
  | configured (resp : Frame)
  | detected (resp : Frame)
  | scanRefused (st : Status)
  | scanned (r : ScanResult)
  | scanEnded
  | stopped (joined : Bool)
deriving DecidableEq, Repr

/-- Whether the host's exit code is non-zero after a report: after a `DETECT` that ends in
`DEVICE_NOT_FOUND` or `TRANSPORT_ERROR`, and after a configuring `INIT` that does not end OK (R244). That
a `DETECT` ending in `INVALID_STATE`, a scan refused with `InvalidParameter` and a refused write of the
control file exit 0 is DESIGN CHOICE, because R244 names none of them (log entry 30). -/
def Report.exitsNonZero : Report → Bool
  | .configured resp => !hasStatus resp .ok
  | .detected resp => hasStatus resp .deviceNotFound || hasStatus resp .transportError
  | _ => false

/-- Where the controller is. -/
inductive CtlPos where
  | idle
  /-- `next` comes next and then `rest`; `resps` are the responses so far (R93). -/
  | writing (next : Instr) (rest : List Instr) (resps : List Frame)
  | configuring (cfg : RadioConfig)
  | detecting
  | scanning (sc : Scanner)
  /-- `STOP` comes next, the second line of `stop()` (R242). -/
  | stopping
  /-- The bounded wait for the two loops comes next, the third line of `stop()` (R242). -/
  | joining
deriving DecidableEq, Repr

/-- The commands of a pseudo-instruction in turn (R93). -/
def Pseudo.begin (ps : Pseudo) : CtlPos :=
  match ps.expand with
  | [] => .idle
  | i :: rest => .writing i rest []

/-- The start of a job; a refused scan is reported without any command (R246). -/
def Job.start (p : Profile) : Job → CtlPos × Option Report
  | .setTiming lo hi settle poll => ((Pseudo.setTiming lo hi settle poll).begin, none)
  | .setPolicy strip zero => ((Pseudo.setPolicy strip zero).begin, none)
  | .configure cfg => (.configuring cfg, none)
  | .detect => (.detecting, none)
  | .scan args =>
    match startScan p args with
    | .ok sc => (.scanning sc, none)
    | .error st => (.idle, some (.scanRefused st))
  | .stop => (.stopping, none)

/-- The caller's request: for `stop()` the host flag is set at once, its first line, also while the
controller is still busy with an earlier job (R242; log entry 29). No definition clears the flag: the spec
does not say whether the tasks or a scan may run again after `stop()`, DESIGN CHOICE (log entry 33). -/
def HostSide.afterCall (h : HostSide) (j : Job) : HostSide :=
  { h with stopFlag := h.stopFlag || decide (j = .stop) }

/-- The controller's next action (R236, R242, R247). -/
def ctlAction (hp : HostParams) (h : HostSide) : CtlPos → TaskAction
  | .idle => .awaitCaller
  | .writing i _ _ => .submit i
  | .configuring cfg => .submit (.init cfg)
  | .detecting => .submit .detect
  | .scanning sc => sc.action hp h
  | .stopping => .submit .stop
  | .joining => .join hp.joinMs

/-- The controller's position and the host after its action is over, with what the caller is told;
`ended` says whether both task loops have ended (R236, R242, R247). -/
def ctlAfter (h : HostSide) (ended : Bool) (pos : CtlPos) (resp : Frame) :
    CtlPos × HostSide × Option Report :=
  match pos with
  | .idle => (.idle, h, none)
  | .writing _ [] resps => (.idle, h, some (.written (resps ++ [resp])))
  | .writing _ (i :: rest) resps => (.writing i rest (resps ++ [resp]), h, none)
  | .configuring cfg => (.idle, h.afterInit .controller cfg resp, some (.configured resp))
  | .detecting => (.idle, h, some (.detected resp))
  | .scanning sc =>
    (.scanning (sc.after h resp).1, (sc.after h resp).2.1, (sc.after h resp).2.2.map .scanned)
  | .stopping => (.joining, h, none)
  | .joining => (.idle, h, some (.stopped ended))

end Sys2Proof.Machine
end

