-- ==== Sys2Proof/Machine/HostSystem.lean ====
section
/-! DEFINITION. The host model around the LMC (R236): the three host agents on their ports, the caller,
and the LMC, each moving on its own. Which of the enabled moves comes next is open, and so is how long a
host wait lasts (log entry 29). A client's submission step (R191) is a move of the agent that submits, so
it can fall between any two steps of a running command; a step of the LMC itself is a move of its own. -/

namespace Sys2Proof.Machine

/-! ### The port assignment of P0 (R236) -/

/-- The transmit task's port. -/
def txPort : Nat := 0

/-- The receive task's port. -/
def rxPort : Nat := 1

/-- The controller's port. -/
def ctlPort : Nat := 2

/-! ### The whole -/

/-- A host agent: its position, and while it waits for a response the length the history had just before
its command was submitted. -/
structure Agent (α : Type) where
  pos  : α
  mark : Option Nat
deriving DecidableEq, Repr

/-- The LMC with its host. -/
structure HostSystem where
  lmc    : State
  params : HostParams
  side   : HostSide
  tx     : Agent TxPos
  rx     : Agent RxPos
  ctl    : Agent CtlPos
  /-- The caller's requests the controller has not begun, oldest first. -/
  jobs   : List Job
  /-- What the caller has been told and has not taken yet; nothing is kept after that (R250). -/
  report : Option Report
deriving DecidableEq, Repr

/-- The LMC after reset with the host about to begin; none when a host parameter is outside its bounds
(R238, R245) or the profile has too few ports for the three agents (R236). The tasks may move from the
start: whether the caller keeps to the order of R263 is the caller's (log entry 32). -/
def HostSystem.start (p : Profile) (hp : HostParams) : Option HostSystem :=
  if hp.wf p ∧ ctlPort < p.ports then
    some { lmc := State.resetOf p, params := hp
           side := { outbound := [], inbound := [], stopFlag := false, kept := {} }
           tx := { pos := .loop, mark := none }, rx := { pos := .loop, mark := none }
           ctl := { pos := .idle, mark := none }, jobs := [], report := none }
  else none

/-! ### How an agent moves -/

/-- The environment's next choice of a step of the LMC (log entry 3). -/
def State.choosing (s : State) (m : Move) : State := { s with sched := m :: s.sched }

/-- Client `c`'s submission step with the command `i` (R191), at once and whether or not another
command runs: so `STOP` sets `stop_req` in the step of `stop()` that submits it (R170, R242). -/
def State.submitNow (s : State) (c : Nat) (i : Instr) : Option State :=
  match step ((s.offer c i).choosing (.submit c)) with
  | .next t => some t
  | .fault _ => none
  | .refused _ => none

/-- The response on port `c` among the events after the first `mark`. -/
def State.responseSince (s : State) (c mark : Nat) : Option Frame :=
  (s.hist.drop mark).findSome? fun e =>
    match e with
    | .resp d f => if d = c then some f else none
    | _ => none

/-- What an agent's step does: nothing yet, nothing any more, submit a command on its port, or see its
action over, with the response when it was a submission. -/
inductive Progress where
  | waits
  | ended
  | submits (i : Instr)
  | over (resp : Frame)
deriving DecidableEq, Repr

/-- An agent that has submitted waits for its own response before anything else (R190, R236); a host
wait is over whenever the agent's step is taken (log entry 29). -/
def progress (s : State) (c : Nat) (mark : Option Nat) (a : TaskAction) : Progress :=
  match mark with
  | some m =>
    match s.responseSince c m with
    | some resp => .over resp
    | none => .waits
  | none =>
    match a with
    | .submit i => .submits i
    | .awaitCaller => .waits
    | .finished => .ended
    | .sleep _ => .over []
    | .popOutbound _ => .over []
    | .pushInbound _ => .over []
    | .join _ => .over []

/-- The transmit task's next action. -/
def HostSystem.txNext (h : HostSystem) : TaskAction := txAction h.params h.side h.tx.pos

/-- The receive task's next action. -/
def HostSystem.rxNext (h : HostSystem) : TaskAction := rxAction h.params h.side h.rx.pos

/-- A step of the transmit task, on port 0 (R237). The loop head's read of `stop_flag` and the end of the
queue wait are one step (log entry 31). -/
def HostSystem.txStep (h : HostSystem) : Option HostSystem :=
  match progress h.lmc txPort h.tx.mark h.txNext with
  | .waits => none
  | .ended => none
  | .submits i =>
    (h.lmc.submitNow txPort i).map fun s =>
      { h with lmc := s, tx := { h.tx with mark := some h.lmc.hist.length } }
  | .over resp =>
    some { h with tx := { pos := (txAfter h.side h.tx.pos resp).1, mark := none }
                  side := (txAfter h.side h.tx.pos resp).2 }

/-- A step of the receive task, on port 1 (R239). The loop head's read of `stop_flag` and the submission
of `RECEIVE` are one step (log entry 31). -/
def HostSystem.rxStep (h : HostSystem) : Option HostSystem :=
  match progress h.lmc rxPort h.rx.mark h.rxNext with
  | .waits => none
  | .ended => none
  | .submits i =>
    (h.lmc.submitNow rxPort i).map fun s =>
      { h with lmc := s, rx := { h.rx with mark := some h.lmc.hist.length } }
  | .over resp =>
    some { h with rx := { pos := (rxAfter h.params h.side h.rx.pos resp).1, mark := none }
                  side := (rxAfter h.params h.side h.rx.pos resp).2 }

/-- Whether both task loops have ended, which `join` waits for (R242). -/
def HostSystem.tasksEnded (h : HostSystem) : Bool :=
  progress h.lmc txPort h.tx.mark h.txNext == .ended &&
    progress h.lmc rxPort h.rx.mark h.rxNext == .ended

/-- The controller begins its next job when it is idle and its caller has taken the last report. -/
def HostSystem.nextJob (h : HostSystem) : Option HostSystem :=
  match h.ctl.pos, h.report, h.jobs with
  | .idle, none, j :: rest =>
    some { h with jobs := rest, ctl := { pos := (j.start h.lmc.profile).1, mark := none }
                  report := (j.start h.lmc.profile).2 }
  | _, _, _ => none

/-- A step of the controller, on port 2 (R236). A scan that is over is reported once its last result has
been taken. -/
def HostSystem.ctlStep (h : HostSystem) : Option HostSystem :=
  match progress h.lmc ctlPort h.ctl.mark (ctlAction h.params h.side h.ctl.pos) with
  | .waits => h.nextJob
  | .ended =>
    if h.report = none then
      some { h with ctl := { pos := .idle, mark := none }, report := some .scanEnded }
    else none
  | .submits i =>
    (h.lmc.submitNow ctlPort i).map fun s =>
      { h with lmc := s, ctl := { h.ctl with mark := some h.lmc.hist.length } }
  | .over resp =>
    some { h with ctl := { pos := (ctlAfter h.side h.tasksEnded h.ctl.pos resp).1, mark := none }
                  side := (ctlAfter h.side h.tasksEnded h.ctl.pos resp).2.1
                  report := (ctlAfter h.side h.tasksEnded h.ctl.pos resp).2.2.or h.report }

/-! ### The caller -/

/-- The caller asks a running scan for its next result, once it has taken the last one (R250). -/
def HostSystem.askResult (h : HostSystem) : Option HostSystem :=
  match h.ctl.pos, h.report with
  | .scanning sc, none =>
    (sc.ask h.side).map fun sc' => { h with ctl := { h.ctl with pos := .scanning sc' } }
  | _, _ => none

/-- One move of the host model: a step of the LMC, of the environment, of a host agent, or of the
caller. -/
inductive HostMove where
  /-- A grant or the owner's next primitive; `pick` is read only by a grant under `ANY` (R194, R196). -/
  | lmc (pick : Nat)
  /-- The environment settles the next of its answers still open (R57). -/
  | answer (r : Answer)
  | transmitTask
  | receiveTask
  | controller
  /-- The caller gives the controller a job. -/
  | call (j : Job)
  /-- The caller pushes a Frame to the outbound queue. -/
  | push (f : Frame)
  /-- The caller takes the oldest Frame of the inbound queue. -/
  | take
  /-- The caller asks the scanner for its next result. -/
  | ask
  /-- The caller takes the controller's report. -/
  | takeReport
deriving DecidableEq, Repr

/-- A move of the host model; none where it is not enabled. Host steps are separate from LMC steps
(R236), but for the submission step of R191, which is the client's. -/
def hostStep (m : HostMove) (h : HostSystem) : Option HostSystem :=
  match m with
  | .lmc pick =>
    match step (h.lmc.choosing (.run pick)) with
    | .next s => some { h with lmc := s }
    | .fault _ => none
    | .refused _ => none
  | .answer r => some { h with lmc := { h.lmc with answers := h.lmc.answers ++ [r] } }
  | .transmitTask => h.txStep
  | .receiveTask => h.rxStep
  | .controller => h.ctlStep
  | .call j => some { h with jobs := h.jobs ++ [j], side := h.side.afterCall j }
  | .push f => (h.side.pushOutbound h.params f).map fun side => { h with side := side }
  | .take => h.side.takeInbound.map fun r => { h with side := r.2 }
  | .ask => h.askResult
  | .takeReport => if h.report = none then none else some { h with report := none }

end Sys2Proof.Machine
end

