-- ==== Sys2Proof/Safety.lean ====
section
/-! DEFINITION. What counts as a well-behaved state and history of the LMC: the invariants of R48 and
R204 with what makes them inductive, the lock discipline of the history (R198, R199), the transition
table of TransceiverState (R24) and the table of transactions (R60); and the vocabulary the claims
about single commands are stated in. -/

namespace Sys2Proof.Machine

/-! ### Events and the lock discipline -/

/-- The events only the owner's command issues (R198). -/
def Event.isOwners : Event → Bool
  | .openBus _ _ _ => true
  | .setClock _ _ => true
  | .close => true
  | .xfer _ _ => true
  | .pinMode => true
  | .pinWrite _ => true
  | .pinCleanup => true
  | .wait _ _ => true
  | .submit _ _ => false
  | .grant _ => false
  | .resp _ _ => false

/-- The events R202 excludes after `STOP`: `Open`, `SetClock`, `Xfer` and the pin events. -/
def Event.touchesRadio : Event → Bool
  | .openBus _ _ _ => true
  | .setClock _ _ => true
  | .close => false
  | .xfer _ _ => true
  | .pinMode => true
  | .pinWrite _ => true
  | .pinCleanup => true
  | .wait _ _ => false
  | .submit _ _ => false
  | .grant _ => false
  | .resp _ _ => false

/-- Whether an event is an SPI transaction. -/
def Event.isXfer : Event → Bool
  | .xfer _ _ => true
  | _ => false

/-- Who holds the lock after an event, given who held it before; none when the discipline is broken:
a grant while the lock is held, an owner's event while it is free, or a submission by the holder
(R190, R194, R198). -/
def lockStep (holder : Option Nat) (e : Event) : Option (Option Nat) :=
  match e, holder with
  | .grant c, none => some (some c)
  | .grant _, some _ => none
  | .resp c _, some h => if c = h then some none else some (some h)
  | .resp _ _, none => some none
  | .submit c _, some h => if c = h then none else some (some h)
  | .submit _ _, none => some none
  | e, none => if e.isOwners then none else some none
  | _, some h => some (some h)

/-- The holder of the lock after a history, none when the discipline was broken on the way. -/
def lockOf (hist : List Event) : Option (Option Nat) :=
  hist.foldl (fun st e => st.bind fun holder => lockStep holder e) (some none)

/-- How many commands client `c` has submitted in a history. -/
def submitCount (c : Nat) (hist : List Event) : Nat :=
  hist.countP fun e => match e with
    | .submit d _ => d == c
    | _ => false

/-- How many responses client `c` has received in a history. -/
def respCount (c : Nat) (hist : List Event) : Nat :=
  hist.countP fun e => match e with
    | .resp d _ => d == c
    | _ => false

/-- The events a step adds to the history. -/
def newEvents (s t : State) : List Event := t.hist.drop s.hist.length

/-! ### The transition table of TransceiverState -/

/-- The rows of R24's table: a step of command `i` that records event `e` may change `tstate` from `a`
to `b`. A pair from a value to itself is no change and has no row. -/
def tstateRow (i : Instr) (a b : TState) (e : Event) : Prop :=
  match i with
  | .init _ =>
    (b = .idle ∧ (a = .uninitialized ∨ a = .error) ∧ ∃ c, e = .resp c [0x00#8]) ∨
    (b = .error ∧ (a = .uninitialized ∨ a = .idle) ∧ ∃ c, e = .resp c [0x01#8])
  | .detect =>
    b = .error ∧ (a = .uninitialized ∨ a = .idle) ∧
      ((∃ c, e = .resp c [0x01#8]) ∨ ∃ c v, e = .resp c [0x04#8, v])
  | .transmit _ =>
    (a = .idle ∧ b = .transmitting ∧ e.isXfer = true) ∨
    (a = .transmitting ∧ b = .idle ∧ ∃ c, e = .resp c [0x00#8]) ∨
    (a = .transmitting ∧ b = .error ∧ ∃ c, e = .resp c [0x01#8])
  | .receive _ =>
    (a = .idle ∧ b = .receiving ∧ e.isXfer = true) ∨
    (a = .receiving ∧ b = .idle ∧ ∃ c st data, e = .resp c (st :: data) ∧
      (st = 0x00#8 ∨ st = 0x05#8)) ∨
    (a = .receiving ∧ b = .error ∧ ∃ c, e = .resp c [0x01#8])
  | .setFreq _ => a = .idle ∧ b = .error ∧ ∃ c, e = .resp c [0x01#8]
  | .readRssi => a = .idle ∧ b = .error ∧ ∃ c, e = .resp c [0x01#8]
  | .stop => a = .idle ∧ b = .uninitialized ∧ ∃ c, e = .resp c [0x00#8]
  | _ => False

/-- Neither `Transmitting` nor `Receiving`. -/
def TState.isQuiet : TState → Bool
  | .transmitting => false
  | .receiving => false
  | _ => true

/-! ### The table of transactions -/

/-- The address byte and the number of data bytes of a write to register `a` (R53, R87). -/
def isWriteTo (a n : Nat) (out : Frame) : Prop :=
  ∃ data : Frame, out = (0x80#8 ||| BitVec.ofNat 8 a) :: data ∧ data.length = n

/-- The address byte and the dummy bytes of a read of `n` bytes at register `a` (R54, R87). -/
def isReadOf (p : Profile) (a n : Nat) (out : Frame) : Prop :=
  out = (BitVec.ofNat 8 a &&& 0x7F#8) :: List.replicate n p.dummy

/-- The rows of R60's table: the transactions each command may issue. -/
def xferRow (p : Profile) (i : Instr) (out : Frame) : Prop :=
  match i with
  | .init _ => isWriteTo p.regFrf p.frfBytes out ∨ isWriteTo p.regPa 1 out ∨
      isWriteTo p.regModem 2 out ∨ isWriteTo p.regPreamble 2 out ∨ isWriteTo p.regSync 1 out
  | .setFreq _ => isWriteTo p.regFrf p.frfBytes out
  | .transmit _ => (∃ n, n ≤ p.fifoDepth ∧ isWriteTo p.regFifo n out) ∨
      out = [0x80#8 ||| BitVec.ofNat 8 p.regOpmode, p.opmodeTx]
  | .receive _ => (p.rxEntry = true ∧ out = [0x80#8 ||| BitVec.ofNat 8 p.regOpmode, p.opmodeRx]) ∨
      isReadOf p p.regFifo p.fifoDepth out
  | .detect => isReadOf p p.regVersion 1 out
  | .readRssi => isReadOf p p.regRssi 1 out
  | _ => False

/-! ### Positions -/

/-- The positions `reset_sequence()` and the writes of `INIT` pass through (R133, R134). -/
def Pos.isPulse : Pos → Bool
  | .pinLow => true
  | .holdLow => true
  | .pinHigh => true
  | .holdHigh => true
  | .cfgWrite _ => true
  | _ => false

/-- Which positions belong to which arbitrated command's pseudocode (R22). -/
def posFits (i : Instr) (pos : Pos) : Bool :=
  match i, pos with
  | .init _, .start => true
  | .init _, .opened => true
  | .init _, .clocked => true
  | .init _, .released => true
  | .init _, pos => pos.isPulse
  | .detect, .start => true
  | .detect, .opened => true
  | .detect, .clocked => true
  | .detect, .released => true
  | .detect, .version => true
  | .transmit _, .start => true
  | .transmit _, .txMode => true
  | .transmit _, .txSettle => true
  | .transmit _, .txDone => true
  | .receive _, .start => true
  | .receive _, .rxEnter => true
  | .receive _, .rxPoll => true
  | .receive _, .rxJudge => true
  | .setFreq _, .start => true
  | .setFreq _, .tuned => true
  | .readRssi, .start => true
  | .readRssi, .rssi => true
  | .stop, .start => true
  | .stop, .stopPin => true
  | .stop, .stopDone => true
  | .writeCtrl _ _, .start => true
  | _, _ => false

/-- `bus_open` while `ensure_open` runs: 0 until the clock set is answered `ok` (R131; the step in which
it becomes 1 is log entry 25). -/
def Opening (s : State) (q : Seq) : Prop :=
  (q.pos = .opened ∨ q.pos = .released → s.busOpen = false) ∧
  (q.pos = .clocked → s.busOpen = q.answer.isOk)

/-- What holds of the state while a command is past its checks. -/
def Midway (s : State) (q : Seq) : Prop :=
  match q.cmd with
  | .init _ => s.stopped = false ∧ s.cfgValid = false ∧ s.tstate.isQuiet = true ∧
      Opening s q ∧
      (q.pos.isPulse = true → s.busOpen = true ∧ s.pinMode = .output)
  | .detect => s.stopped = false ∧ (s.tstate = .uninitialized ∨ s.tstate = .idle) ∧
      Opening s q ∧
      (q.pos = .version → s.busOpen = true)
  | .transmit _ => s.tstate = .transmitting
  | .receive _ => s.tstate = .receiving
  | .setFreq _ => s.tstate = .idle
  | .readRssi => s.tstate = .idle
  | .stop => s.tstate.isQuiet = true ∧ s.busOpen = false ∧
      (q.pos = .stopDone → s.pinMode = .unconfigured)
  | _ => False

/-! ### The invariant -/

/-- The invariant of every reachable state: R48 (with its fifth clause read as log entry 15 says),
R204, R27, R30, R35, and what makes them inductive. -/
structure Inv (s : State) : Prop where
  /-- No submission is half done between two steps. -/
  turn : s.turn = .sequencer
  /-- Every per-port list has one entry per client port (R40, R41). -/
  lengths : s.outstanding.length = s.profile.ports ∧ s.pending.length = s.profile.ports ∧
    s.inbox.length = s.profile.ports
  /-- `rr` is a client id (R40). -/
  rr_lt : s.rr < s.profile.ports
  /-- `seq` is none exactly when `owner` is, and they name the same client (R48). -/
  lock : s.owner = s.seq.map Seq.client
  /-- The owner's port has an outstanding command (R48). -/
  owner_outstanding : ∀ q, s.seq = some q → s.outstanding[q.client]? = some true
  /-- The owner has nothing else pending (R190). -/
  owner_not_pending : ∀ q, s.seq = some q → s.pending[q.client]? = some none
  /-- A client with a pending command has an outstanding one (R48), and it is arbitrated (R191). -/
  pending_outstanding : ∀ (c : Nat) (i : Instr), s.pending[c]? = some (some i) →
    s.outstanding[c]? = some true ∧ i.kind = .arbitrated
  /-- The running command is arbitrated and at a position of its own pseudocode (R22). -/
  pos_fits : ∀ q, s.seq = some q → q.cmd.kind = .arbitrated ∧ posFits q.cmd q.pos = true
  /-- `Transmitting` and `Receiving` hold only past the checks of their own command (R48, R204). -/
  quiet : (∀ q, s.seq = some q → q.pos = .start) → s.tstate.isQuiet = true
  /-- What holds while a command is past its checks. -/
  midway : ∀ q, s.seq = some q → q.pos ≠ .start → Midway s q
  /-- In `Idle`, `Transmitting` and `Receiving` the transport is open, but while `STOP` closes it. -/
  open_in_use : s.tstate ≠ .uninitialized → s.tstate ≠ .error →
    s.busOpen = true ∨ ∃ q, s.seq = some q ∧ q.cmd = .stop
  /-- `Idle` implies `cfg_valid = 1`, but while an `INIT` runs (R48, log entry 15). -/
  idle_cfg : s.tstate ≠ .uninitialized → s.tstate ≠ .error →
    s.cfgValid = true ∨ ∃ q c, s.seq = some q ∧ q.cmd = .init c ∧ q.pos ≠ .start
  /-- After `STOP` the transport is closed and the pin released (R48). -/
  stopped_released : s.stopped = true → s.busOpen = false ∧ s.pinMode = .unconfigured
  /-- A released pin is undriven (R28). -/
  pin_undriven : s.pinMode = .unconfigured → s.pinLevel = .undriven
  /-- Reserved bits of `POLICY` read 0 (R30). -/
  policy_reserved : s.ctrl.policy &&& 0xFFFFFFFC#32 = 0#32
  /-- `T_POLL` is at least 1 (R31, R35). -/
  tPoll_pos : s.ctrl.tPoll ≠ 0#32
  /-- The history keeps the lock discipline and ends with the present owner (R198, R199). -/
  lock_history : lockOf s.hist = some s.owner
  /-- Every submission but the outstanding one has been answered (R64, R190). -/
  answered : ∀ c, submitCount c s.hist =
    respCount c s.hist + (if s.outstanding[c]? = some true then 1 else 0)

/-! ### The vocabulary of the claims about single commands -/

/-- The step is the sequencer's, and it finds client `c`'s command `i` at `pos` with last answer `r`. -/
def Owns (s : State) (c : Nat) (i : Instr) (pos : Pos) (r : Answer) : Prop :=
  s.turn = .sequencer ∧ s.seq = some { client := c, cmd := i, pos := pos, answer := r }

/-- `s` after the running command of client `c` has responded `frame` and the lock is released: the
four fields R194 names, and nothing else. -/
def State.ended (s : State) (c : Nat) (frame : Frame) : State :=
  { s with hist := s.hist ++ [.resp c frame], outstanding := s.outstanding.set c false,
           owner := none, seq := none }

/-- `s` after a submitted command of client `c` has been answered `frame` at once (R191). -/
def State.replied (s : State) (c : Nat) (frame : Frame) : State :=
  { s with hist := s.hist ++ [.resp c frame], outstanding := s.outstanding.set c false,
           turn := .sequencer }

/-- `s` after command `i` of client `c` has recorded event `e` and waits at `pos`; `r` is still the
last answer. -/
def State.performed (s : State) (c : Nat) (i : Instr) (pos : Pos) (r : Answer) (e : Event) : State :=
  { s with hist := s.hist ++ [e], seq := some { client := c, cmd := i, pos := pos, answer := r } }

/-- `s` after command `i` of client `c` has called the transport, the environment has answered `r`,
event `e` is recorded, and the command waits at `pos`. One answer is used up. -/
def State.called (s : State) (c : Nat) (i : Instr) (pos : Pos) (r : Answer) (e : Event) : State :=
  { s with hist := s.hist ++ [e], seq := some { client := c, cmd := i, pos := pos, answer := r },
           answers := s.answers.tail, draws := s.draws + 1 }

/-- `s` after command `i` of client `c` has sent the transaction `out` and waits at `pos`. -/
def State.sent (s : State) (c : Nat) (i : Instr) (pos : Pos) (out : Frame) : State :=
  s.called c i pos (s.nextAnswer out.length) (.xfer out (s.nextAnswer out.length))

/-- The legal states of every arbitrated command (R130, R133 to R143, R171, R173). -/
def legalAtGrant (i : Instr) (s : State) : Prop :=
  match i with
  | .init _ => s.tstate ≠ .transmitting ∧ s.tstate ≠ .receiving
  | .detect => s.stopped = false ∧ (s.tstate = .uninitialized ∨ s.tstate = .idle)
  | .transmit _ => s.tstate = .idle
  | .receive _ => s.tstate = .idle
  | .setFreq _ => s.tstate = .idle
  | .readRssi => s.tstate = .idle
  | _ => True

/-- The accepted operands of every arbitrated command (R217, with R102, R106, R108, R111 and R117). -/
def operandsOk (p : Profile) (i : Instr) : Prop :=
  match i with
  | .init c =>
    (p.fMin ≤ c.freq.toNat ∧ c.freq.toNat ≤ p.fMax) ∧
    (p.pMin ≤ c.power.toInt ∧ c.power.toInt ≤ p.pMax) ∧
    (p.sfMin ≤ c.sf.toNat ∧ c.sf.toNat ≤ p.sfMax) ∧
    (∃ code, (c.bw.toNat, code) ∈ p.bwSet) ∧
    c.cr.toNat ∈ p.crSet ∧
    (c.sf.toNat, c.bw.toNat, c.cr.toNat) ∉ p.comboRefused ∧
    (p.preMin ≤ c.preamble.toNat ∧ c.preamble.toNat ≤ p.preMax)
  | .transmit data => data.length ≤ p.fifoDepth
  | .setFreq freq => p.fMin ≤ freq.toNat ∧ freq.toNat ≤ p.fMax
  | .writeCtrl idx value => idx.toNat ≤ 4 ∧ (idx.toNat = 4 → value ≠ 0#32)
  | _ => True

/-- The bytes of the five configuration writes of `INIT`, in order (R53, R118, R135). -/
def initFrames (p : Profile) (c : RadioConfig) : List Frame :=
  [(0x80#8 ||| BitVec.ofNat 8 p.regFrf) :: be p.frfBytes (c.freq.toNat * 2 ^ p.fShift / p.fXtal),
   [0x80#8 ||| BitVec.ofNat 8 p.regPa, encPower p c.power.toInt],
   (0x80#8 ||| BitVec.ofNat 8 p.regModem) :: encMod p c.sf.toNat c.bw.toNat c.cr.toNat,
   (0x80#8 ||| BitVec.ofNat 8 p.regPreamble) :: be 2 c.preamble.toNat,
   [0x80#8 ||| BitVec.ofNat 8 p.regSync, c.sync]]

/-- The positions at which a command reads the answer of a transport call other than `SetClock`. -/
def readsAnswer (i : Instr) (pos : Pos) : Prop :=
  match i with
  | .init _ => pos = .opened ∨ ∃ n, pos = .cfgWrite (n + 1)
  | .detect => pos = .opened ∨ pos = .version
  | .transmit _ => pos = .txMode ∨ pos = .txSettle
  | .receive _ => pos = .rxEnter ∨ pos = .rxJudge
  | .setFreq _ => pos = .tuned
  | .readRssi => pos = .rssi
  | _ => False

/-- `s` in the state a transport failure of `i` leaves, before the response (R132, R137, R216). -/
def State.failed (s : State) (i : Instr) : State :=
  { s with tstate := .error, devValid := s.devValid && decide (i ≠ .detect) }

/-- The eight codec commands (R100). -/
def isCodec : Instr → Bool
  | .encFreq _ => true
  | .decFreq _ => true
  | .encPower _ => true
  | .encMod _ _ _ => true
  | .encPreamble _ => true
  | .encSync _ => true
  | .decRssi _ => true
  | .decPayload _ => true
  | _ => false

/-- One execution step of the owner (R194); nothing when no command runs. -/
def ownerStep (s : State) : Host.Outcome State Fault Refusal :=
  match s.seq with
  | some q => exec q.cmd s
  | none => .next s

/-- `n` execution steps of the owner with no other step between them. -/
def ownerRun : Nat → State → Host.Outcome State Fault Refusal
  | 0, s => .next s
  | n + 1, s =>
    match ownerStep s with
    | .next t => ownerRun n t
    | .fault r => .fault r
    | .refused r => .refused r

/-- The events of `ensure_open` when the environment answers `ok` (R131). -/
def openEvents (s : State) : List Event :=
  if s.busOpen then []
  else [.openBus s.profile.busId s.profile.devId true, .setClock s.profile.spiHz true]

/-- The events of `reset_sequence` (R134). -/
def pulseEvents (s : State) : List Event :=
  (if s.pinMode = .unconfigured then [.pinMode] else []) ++
    [.pinWrite false, .wait .rstLow s.ctrl.tRstLow, .pinWrite true,
      .wait .rstHigh s.ctrl.tRstHigh]

/-- The transactions that send `outs` in turn and are answered `ok` with `ins` in turn. -/
def xferEvents (outs ins : List Frame) : List Event :=
  List.zipWith (fun out b => .xfer out (.ok b)) outs ins

/-- The events of a poll loop that reads `reads`, with one `Wait(POLL, ms)` between two reads (R139). -/
def pollEvents (out : Frame) (ms : Word) : List Frame → List Event
  | [] => []
  | [b] => [.xfer out (.ok b)]
  | b :: b' :: rest => .xfer out (.ok b) :: .wait .poll ms :: pollEvents out ms (b' :: rest)

/-- A FIFO read of `n` data bytes that shows no data: whatever came with the address byte, then zeros. -/
def zeroRead (n : Nat) (b : Frame) : Prop := ∃ x, b = x :: List.replicate n 0#8

end Sys2Proof.Machine
end

