-- ==== Sys2Proof/Certificates/Slice0/Obligations.lean ====
section
/-! DEFINITION. The statements for the provers, one `def Obligations.<Name> : Prop` each, listed in
OBLIGATIONS.json. Statements that name a position of a command's pseudocode rest on log entries 1 and 2;
those that name the schedule rest on log entry 3. No statement rests on a free value. -/

section

open Sys2Proof Sys2Proof.Machine

/-! ### Encoding -/

/-- O1. Every well-formed command frame decodes to the command it encodes (R71 to R76, R91). -/
def Obligations.DecodeEncodeCommands : Prop :=
  ∀ (p : Profile) (i : Instr), i.wf p = true → i.kind ≠ .transaction →
    decodeFrame p (encode p i) = i

/-- O2. Every byte sequence is the encoding of the well-formed instruction term it decodes to, so no byte
of a frame is dropped. For the frames of R73 that is R91 with R71 to R74. That a frame which spells no
command is given back too, because its RESERVED or ILLEGAL term carries its bytes, is the model's choice
(log entry 14, DESIGN CHOICE): R81, R82 and R91 give every such frame the one result Illegal. -/
def Obligations.EncodeDecodeCommands : Prop :=
  ∀ (p : Profile) (f : Frame),
    (decodeFrame p f).wf p = true ∧ (decodeFrame p f).kind ≠ .transaction ∧
      encode p (decodeFrame p f) = f

/-- O3. The SPI frames read back by R87: direction bit, address, and data or dummy bytes. -/
def Obligations.DecodeEncodeSpi : Prop :=
  ∀ (p : Profile) (i : Instr), i.wf p = true → i.kind = .transaction →
    decodeSpi p (encode p i) = some i

/-- O4. Which frames spell no command: the empty frame, a reserved opcode (R81), and an assigned opcode
with a length other than R73's (R82). The two names of an illegal frame are the model's (log entry 14). -/
def Obligations.FramesThatSpellNoCommand : Prop :=
  ∀ (p : Profile),
    decodeFrame p [] = .illegal [] ∧
    (∀ (op : Byte) (rest : Frame),
      (op.toNat = 0x00 ∨ (0x0B ≤ op.toNat ∧ op.toNat ≤ 0x0F) ∨ 0x18 ≤ op.toNat) →
      decodeFrame p (op :: rest) = .reserved op rest) ∧
    (∀ (op : Byte) (rest : Frame) (n : Nat),
      (op.toNat, n) ∈ [(0x01, 14), (0x02, 1), (0x04, 5), (0x05, 5), (0x06, 1), (0x07, 1), (0x08, 1),
        (0x09, 6), (0x0A, 2), (0x10, 5), (0x11, 1 + p.frfBytes), (0x12, 3), (0x13, 5), (0x14, 3),
        (0x15, 2), (0x16, 2)] →
      rest.length + 1 ≠ n → decodeFrame p (op :: rest) = .illegal (op :: rest)) ∧
    (∀ op : Byte, op.toNat = 0x03 ∨ op.toNat = 0x17 →
      decodeFrame p [op] = .illegal [op] ∧
      ∀ (len : Byte) (data : Frame), data.length ≠ len.toNat →
        decodeFrame p (op :: len :: data) = .illegal (op :: len :: data))

/-- O5. Words written out from R71 and R73 decode to what they stand for. -/
def Obligations.WordsDecodeRight : Prop :=
  decodeFrame P0 [0x01#8, 0x19#8, 0xCF#8, 0x0E#8, 0x40#8, 0x00#8, 0x0E#8, 0x07#8, 0x00#8, 0x7D#8,
      0x05#8, 0x12#8, 0x00#8, 0x08#8] =
    .init { freq := 433000000#32, power := 14#16, sf := 7#8, bw := 125#16, cr := 5#8, sync := 0x12#8,
            preamble := 8#16 } ∧
  decodeFrame P0 [0x03#8, 0x02#8, 0x48#8, 0x69#8] = .transmit [0x48#8, 0x69#8] ∧
  decodeFrame P0 [0x04#8, 0x00#8, 0x00#8, 0x00#8, 0x64#8] = .receive 100#32 ∧
  decodeFrame P0 [0x09#8, 0x03#8, 0x00#8, 0x00#8, 0x01#8, 0xF4#8] = .writeCtrl 3#8 500#32 ∧
  decodeFrame P0 [0x11#8, 0x6C#8, 0x40#8, 0x00#8] = .decFreq 0x6C4000 ∧
  decodeFrame P0 [0x12#8, 0xFF#8, 0xF7#8] = .encPower 0xFFF7#16 ∧
  decodeFrame P0 [0x13#8, 0x07#8, 0x00#8, 0x7D#8, 0x05#8] = .encMod 7#8 125#16 5#8 ∧
  decodeFrame P0 [0x07#8, 0x00#8] = .illegal [0x07#8, 0x00#8] ∧
  decodeSpi P0 [0x86#8, 0x6C#8, 0x40#8, 0x00#8] = some (.spiWrite 0x06#7 [0x6C#8, 0x40#8, 0x00#8]) ∧
  decodeSpi P0 [0x42#8, 0x00#8] = some (.spiRead 0x42#7 1)

/-- O6. Byte `i` of `be_k(v)` is `(v >> (8*(k-1-i))) mod 256`, and `from_be` reads the value back
(R12, R58). -/
def Obligations.BigEndianBytes : Prop :=
  ∀ (k v : Nat),
    (be k v).length = k ∧
    (∀ i, i < k → (be k v)[i]? = some (BitVec.ofNat 8 (v >>> (8 * (k - 1 - i))))) ∧
    fromBe (be k v) = v % 256 ^ k

/-! ### The step and the decoded instruction -/

/-- O7. A step runs the decoded instruction: a submission runs the command the submitted frame decodes
to, a step of the sequencer runs the owner's command, and `withFetchWord` places the word the next step
submits (log entries 3, 10 and 23). -/
def Obligations.StepRunsDecoded : Prop :=
  (∀ (s : State) (c : Nat) (f : Frame) (fs : List Frame) (m : List Move),
    s.sched = .submit c :: m → s.outstanding[c]? = some false → s.inbox[c]? = some (f :: fs) →
    step s = exec (decodeFrame s.profile f)
      { s with sched := m, hist := s.hist ++ [.submit c f],
               outstanding := s.outstanding.set c true, inbox := s.inbox.set c fs,
               turn := .submission c }) ∧
  (∀ (s : State) (pick : Nat) (m : List Move) (q : Seq),
    s.sched = .run pick :: m → s.seq = some q →
    step s = exec q.cmd { s with sched := m, turn := .sequencer }) ∧
  (∀ (s : State) (nbits w : Nat), s.outstanding ≠ [] → s.inbox ≠ [] →
    step (s.withFetchWord nbits w) =
      exec (decodeFrame s.profile (tableFrame s.profile nbits w))
        { s with hist := s.hist ++ [.submit 0 (tableFrame s.profile nbits w)],
                 outstanding := s.outstanding.set 0 true, turn := .submission 0 })

/-! ### The Register Codec -/

/-- O8. `ENC_FREQ` (R101) with the range check of R102. -/
def Obligations.EncFreqResult : Prop :=
  ∀ (s : State) (c : Nat) (freq : Word), s.turn = .submission c →
    (s.profile.fMin ≤ freq.toNat ∧ freq.toNat ≤ s.profile.fMax →
      exec (.encFreq freq) s = .next (s.replied c (0x00#8 ::
        be s.profile.frfBytes (freq.toNat * 2 ^ s.profile.fShift / s.profile.fXtal)))) ∧
    (¬(s.profile.fMin ≤ freq.toNat ∧ freq.toNat ≤ s.profile.fMax) →
      exec (.encFreq freq) s = .next (s.replied c [0x02#8]))

/-- O9. `DEC_FREQ` (R103): the result is the least integer not below `reg * F_XTAL / 2^FSHIFT`. -/
def Obligations.DecFreqResult : Prop :=
  ∀ (s : State) (c reg : Nat), s.turn = .submission c →
    ∃ f : Nat, exec (.decFreq reg) s = .next (s.replied c (0x00#8 :: be 4 f)) ∧
      reg * s.profile.fXtal ≤ f * 2 ^ s.profile.fShift ∧
      ∀ g : Nat, reg * s.profile.fXtal ≤ g * 2 ^ s.profile.fShift → f ≤ g

/-- O10. The round-trip laws of R104 for every profile with `FSTEP > 1` and an encodable `F_MAX` (R9): a
decoded frequency lies within one register step below the encoded one, and re-encoding a decoded register
value gives it back. -/
def Obligations.FrequencyRoundTrip : Prop :=
  ∀ (p : Profile), 2 ^ p.fShift < p.fXtal →
    p.fMax * 2 ^ p.fShift / p.fXtal < 256 ^ p.frfBytes →
    (∀ f : Nat, p.fMin ≤ f ∧ f ≤ p.fMax →
      decFreq p (fromBe (encFreq p f)) ≤ f ∧
      (f - decFreq p (fromBe (encFreq p f))) * 2 ^ p.fShift < p.fXtal ∧
      encFreq p (decFreq p (fromBe (encFreq p f))) = encFreq p f) ∧
    (∀ r : Nat, r < 256 ^ p.frfBytes → p.fMin ≤ decFreq p r ∧ decFreq p r ≤ p.fMax →
      encFreq p (decFreq p r) = be p.frfBytes r)

/-- O11. `ENC_POWER` (R105) with the range check of R106: the byte is congruent to the power modulo
`2^PA_BITS` and below it. -/
def Obligations.EncPowerResult : Prop :=
  ∀ (s : State) (c : Nat) (power : Half), s.turn = .submission c → s.profile.paBits ≤ 8 →
    (s.profile.pMin ≤ power.toInt ∧ power.toInt ≤ s.profile.pMax →
      ∃ pa : Byte, exec (.encPower power) s = .next (s.replied c [0x00#8, pa]) ∧
        (pa.toNat : Int) = power.toInt % 2 ^ s.profile.paBits) ∧
    (¬(s.profile.pMin ≤ power.toInt ∧ power.toInt ≤ s.profile.pMax) →
      exec (.encPower power) s = .next (s.replied c [0x02#8]))

/-- O12. `ENC_MOD` (R107 to R110) under a well-formed profile: the two modem-config bytes by their
fields, and the refusal of an unaccepted triple. -/
def Obligations.EncModResult : Prop :=
  ∀ (s : State) (c : Nat) (sf : Byte) (bw : Half) (cr : Byte),
    s.turn = .submission c → WellFormedProfile s.profile →
    (∀ code : Nat,
      s.profile.sfMin ≤ sf.toNat ∧ sf.toNat ≤ s.profile.sfMax →
      (bw.toNat, code) ∈ s.profile.bwSet →
      cr.toNat ∈ s.profile.crSet → (sf.toNat, bw.toNat, cr.toNat) ∉ s.profile.comboRefused →
      ∃ cfg1 cfg2 : Byte, exec (.encMod sf bw cr) s = .next (s.replied c [0x00#8, cfg1, cfg2]) ∧
        cfg1.toNat = 16 * code + 2 * (cr.toNat - 4) ∧ cfg2.toNat = 16 * sf.toNat) ∧
    (¬((s.profile.sfMin ≤ sf.toNat ∧ sf.toNat ≤ s.profile.sfMax) ∧
        (∃ code, (bw.toNat, code) ∈ s.profile.bwSet) ∧ cr.toNat ∈ s.profile.crSet ∧
        (sf.toNat, bw.toNat, cr.toNat) ∉ s.profile.comboRefused) →
      exec (.encMod sf bw cr) s = .next (s.replied c [0x02#8]))

/-- O13. `ENC_PREAMBLE` (R111) and `ENC_SYNC` (R112). -/
def Obligations.EncPreambleAndSyncResults : Prop :=
  ∀ (s : State) (c : Nat), s.turn = .submission c →
    (∀ n : Half,
      (s.profile.preMin ≤ n.toNat ∧ n.toNat ≤ s.profile.preMax →
        exec (.encPreamble n) s = .next (s.replied c (0x00#8 :: be 2 n.toNat))) ∧
      (¬(s.profile.preMin ≤ n.toNat ∧ n.toNat ≤ s.profile.preMax) →
        exec (.encPreamble n) s = .next (s.replied c [0x02#8]))) ∧
    (∀ w : Byte, exec (.encSync w) s = .next (s.replied c [0x00#8, w]))

/-- O14. `DEC_RSSI` (R113), with `RSSI_MAP` a linear map or a table of the raw byte. -/
def Obligations.DecRssiResult : Prop :=
  ∀ (s : State) (c : Nat) (raw : Byte), s.turn = .submission c →
    (∀ scale offset : Int, s.profile.rssiMap = .linear scale offset →
      exec (.decRssi raw) s = .next (s.replied c (0x00#8 ::
        be 2 ((scale * (raw.toNat : Int) + offset) % 65536).toNat))) ∧
    (∀ (values : List Int) (v : Int), s.profile.rssiMap = .table values →
      values[raw.toNat]? = some v →
      exec (.decRssi raw) s = .next (s.replied c (0x00#8 :: be 2 (v % 65536).toNat)))

/-- O15. `DEC_PAYLOAD` (R114 to R116): what is stripped is exactly the trailing zero bytes, only under
`STRIP`, and the flags say `FRAME_PRESENT` and whether a non-empty input was all zero. -/
def Obligations.DecPayloadResult : Prop :=
  ∀ (s : State) (c : Nat) (raw : Frame), s.turn = .submission c →
    (s.profile.fifoDepth < raw.length →
      exec (.decPayload raw) s = .next (s.replied c [0x02#8])) ∧
    (raw.length ≤ s.profile.fifoDepth →
      ∃ (flags : Byte) (out : Frame),
        exec (.decPayload raw) s =
          .next (s.replied c (0x00#8 :: flags :: BitVec.ofNat 8 out.length :: out)) ∧
        (s.ctrl.policy.getLsbD 0 = false → out = raw) ∧
        (s.ctrl.policy.getLsbD 0 = true →
          (∃ n, raw = out ++ List.replicate n 0x00#8) ∧ out.getLast? ≠ some 0x00#8) ∧
        (raw ≠ [] ∧ (∀ b ∈ raw, b = 0x00#8) → flags = 0x03#8) ∧
        (¬(raw ≠ [] ∧ (∀ b ∈ raw, b = 0x00#8)) → flags = 0x01#8))

/-- O16. A codec command reads nothing but the profile and `POLICY`, writes nothing but what its response
is, and its only error status is `INVALID_PARAMETER` (R100). -/
def Obligations.CodecIsPure : Prop :=
  ∀ (s t : State) (c d : Nat) (i : Instr), isCodec i = true →
    s.turn = .submission c → t.turn = .submission d → s.profile = t.profile →
    ((∃ data, i = .decPayload data) → s.ctrl.policy = t.ctrl.policy) →
    ∃ frame : Frame, exec i s = .next (s.replied c frame) ∧ exec i t = .next (t.replied d frame) ∧
      (frame = [0x02#8] ∨ ∃ data, frame = 0x00#8 :: data)

/-! ### Control commands and illegal frames -/

/-- O17. `GET_STATE` (R172), with the codes of R23 and the flags of R43. -/
def Obligations.GetStateResult : Prop :=
  ∀ (s : State) (c : Nat), s.turn = .submission c →
    ∃ code flags : Byte, exec .getState s = .next (s.replied c [0x00#8, code, flags, s.deviceId]) ∧
      (s.tstate, code) ∈ [(TState.uninitialized, 0#8), (.idle, 1#8), (.transmitting, 2#8),
        (.receiving, 3#8), (.error, 4#8)] ∧
      flags.getLsbD 0 = s.busOpen ∧ flags.getLsbD 1 = s.stopped ∧ flags.getLsbD 2 = s.stopReq ∧
      flags.getLsbD 3 = s.owner.isSome ∧ flags.getLsbD 4 = s.devValid ∧
      flags.getLsbD 5 = s.cfgValid ∧ flags.getLsbD 6 = false ∧ flags.getLsbD 7 = false

/-- O18. `READ_CTRL` (R174) of each index, and of a reserved one (R36); index 0 answers with the reserved
bits 31:2 as 0 whenever `POLICY` holds them as 0 (R30), which every step keeps (the clause
`policy_reserved` of the invariant, O49). -/
def Obligations.ReadCtrlResult : Prop :=
  ∀ (s : State) (c : Nat) (idx : Byte), s.turn = .submission c →
    (∀ v : Word,
      (idx.toNat, v) ∈ [(0, s.ctrl.policy), (1, s.ctrl.tRstLow), (2, s.ctrl.tRstHigh),
        (3, s.ctrl.tSettle), (4, s.ctrl.tPoll)] →
      exec (.readCtrl idx) s = .next (s.replied c (0x00#8 :: be 4 v.toNat))) ∧
    (idx.toNat = 0 → s.ctrl.policy &&& 0xFFFFFFFC#32 = 0#32 →
      ∃ low : Byte, low.toNat < 4 ∧
        exec (.readCtrl idx) s = .next (s.replied c [0x00#8, 0x00#8, 0x00#8, 0x00#8, low])) ∧
    (4 < idx.toNat → exec (.readCtrl idx) s = .next (s.replied c [0x02#8]))

/-- O19. A frame that decodes as illegal completes in its submission step with `06` and nothing else
changes, not even `stop_req` when the opcode is 0x07 (R175, R223). -/
def Obligations.IllegalFrameResult : Prop :=
  (∀ (s : State) (c : Nat) (op : Byte) (rest : Frame), s.turn = .submission c →
    exec (.reserved op rest) s = .next (s.replied c [0x06#8])) ∧
  (∀ (s : State) (c : Nat) (f : Frame), s.turn = .submission c →
    exec (.illegal f) s = .next (s.replied c [0x06#8])) ∧
  (∀ (s : State) (c : Nat) (f : Frame) (fs : List Frame) (m : List Move),
    s.turn = .sequencer → s.sched = .submit c :: m → s.outstanding[c]? = some false →
    s.inbox[c]? = some (f :: fs) →
    (decodeFrame s.profile f = .illegal f ∨ ∃ op rest, decodeFrame s.profile f = .reserved op rest) →
    step s = .next { s with sched := m, inbox := s.inbox.set c fs,
                            hist := s.hist ++ [.submit c f, .resp c [0x06#8]] })

/-- O20. `WRITE_CTRL` after grant (R173): each register, the ignored bits of `POLICY` (R30), and the two
refusals (R35, R36). -/
def Obligations.WriteCtrlResult : Prop :=
  ∀ (s : State) (c : Nat) (idx : Byte) (v : Word) (pos : Pos) (r : Answer),
    Owns s c (.writeCtrl idx v) pos r →
    (idx.toNat = 0 → ∃ w : Word, (∀ n, w.getLsbD n = (v.getLsbD n && decide (n < 2))) ∧
      exec (.writeCtrl idx v) s =
        .next ({ s with ctrl := { s.ctrl with policy := w } }.ended c [0x00#8])) ∧
    (idx.toNat = 1 → exec (.writeCtrl idx v) s =
      .next ({ s with ctrl := { s.ctrl with tRstLow := v } }.ended c [0x00#8])) ∧
    (idx.toNat = 2 → exec (.writeCtrl idx v) s =
      .next ({ s with ctrl := { s.ctrl with tRstHigh := v } }.ended c [0x00#8])) ∧
    (idx.toNat = 3 → exec (.writeCtrl idx v) s =
      .next ({ s with ctrl := { s.ctrl with tSettle := v } }.ended c [0x00#8])) ∧
    (idx.toNat = 4 → v ≠ 0#32 → exec (.writeCtrl idx v) s =
      .next ({ s with ctrl := { s.ctrl with tPoll := v } }.ended c [0x00#8])) ∧
    (4 < idx.toNat ∨ (idx.toNat = 4 ∧ v = 0#32) →
      exec (.writeCtrl idx v) s = .next (s.ended c [0x02#8]))

/-- O21. `STOP` after grant (R171): `Close` only when the transport is open, `PinCleanup` only when the
pin is an output, then the end, which keeps `Error` and turns `Idle` into `Uninitialized`. -/
def Obligations.StopResult : Prop :=
  ∀ (s : State) (c : Nat) (r : Answer),
    (Owns s c .stop .start r → s.busOpen = true →
      exec .stop s = .next ({ s with busOpen := false }.performed c .stop .stopPin r .close)) ∧
    ((Owns s c .stop .start r ∧ s.busOpen = false) ∨ Owns s c .stop .stopPin r →
      s.pinMode = .output →
      exec .stop s = .next ({ s with pinMode := .unconfigured, pinLevel := .undriven }.performed c
        .stop .stopDone r .pinCleanup)) ∧
    ((Owns s c .stop .start r ∧ s.busOpen = false ∧ s.pinMode = .unconfigured) ∨
        (Owns s c .stop .stopPin r ∧ s.pinMode = .unconfigured) ∨ Owns s c .stop .stopDone r →
      ∃ ts : TState, (s.tstate = .idle → ts = .uninitialized) ∧ (s.tstate ≠ .idle → ts = s.tstate) ∧
        exec .stop s =
          .next ({ s with tstate := ts, stopped := true, stopReq := false }.ended c [0x00#8]))

/-! ### Submission and grant -/

/-- O22. The submission step (R190, R191): with a command outstanding the port accepts nothing (the move
is passed over, log entry 11); otherwise an arbitrated command is left pending, `STOP` sets `stop_req` at
once (R170), and an immediate command is answered in the same step (R192). -/
def Obligations.SubmissionStep : Prop :=
  ∀ (s : State) (c : Nat) (f : Frame) (fs : List Frame) (m : List Move),
    s.turn = .sequencer → s.sched = .submit c :: m → s.inbox[c]? = some (f :: fs) →
    (s.outstanding[c]? = some true → step s = .next { s with sched := m }) ∧
    (s.outstanding[c]? = some false → (decodeFrame s.profile f).kind = .arbitrated →
      step s = .next { s with
        sched := m, inbox := s.inbox.set c fs, hist := s.hist ++ [.submit c f]
        outstanding := s.outstanding.set c true
        pending := s.pending.set c (some (decodeFrame s.profile f))
        stopReq := s.stopReq || decide (decodeFrame s.profile f = .stop) }) ∧
    (s.outstanding[c]? = some false → (decodeFrame s.profile f).kind = .immediate →
      ∃ frame : Frame, step s = .next { s with
        sched := m, inbox := s.inbox.set c fs
        hist := s.hist ++ [.submit c f, .resp c frame] })

/-- O23. At its submission an arbitrated command has no effect beyond waiting in `pending`, but for the
`stop_req` of `STOP` (R80, R170, R193). -/
def Obligations.AcceptanceOnly : Prop :=
  ∀ (s : State) (c : Nat) (i : Instr), s.turn = .submission c → i.kind = .arbitrated →
    exec i s = .next { s with
      pending := s.pending.set c (some i), turn := .sequencer
      stopReq := s.stopReq || decide (i = .stop) }

/-- O24. The grant step (R194) for the client the arbiter chose. -/
def Obligations.GrantStep : Prop :=
  ∀ (s : State) (pick : Nat) (m : List Move) (c : Nat) (i : Instr),
    s.sched = .run pick :: m → s.owner = none → s.seq = none → s.choose pick = some c →
    s.pending[c]? = some (some i) →
    step s = .next { s with
      sched := m, hist := s.hist ++ [.grant c], pending := s.pending.set c none, owner := some c
      rr := c, seq := some { client := c, cmd := i, pos := .start, answer := .ok [] } }

/-- O25. A pending `STOP` is chosen before every other command, the lowest port first (R195, whatever
`stop_req` holds: log entry 26); whatever the policy, only a client with a pending command is chosen
(R196). -/
def Obligations.StopHasPriority : Prop :=
  ∀ (s : State) (pick : Nat),
    ((∃ c : Nat, c < s.profile.ports ∧ s.pending[c]? = some (some .stop)) →
      ∃ c : Nat, s.choose pick = some c ∧ c < s.profile.ports ∧ s.pending[c]? = some (some .stop) ∧
        ∀ d : Nat, d < c → s.pending[d]? ≠ some (some .stop)) ∧
    (∀ c : Nat, s.choose pick = some c → c < s.profile.ports ∧ ∃ i : Instr, s.pending[c]? = some (some i))

/-- O26. `ROUND_ROBIN` (R196): the first client with a pending command in the order `rr + 1`, `rr + 2`,
... taken mod `M`. -/
def Obligations.RoundRobinOrder : Prop :=
  ∀ (s : State) (pick c : Nat), s.profile.arbPolicy = .roundRobin →
    (∀ d : Nat, d < s.profile.ports → s.pending[d]? ≠ some (some .stop)) →
    (s.choose pick = some c ↔
      ∃ n, n < s.profile.ports ∧ c = (s.rr + 1 + n) % s.profile.ports ∧
        (∃ i : Instr, s.pending[c]? = some (some i)) ∧
        ∀ k : Nat, k < n → ∀ i : Instr, s.pending[(s.rr + 1 + k) % s.profile.ports]? ≠ some (some i))

/-- O27. When no command runs and some command is pending, the grant step hands the lock to a client
with a pending command (R194, R206). -/
def Obligations.GrantEnabled : Prop :=
  ∀ (s : State) (pick : Nat) (m : List Move), Inv s → s.seq = none →
    (∃ (c : Nat) (i : Instr), s.pending[c]? = some (some i)) → s.sched = .run pick :: m →
    ∃ (c : Nat) (i : Instr) (t : State), step s = .next t ∧ s.pending[c]? = some (some i) ∧
      t.owner = some c ∧ t.seq = some { client := c, cmd := i, pos := .start, answer := .ok [] } ∧
      t.pending = s.pending.set c none ∧ t.hist = s.hist ++ [.grant c]

/-! ### The checks after grant -/

/-- O28. Every arbitrated command checks its state first and its operands second, and a refusal has no
event but its response and no state change (R130, R217, R219, R224). -/
def Obligations.ChecksComeFirst : Prop :=
  ∀ (s : State) (c : Nat) (i : Instr) (r : Answer), Owns s c i .start r → i.kind = .arbitrated →
    (¬legalAtGrant i s → exec i s = .next (s.ended c [0x03#8])) ∧
    (legalAtGrant i s → ¬operandsOk s.profile i → exec i s = .next (s.ended c [0x02#8]))

/-! ### INIT -/

/-- O29. `INIT` past its checks: `stopped` and `cfg_valid` are cleared with its first primitive, which
is `Open`, or `PinMode` or `PinWrite(0)` when the transport is open already (R131, R133, R134; when the
two fields are cleared is log entry 1). -/
def Obligations.InitBegins : Prop :=
  ∀ (s : State) (c : Nat) (cfg : RadioConfig) (r : Answer), Owns s c (.init cfg) .start r →
    legalAtGrant (.init cfg) s → operandsOk s.profile (.init cfg) →
    (s.busOpen = false →
      exec (.init cfg) s = .next ({ s with stopped := false, cfgValid := false }.called c (.init cfg)
        .opened (s.nextAnswer 0)
        (.openBus s.profile.busId s.profile.devId (s.nextAnswer 0).isOk))) ∧
    (s.busOpen = true → s.pinMode = .unconfigured →
      exec (.init cfg) s = .next ({ s with stopped := false, cfgValid := false,
                                           pinMode := .output }.performed c (.init cfg) .pinLow r
        .pinMode)) ∧
    (s.busOpen = true → s.pinMode = .output →
      exec (.init cfg) s = .next ({ s with stopped := false, cfgValid := false,
                                           pinLevel := .low }.performed c (.init cfg) .holdLow r
        (.pinWrite false)))

/-- O30. The opening and the reset pulse of `INIT` (R131, R134): `SetClock`, `PinMode` only for an
unconfigured pin, low, the wait of `T_RST_LOW`, high, the wait of `T_RST_HIGH`. That `bus_open` becomes 1
in the step of `SetClock` is the model's choice (log entry 25). -/
def Obligations.InitResetPulse : Prop :=
  ∀ (s : State) (c : Nat) (cfg : RadioConfig) (r : Answer),
    (Owns s c (.init cfg) .opened r → r.isOk = true →
      exec (.init cfg) s =
        .next ({ s with busOpen := s.busOpen || (s.nextAnswer 0).isOk }.called c (.init cfg) .clocked
          (s.nextAnswer 0) (.setClock s.profile.spiHz (s.nextAnswer 0).isOk))) ∧
    (Owns s c (.init cfg) .clocked r → r.isOk = true → s.pinMode = .unconfigured →
      exec (.init cfg) s =
        .next ({ s with pinMode := .output }.performed c (.init cfg) .pinLow r .pinMode)) ∧
    ((Owns s c (.init cfg) .clocked r ∧ r.isOk = true ∧ s.pinMode = .output) ∨
        Owns s c (.init cfg) .pinLow r →
      exec (.init cfg) s =
        .next ({ s with pinLevel := .low }.performed c (.init cfg) .holdLow r (.pinWrite false))) ∧
    (Owns s c (.init cfg) .holdLow r →
      exec (.init cfg) s =
        .next (s.performed c (.init cfg) .pinHigh r (.wait .rstLow s.ctrl.tRstLow))) ∧
    (Owns s c (.init cfg) .pinHigh r →
      exec (.init cfg) s =
        .next ({ s with pinLevel := .high }.performed c (.init cfg) .holdHigh r (.pinWrite true))) ∧
    (Owns s c (.init cfg) .holdHigh r →
      exec (.init cfg) s =
        .next (s.performed c (.init cfg) (.cfgWrite 0) r (.wait .rstHigh s.ctrl.tRstHigh)))

/-- O31. The five configuration writes of `INIT` in their order, each after the one before it was
answered `ok`, and the end that latches the configuration and enters `Idle` (R118, R133, R135). -/
def Obligations.InitWritesAndEnds : Prop :=
  ∀ (s : State) (c : Nat) (cfg : RadioConfig) (n : Nat) (r : Answer),
    Owns s c (.init cfg) (.cfgWrite n) r → (n = 0 ∨ r.isOk = true) →
    (∀ out : Frame, (initFrames s.profile cfg)[n]? = some out →
      exec (.init cfg) s = .next (s.sent c (.init cfg) (.cfgWrite (n + 1)) out)) ∧
    (n = 5 →
      exec (.init cfg) s =
        .next ({ s with cfg := cfg, cfgValid := true, tstate := .idle }.ended c [0x00#8]))

/-- O32. The whole of a successful `INIT` (R133 to R135): from its grant, with the transport answering
`ok`, its events and its end state, whether or not the transport was open and the pin an output. The
answers are fixed through the script of log entry 4, and the steps are those of log entry 1. -/
def Obligations.InitRun : Prop :=
  ∀ (s : State) (c : Nat) (cfg : RadioConfig) (r : Answer) (opens rest : List Answer)
    (ins : List Frame),
    Owns s c (.init cfg) .start r → legalAtGrant (.init cfg) s → operandsOk s.profile (.init cfg) →
    opens = (if s.busOpen then [] else [.ok [], .ok []]) →
    ins.map List.length = (initFrames s.profile cfg).map List.length →
    s.answers = opens ++ ins.map Answer.ok ++ rest →
    ∃ n, ownerRun n s = .next ({ s with
      stopped := false, cfg := cfg, cfgValid := true, tstate := .idle, busOpen := true
      pinMode := .output, pinLevel := .high, answers := rest
      draws := s.draws + opens.length + 5
      hist := s.hist ++ openEvents s ++ pulseEvents s ++
        xferEvents (initFrames s.profile cfg) ins }.ended c [0x00#8])

/-- O33. Whatever the transport answers, an `INIT` past its checks ends, either in `Idle` with the
configuration latched and response `00`, or in `Error` with `cfg_valid = 0`, `cfg` as it was and response
`01` (R133, R136, R216). -/
def Obligations.InitEnds : Prop :=
  ∀ (s : State) (c : Nat) (cfg : RadioConfig) (r : Answer),
    Owns s c (.init cfg) .start r → legalAtGrant (.init cfg) s → operandsOk s.profile (.init cfg) →
    ∃ (n : Nat) (t : State) (ev : List Event), ownerRun n s = .next t ∧ t.seq = none ∧
      t.owner = none ∧ t.stopped = false ∧ t.deviceId = s.deviceId ∧ t.devValid = s.devValid ∧
      ((t.tstate = .idle ∧ t.cfg = cfg ∧ t.cfgValid = true ∧
          t.hist = s.hist ++ ev ++ [.resp c [0x00#8]]) ∨
        (t.tstate = .error ∧ t.cfg = s.cfg ∧ t.cfgValid = false ∧
          t.hist = s.hist ++ ev ++ [.resp c [0x01#8]]))

/-! ### DETECT -/

/-- O34. `DETECT` past its check: the lazy open, then one read of the version register (R131, R137). That
`bus_open` becomes 1 in the step of `SetClock` is the model's choice (log entry 25). -/
def Obligations.DetectReads : Prop :=
  ∀ (s : State) (c : Nat) (r : Answer),
    ((Owns s c .detect .start r ∧ legalAtGrant .detect s ∧ s.busOpen = true) ∨
        (Owns s c .detect .clocked r ∧ r.isOk = true) →
      exec .detect s = .next (s.sent c .detect .version
        [BitVec.ofNat 8 s.profile.regVersion &&& 0x7F#8, s.profile.dummy])) ∧
    (Owns s c .detect .start r → legalAtGrant .detect s → s.busOpen = false →
      exec .detect s = .next (s.called c .detect .opened (s.nextAnswer 0)
        (.openBus s.profile.busId s.profile.devId (s.nextAnswer 0).isOk))) ∧
    (Owns s c .detect .opened r → r.isOk = true →
      exec .detect s =
        .next ({ s with busOpen := s.busOpen || (s.nextAnswer 0).isOk }.called c .detect .clocked
          (s.nextAnswer 0) (.setClock s.profile.spiHz (s.nextAnswer 0).isOk)))

/-- O35. The judgement of the version byte `v` that `DETECT` read: an expected one becomes `device_id`,
with `tstate` unchanged; 0x00 or one outside `EXPECTED_IDS` ends in `Error` (R137, R220). -/
def Obligations.DetectJudges : Prop :=
  ∀ (s : State) (c : Nat) (x v : Byte), Owns s c .detect .version (.ok [x, v]) →
    (v ≠ 0x00#8 → (∃ lo hi, (lo, hi) ∈ s.profile.expectedIds ∧ lo ≤ v.toNat ∧ v.toNat ≤ hi) →
      exec .detect s = .next ({ s with deviceId := v, devValid := true }.ended c [0x00#8, v])) ∧
    (v = 0x00#8 ∨ ¬(∃ lo hi, (lo, hi) ∈ s.profile.expectedIds ∧ lo ≤ v.toNat ∧ v.toNat ≤ hi) →
      exec .detect s =
        .next ({ s with devValid := false, tstate := .error }.ended c [0x04#8, v]))

/-! ### TRANSMIT -/

/-- O36. `TRANSMIT` primitive by primitive (R138): the FIFO write of the whole Frame, the start of
transmission, the settle wait, and the end in `Idle`. -/
def Obligations.TransmitPrimitives : Prop :=
  ∀ (s : State) (c : Nat) (data : Frame) (r : Answer),
    (Owns s c (.transmit data) .start r → s.tstate = .idle →
      data.length ≤ s.profile.fifoDepth →
      exec (.transmit data) s = .next ({ s with tstate := .transmitting }.sent c (.transmit data)
        .txMode ((0x80#8 ||| BitVec.ofNat 8 s.profile.regFifo) :: data))) ∧
    (Owns s c (.transmit data) .txMode r → r.isOk = true →
      exec (.transmit data) s = .next (s.sent c (.transmit data) .txSettle
        [0x80#8 ||| BitVec.ofNat 8 s.profile.regOpmode, s.profile.opmodeTx])) ∧
    (Owns s c (.transmit data) .txSettle r → r.isOk = true →
      exec (.transmit data) s =
        .next (s.performed c (.transmit data) .txDone r (.wait .settle s.ctrl.tSettle))) ∧
    (Owns s c (.transmit data) .txDone r →
      exec (.transmit data) s = .next ({ s with tstate := .idle }.ended c [0x00#8]))

/-- O37. The whole of a successful `TRANSMIT` (R138): two writes, one settle wait, response `00`, and
every other field as it was. The answers are fixed through the script of log entry 4. -/
def Obligations.TransmitRun : Prop :=
  ∀ (s : State) (c : Nat) (data : Frame) (r : Answer) (b1 b2 : Frame) (rest : List Answer),
    Owns s c (.transmit data) .start r → s.tstate = .idle → data.length ≤ s.profile.fifoDepth →
    b1.length = data.length + 1 → b2.length = 2 → s.answers = .ok b1 :: .ok b2 :: rest →
    ∃ n, ownerRun n s = .next ({ s with
      answers := rest, draws := s.draws + 2
      hist := s.hist ++
        [Event.xfer ((0x80#8 ||| BitVec.ofNat 8 s.profile.regFifo) :: data) (.ok b1),
         Event.xfer [0x80#8 ||| BitVec.ofNat 8 s.profile.regOpmode, s.profile.opmodeTx] (.ok b2),
         Event.wait .settle s.ctrl.tSettle] }.ended c [0x00#8])

/-! ### RECEIVE -/

/-- O38. `RECEIVE` begins (R139): the entry write of `OPMODE_RX` when the profile has one, then reads of
the whole FIFO depth, with `k` starting at 0. -/
def Obligations.ReceiveBegins : Prop :=
  ∀ (s : State) (c : Nat) (timeout : Word) (r : Answer),
    (Owns s c (.receive timeout) .start r → s.tstate = .idle → s.profile.rxEntry = true →
      exec (.receive timeout) s = .next ({ s with tstate := .receiving }.sent c (.receive timeout)
        .rxEnter [0x80#8 ||| BitVec.ofNat 8 s.profile.regOpmode, s.profile.opmodeRx])) ∧
    (Owns s c (.receive timeout) .start r → s.tstate = .idle → s.profile.rxEntry = false →
      exec (.receive timeout) s =
        .next ({ s with tstate := .receiving, k := 0 }.sent c (.receive timeout) .rxJudge
          ((BitVec.ofNat 8 s.profile.regFifo &&& 0x7F#8) ::
            List.replicate s.profile.fifoDepth s.profile.dummy))) ∧
    (Owns s c (.receive timeout) .rxEnter r → r.isOk = true →
      exec (.receive timeout) s = .next ({ s with k := 0 }.sent c (.receive timeout) .rxJudge
        ((BitVec.ofNat 8 s.profile.regFifo &&& 0x7F#8) ::
          List.replicate s.profile.fifoDepth s.profile.dummy))) ∧
    (Owns s c (.receive timeout) .rxPoll r →
      exec (.receive timeout) s = .next (s.sent c (.receive timeout) .rxJudge
        ((BitVec.ofNat 8 s.profile.regFifo &&& 0x7F#8) ::
          List.replicate s.profile.fifoDepth s.profile.dummy)))

/-- O39. The judgement of a FIFO read of `RECEIVE`, in its order: data, then `CANCELLED`, then the
timeout, then the poll wait; the read is counted in `k` first (R139, R141, R224). -/
def Obligations.ReceiveJudges : Prop :=
  ∀ (s : State) (c : Nat) (timeout : Word) (x : Byte) (raw : Frame),
    Owns s c (.receive timeout) .rxJudge (.ok (x :: raw)) →
    ((∃ b ∈ raw, b ≠ 0x00#8) ∨ s.ctrl.policy.getLsbD 1 = true →
      exec (.receive timeout) s =
        .next ({ s with k := s.k + 1, tstate := .idle }.ended c
          (0x00#8 :: (decPayload raw s.ctrl.policy).1 ::
            BitVec.ofNat 8 (decPayload raw s.ctrl.policy).2.length ::
            (decPayload raw s.ctrl.policy).2))) ∧
    ((∀ b ∈ raw, b = 0x00#8) → s.ctrl.policy.getLsbD 1 = false →
      (s.stopReq = true →
        exec (.receive timeout) s =
          .next ({ s with k := s.k + 1, tstate := .idle }.ended c [0x05#8])) ∧
      (s.stopReq = false →
        (timeout ≠ s.profile.inf ∧ timeout.toNat ≤ (s.k + 1) * s.ctrl.tPoll.toNat →
          exec (.receive timeout) s =
            .next ({ s with k := s.k + 1, tstate := .idle }.ended c [0x00#8, 0x00#8, 0x00#8])) ∧
        (¬(timeout ≠ s.profile.inf ∧ timeout.toNat ≤ (s.k + 1) * s.ctrl.tPoll.toNat) →
          exec (.receive timeout) s =
            .next ({ s with k := s.k + 1 }.performed c (.receive timeout) .rxPoll
              (.ok (x :: raw)) (.wait .poll s.ctrl.tPoll)))))

/-- O40. The poll count of R140: with every read answered `ok` and empty and no stop, a finite `RECEIVE`
makes exactly `max(1, ceil(T / T_POLL))` FIFO reads with one poll wait between two of them, then responds
`00 00 00`. The answers are fixed through the script of log entry 4. -/
def Obligations.ReceivePollCount : Prop :=
  ∀ (s : State) (c : Nat) (timeout : Word) (r : Answer) (entry reads : List Frame)
    (rest : List Answer),
    Owns s c (.receive timeout) .start r → s.tstate = .idle → s.stopReq = false →
    timeout ≠ s.profile.inf → s.ctrl.tPoll ≠ 0#32 → s.ctrl.policy.getLsbD 1 = false →
    reads.length = max 1 ((timeout.toNat + (s.ctrl.tPoll.toNat - 1)) / s.ctrl.tPoll.toNat) →
    (∀ b ∈ reads, zeroRead s.profile.fifoDepth b) →
    entry.length = (if s.profile.rxEntry then 1 else 0) → (∀ b ∈ entry, b.length = 2) →
    s.answers = entry.map Answer.ok ++ reads.map Answer.ok ++ rest →
    ∃ n, ownerRun n s = .next ({ s with
      k := reads.length, answers := rest, draws := s.draws + entry.length + reads.length
      hist := s.hist ++
        entry.map (fun b => Event.xfer [0x80#8 ||| BitVec.ofNat 8 s.profile.regOpmode,
          s.profile.opmodeRx] (.ok b)) ++
        pollEvents ((BitVec.ofNat 8 s.profile.regFifo &&& 0x7F#8) ::
          List.replicate s.profile.fifoDepth s.profile.dummy) s.ctrl.tPoll reads }.ended c
      [0x00#8, 0x00#8, 0x00#8])

/-- O41. Once `stop_req` is 1, a running `RECEIVE` ends after at most one more FIFO read and no further
wait, with `CANCELLED`, a transport failure, or the data of the last FIFO read, which is the read of this
run or, at the judgement of a read, the answer already there (R141, R222, R224). -/
def Obligations.ReceiveCancelled : Prop :=
  ∀ (s : State) (c : Nat) (timeout : Word) (pos : Pos) (r : Answer),
    Owns s c (.receive timeout) pos r → pos = .rxEnter ∨ pos = .rxPoll ∨ pos = .rxJudge →
    s.stopReq = true →
    ∃ (n : Nat) (t : State) (ev : List Event) (frame : Frame), ownerRun n s = .next t ∧
      t.seq = none ∧ t.owner = none ∧ t.hist = s.hist ++ ev ++ [.resp c frame] ∧
      ev.countP Event.isXfer ≤ 1 ∧ (∀ kind ms, Event.wait kind ms ∉ ev) ∧
      ((frame = [0x01#8] ∧ t.tstate = .error) ∨ (frame = [0x05#8] ∧ t.tstate = .idle) ∨
        (t.tstate = .idle ∧ ∃ (raw : Frame) (last : Answer),
          last.isOk = true ∧ raw = last.data ∧
          (pos = .rxJudge → last = r ∧ ev = []) ∧
          (pos ≠ .rxJudge → Event.xfer ((BitVec.ofNat 8 s.profile.regFifo &&& 0x7F#8) ::
            List.replicate s.profile.fifoDepth s.profile.dummy) last ∈ ev) ∧
          ((∃ b ∈ raw, b ≠ 0x00#8) ∨ s.ctrl.policy.getLsbD 1 = true) ∧
          frame = 0x00#8 :: (decPayload raw s.ctrl.policy).1 ::
            BitVec.ofNat 8 (decPayload raw s.ctrl.policy).2.length ::
            (decPayload raw s.ctrl.policy).2))

/-! ### SET_FREQ, READ_RSSI and transport failures -/

/-- O42. `SET_FREQ` past its checks (R142): one write of the frequency register, then the latched
frequency. -/
def Obligations.SetFreqResult : Prop :=
  ∀ (s : State) (c : Nat) (freq : Word) (r : Answer),
    (Owns s c (.setFreq freq) .start r → s.tstate = .idle →
      s.profile.fMin ≤ freq.toNat ∧ freq.toNat ≤ s.profile.fMax →
      exec (.setFreq freq) s = .next (s.sent c (.setFreq freq) .tuned
        ((0x80#8 ||| BitVec.ofNat 8 s.profile.regFrf) ::
          be s.profile.frfBytes (freq.toNat * 2 ^ s.profile.fShift / s.profile.fXtal)))) ∧
    (Owns s c (.setFreq freq) .tuned r → r.isOk = true →
      exec (.setFreq freq) s =
        .next ({ s with cfg := { s.cfg with freq := freq } }.ended c [0x00#8]))

/-- O43. `READ_RSSI` past its check (R143): one read, then the decoded strength and the raw byte. -/
def Obligations.ReadRssiResult : Prop :=
  ∀ (s : State) (c : Nat) (r : Answer),
    (Owns s c .readRssi .start r → s.tstate = .idle →
      exec .readRssi s = .next (s.sent c .readRssi .rssi
        [BitVec.ofNat 8 s.profile.regRssi &&& 0x7F#8, s.profile.dummy])) ∧
    (∀ x raw : Byte, r = .ok [x, raw] → Owns s c .readRssi .rssi r →
      exec .readRssi s = .next (s.ended c
        (0x00#8 :: (be 2 (rssiOf s.profile.rssiMap raw % 65536).toNat ++ [raw]))))

/-- O44. A failed transport call ends its command with `TRANSPORT_ERROR` in `Error`, and nothing else
changes but `dev_valid` for `DETECT`; a failed clock set first closes the handle (R131, R132, R216,
R225). -/
def Obligations.TransportFailure : Prop :=
  ∀ (s : State) (c : Nat) (i : Instr) (pos : Pos) (r : Answer), Owns s c i pos r →
    (readsAnswer i pos → r = .fail → exec i s = .next ((s.failed i).ended c [0x01#8])) ∧
    ((∃ cfg, i = .init cfg) ∨ i = .detect →
      (pos = .clocked → r = .fail →
        exec i s = .next ({ s with busOpen := false }.performed c i .released r .close)) ∧
      (pos = .released → exec i s = .next ((s.failed i).ended c [0x01#8])))

/-! ### The bus -/

/-- O45. `SPI_WRITE` and `SPI_READ` (R53, R54, R87 to R89): the bytes sent, one event, one answer, and
nothing else but the running command's last answer. -/
def Obligations.SpiTransactions : Prop :=
  ∀ (s : State) (a : BitVec 7),
    (∀ data : Frame, ∃ out : Frame, out = BitVec.ofNat 8 (128 + a.toNat) :: data ∧
      exec (.spiWrite a data) s = .next { s with
        hist := s.hist ++ [.xfer out (s.nextAnswer out.length)], answers := s.answers.tail
        draws := s.draws + 1
        seq := s.seq.map fun q => { q with answer := s.nextAnswer out.length } }) ∧
    (∀ n : Nat, ∃ out : Frame,
      out = BitVec.ofNat 8 a.toNat :: List.replicate n s.profile.dummy ∧
      exec (.spiRead a n) s = .next { s with
        hist := s.hist ++ [.xfer out (s.nextAnswer out.length)], answers := s.answers.tail
        draws := s.draws + 1
        seq := s.seq.map fun q => { q with answer := s.nextAnswer out.length } })

/-- O46. The environment's answer is `fail` or `ok` with as many bytes as were sent, and every such
answer is possible (R52, R57; the script is log entry 4). -/
def Obligations.OracleAnswers : Prop :=
  ∀ (s : State) (n : Nat),
    (s.nextAnswer n = .fail ∨ ∃ bs : Frame, bs.length = n ∧ s.nextAnswer n = .ok bs) ∧
    (∀ rest, s.answers = .fail :: rest → s.nextAnswer n = .fail) ∧
    (∀ (bs : Frame) (rest : List Answer), bs.length = n → s.answers = .ok bs :: rest →
      s.nextAnswer n = .ok bs)

/-! ### Reset -/

/-- O47. The reset values of R47 under every profile, and `CTRL` under P0. -/
def Obligations.ResetValues : Prop :=
  (∀ p : Profile,
    (State.resetOf p).tstate = .uninitialized ∧ (State.resetOf p).cfgValid = false ∧
    (State.resetOf p).busOpen = false ∧ (State.resetOf p).pinMode = .unconfigured ∧
    (State.resetOf p).pinLevel = .undriven ∧ (State.resetOf p).deviceId = 0x00#8 ∧
    (State.resetOf p).devValid = false ∧ (State.resetOf p).stopped = false ∧
    (State.resetOf p).stopReq = false ∧ (State.resetOf p).owner = none ∧
    (∀ c, c < p.ports → (State.resetOf p).pending[c]? = some none) ∧
    (State.resetOf p).rr = p.ports - 1 ∧
    (∀ c, c < p.ports → (State.resetOf p).outstanding[c]? = some false) ∧
    (State.resetOf p).seq = none ∧ (State.resetOf p).hist = []) ∧
  State.reset = State.resetOf P0 ∧ State.reset.rr = 2 ∧
  State.reset.ctrl = { policy := 0x00000001#32, tRstLow := 100#32, tRstHigh := 100#32,
                       tSettle := 100#32, tPoll := 100#32 }

/-- O48. The invariant holds right after reset, of every profile with at least one port, a `POLICY`
without reserved bits and a `T_POLL` of at least 1. -/
def Obligations.ResetKeepsInv : Prop :=
  (∀ p : Profile, 1 ≤ p.ports → p.ctrlReset.policy &&& 0xFFFFFFFC#32 = 0#32 →
    p.ctrlReset.tPoll ≠ 0#32 → Inv (State.resetOf p)) ∧
  Inv State.reset

/-! ### Every step -/

/-- O49. Every step keeps the invariant: R204, R27, R28, R30, R35, R40, R41, the lock discipline of R198,
and R48 with its fifth clause in the model's reading, which excepts a running `INIT` because R133 clears
`cfg_valid` at its start (log entry 15, DEDUCED), with what makes them inductive (where `bus_open` becomes
1 is log entry 25). -/
def Obligations.StepKeepsInv : Prop :=
  ∀ s t : State, Inv s → step s = .next t → Inv t

/-- O50. There is no trap: every step of every state answers a next state (R218). -/
def Obligations.NoTrap : Prop := ∀ s : State, ∃ t, step s = .next t

/-- O51. The history only grows, by nothing, by one event, or by a submission with its immediate answer;
and only a step of the owner's command records an event of the transport, the pin or a wait (R52, R64,
R192, R198). -/
def Obligations.HistoryGrows : Prop :=
  ∀ s t : State, step s = .next t →
    t.hist = s.hist ++ newEvents s t ∧
    (newEvents s t = [] ∨ (∃ e, newEvents s t = [e]) ∨
      ∃ c f g, newEvents s t = [.submit c f, .resp c g]) ∧
    (∀ e ∈ newEvents s t, e.isOwners = true → ∃ q, s.seq = some q)

/-- O52. `tstate` changes only as the table of R24 says, with the command and the event that cause it;
in particular only an `INIT` that completes `OK` leaves `Error` (R226). -/
def Obligations.TstateTable : Prop :=
  ∀ s t : State, Inv s → step s = .next t → t.tstate ≠ s.tstate →
    (∃ q e, s.seq = some q ∧ newEvents s t = [e] ∧ tstateRow q.cmd s.tstate t.tstate e) ∧
    (s.tstate = .error → t.tstate = .idle ∧ t.cfgValid = true)

/-- O53. While the transport is closed no step issues a transaction (R27). -/
def Obligations.NoTransferWhileClosed : Prop :=
  ∀ s t : State, Inv s → step s = .next t → s.busOpen = false →
    ∀ e ∈ newEvents s t, e.isXfer = false

/-- O54. After `STOP` no step issues `Open`, `SetClock`, `Xfer` or a pin event, and `stopped` stays 1,
but for the first primitive of an `INIT` that passed its checks (R38, R202). -/
def Obligations.QuietAfterStop : Prop :=
  ∀ s t : State, Inv s → step s = .next t → s.stopped = true →
    ((∀ e ∈ newEvents s t, e.touchesRadio = false) ∧ t.stopped = true) ∨
    (∃ q cfg, s.seq = some q ∧ q.cmd = .init cfg ∧ q.pos = .start ∧
      operandsOk s.profile (.init cfg) ∧ t.stopped = false)

/-- O55. Every transaction any step issues is a row of R60's table for the running command: its register
address, its direction bit, its length, and for the mode writes and reads its bytes (R53 to R55, R60). -/
def Obligations.TransactionTable : Prop :=
  ∀ (s t : State), Inv s → step s = .next t → ∀ (out : Frame) (r : Answer),
    .xfer out r ∈ newEvents s t →
    (∃ q, s.seq = some q ∧ xferRow s.profile q.cmd out) ∧
    (r = .fail ∨ ∃ bs : Frame, bs.length = out.length ∧ r = .ok bs)

/-- O56. Which commands write which state: `CTRL` only `WRITE_CTRL`, `cfg` only `INIT` and `SET_FREQ`,
`device_id` and `dev_valid` only `DETECT`, `stopped` and the pin only `INIT` and `STOP`, `bus_open` only
`INIT`, `DETECT` and `STOP`, and the profile nothing (R25, R27 to R29, R37, R38, R268). -/
def Obligations.OnlyTheirCommandsWrite : Prop :=
  ∀ s t : State, step s = .next t →
    (t.ctrl ≠ s.ctrl → ∃ q idx v, s.seq = some q ∧ q.cmd = .writeCtrl idx v) ∧
    (t.cfg ≠ s.cfg → ∃ q, s.seq = some q ∧
      ((∃ cfg, q.cmd = .init cfg ∧ t.cfg = cfg ∧ t.cfgValid = true) ∨
        ∃ f, q.cmd = .setFreq f ∧ t.cfg = { s.cfg with freq := f })) ∧
    (t.deviceId ≠ s.deviceId ∨ t.devValid ≠ s.devValid → ∃ q, s.seq = some q ∧ q.cmd = .detect) ∧
    (t.stopped ≠ s.stopped ∨ t.pinMode ≠ s.pinMode ∨ t.pinLevel ≠ s.pinLevel →
      ∃ q, s.seq = some q ∧ ((∃ cfg, q.cmd = .init cfg) ∨ q.cmd = .stop)) ∧
    (t.busOpen ≠ s.busOpen →
      ∃ q, s.seq = some q ∧ ((∃ cfg, q.cmd = .init cfg) ∨ q.cmd = .detect ∨ q.cmd = .stop)) ∧
    t.profile = s.profile

/-! ### Whole runs -/

/-- O57. Every granted command ends and releases the lock, whatever the transport answers, but for a
`RECEIVE` with the infinite timeout (R197, R198). -/
def Obligations.CommandsEnd : Prop :=
  ∀ (s : State) (c : Nat) (i : Instr) (r : Answer), Owns s c i .start r → i.kind = .arbitrated →
    (∀ timeout, i = .receive timeout → timeout ≠ s.profile.inf ∧ s.ctrl.tPoll ≠ 0#32) →
    ∃ (n : Nat) (t : State) (ev : List Event) (frame : Frame), ownerRun n s = .next t ∧
      t.seq = none ∧ t.owner = none ∧ t.outstanding = s.outstanding.set c false ∧
      t.hist = s.hist ++ ev ++ [.resp c frame]

/-- O58. Mutual exclusion over the history (R198, R199): between a grant and the next one stands the
response of the first owner, and every transport, pin or wait event lies between a grant and the response
of that grant's client. -/
def Obligations.MutualExclusion : Prop :=
  ∀ s : State, Inv s →
    (∀ (pre mid post : List Event) (c d : Nat),
      s.hist = pre ++ .grant c :: (mid ++ .grant d :: post) → ∃ f, .resp c f ∈ mid) ∧
    (∀ (pre post : List Event) (e : Event), s.hist = pre ++ e :: post → e.isOwners = true →
      ∃ (pre' mid : List Event) (c : Nat), pre = pre' ++ .grant c :: mid ∧
        (∀ f, .resp c f ∉ mid) ∧ ∀ d, .grant d ∉ mid)

/-! ### The host model -/

/-- O59. The start of a scan (R246, R248, R250): refused with `INVALID_PARAMETER` when the step is below
one register step or the range is not inside the accepted one; otherwise the scanner has
`floor((end - start) / step) + 1` frequencies `start + i * step` to visit, strictly ascending and inside
the range, and begins by waiting to be asked. `FIRST_HIT` is false unless the caller sets it. -/
def Obligations.ScanStart : Prop :=
  (∀ (p : Profile) (first last step : Nat) (mode : ScanMode) (hit : Bool), 0 < p.fXtal →
    (¬(p.fXtal ≤ step * 2 ^ p.fShift ∧ p.fMin ≤ first ∧ first ≤ last ∧ last ≤ p.fMax) →
      scanSequence p first last step = none ∧
      startScan p { first := first, last := last, step := step, mode := mode, firstHit := hit } =
        .error .invalidParameter) ∧
    (p.fXtal ≤ step * 2 ^ p.fShift ∧ p.fMin ≤ first ∧ first ≤ last ∧ last ≤ p.fMax →
      ∃ l, scanSequence p first last step = some l ∧ l.length = (last - first) / step + 1 ∧
        (∀ i, i < l.length → l[i]? = some (first + i * step)) ∧
        l.Pairwise (· < ·) ∧ (∀ f ∈ l, first ≤ f ∧ f ≤ last) ∧
        startScan p { first := first, last := last, step := step, mode := mode, firstHit := hit } =
          .ok { todo := l.map (BitVec.ofNat 32), mode := mode, firstHit := hit, pos := .ask })) ∧
  ∀ (first last step : Nat) (mode : ScanMode),
    ({ first := first, last := last, step := step, mode := mode } : ScanArgs).firstHit = false

/-- O60. What R48 says of one state, clause by clause, in every state that meets the invariant: `seq` and
`owner`, `Transmitting` and `Receiving`, `stopped`, `outstanding`, and `Idle` with `cfg_valid`, the last
but while an `INIT` past its checks runs (log entry 15, DEDUCED). Its clause on `Xfer` is O53. -/
def Obligations.StateInvariants : Prop :=
  ∀ s : State, Inv s →
    (s.seq = none ↔ s.owner = none) ∧
    (s.tstate = .transmitting → ∃ q data, s.seq = some q ∧ q.cmd = .transmit data) ∧
    (s.tstate = .receiving → ∃ q timeout, s.seq = some q ∧ q.cmd = .receive timeout) ∧
    (s.stopped = true → s.busOpen = false ∧ s.pinMode = .unconfigured) ∧
    (s.tstate = .idle → (∀ q cfg, s.seq = some q → q.cmd = .init cfg → q.pos = .start) → s.cfgValid = true) ∧
    (∀ c, s.outstanding[c]? = some false → s.pending[c]? = some none ∧ s.owner ≠ some c)

end
end

