-- ==== Sys2Proof/Laws/State.lean ====
section
/-! SUPPORT. What each field holds after each shared operation, one conjunct per field, all by `rfl`;
`simp` uses every conjunct as a rewrite rule, so that no later proof unfolds a record update. -/

namespace Sys2Proof.Machine

/-- `emit` writes `hist`. -/
@[simp] theorem emit_fields (s : State) (e : Event) :
    (s.emit e).profile = s.profile ∧
    (s.emit e).tstate = s.tstate ∧
    (s.emit e).cfg = s.cfg ∧
    (s.emit e).cfgValid = s.cfgValid ∧
    (s.emit e).busOpen = s.busOpen ∧
    (s.emit e).pinMode = s.pinMode ∧
    (s.emit e).pinLevel = s.pinLevel ∧
    (s.emit e).ctrl = s.ctrl ∧
    (s.emit e).deviceId = s.deviceId ∧
    (s.emit e).devValid = s.devValid ∧
    (s.emit e).stopped = s.stopped ∧
    (s.emit e).stopReq = s.stopReq ∧
    (s.emit e).owner = s.owner ∧
    (s.emit e).pending = s.pending ∧
    (s.emit e).rr = s.rr ∧
    (s.emit e).outstanding = s.outstanding ∧
    (s.emit e).seq = s.seq ∧
    (s.emit e).k = s.k ∧
    (s.emit e).hist = s.hist ++ [e] ∧
    (s.emit e).turn = s.turn ∧
    (s.emit e).inbox = s.inbox ∧
    (s.emit e).sched = s.sched ∧
    (s.emit e).answers = s.answers ∧
    (s.emit e).draws = s.draws :=
  ⟨rfl, rfl, rfl, rfl, rfl, rfl, rfl, rfl, rfl, rfl, rfl, rfl, rfl, rfl, rfl, rfl, rfl, rfl, rfl, rfl, rfl, rfl, rfl, rfl⟩

/-- `drawn` writes the answer script and the draw counter. -/
@[simp] theorem drawn_fields (s : State) :
    (s.drawn).profile = s.profile ∧
    (s.drawn).tstate = s.tstate ∧
    (s.drawn).cfg = s.cfg ∧
    (s.drawn).cfgValid = s.cfgValid ∧
    (s.drawn).busOpen = s.busOpen ∧
    (s.drawn).pinMode = s.pinMode ∧
    (s.drawn).pinLevel = s.pinLevel ∧
    (s.drawn).ctrl = s.ctrl ∧
    (s.drawn).deviceId = s.deviceId ∧
    (s.drawn).devValid = s.devValid ∧
    (s.drawn).stopped = s.stopped ∧
    (s.drawn).stopReq = s.stopReq ∧
    (s.drawn).owner = s.owner ∧
    (s.drawn).pending = s.pending ∧
    (s.drawn).rr = s.rr ∧
    (s.drawn).outstanding = s.outstanding ∧
    (s.drawn).seq = s.seq ∧
    (s.drawn).k = s.k ∧
    (s.drawn).hist = s.hist ∧
    (s.drawn).turn = s.turn ∧
    (s.drawn).inbox = s.inbox ∧
    (s.drawn).sched = s.sched ∧
    (s.drawn).answers = s.answers.tail ∧
    (s.drawn).draws = s.draws + 1 :=
  ⟨rfl, rfl, rfl, rfl, rfl, rfl, rfl, rfl, rfl, rfl, rfl, rfl, rfl, rfl, rfl, rfl, rfl, rfl, rfl, rfl, rfl, rfl, rfl, rfl⟩

/-- `latch` writes the running command's answer. -/
@[simp] theorem latch_fields (s : State) (r : Answer) :
    (s.latch r).profile = s.profile ∧
    (s.latch r).tstate = s.tstate ∧
    (s.latch r).cfg = s.cfg ∧
    (s.latch r).cfgValid = s.cfgValid ∧
    (s.latch r).busOpen = s.busOpen ∧
    (s.latch r).pinMode = s.pinMode ∧
    (s.latch r).pinLevel = s.pinLevel ∧
    (s.latch r).ctrl = s.ctrl ∧
    (s.latch r).deviceId = s.deviceId ∧
    (s.latch r).devValid = s.devValid ∧
    (s.latch r).stopped = s.stopped ∧
    (s.latch r).stopReq = s.stopReq ∧
    (s.latch r).owner = s.owner ∧
    (s.latch r).pending = s.pending ∧
    (s.latch r).rr = s.rr ∧
    (s.latch r).outstanding = s.outstanding ∧
    (s.latch r).seq = (s.seq.map fun q => { q with answer := r }) ∧
    (s.latch r).k = s.k ∧
    (s.latch r).hist = s.hist ∧
    (s.latch r).turn = s.turn ∧
    (s.latch r).inbox = s.inbox ∧
    (s.latch r).sched = s.sched ∧
    (s.latch r).answers = s.answers ∧
    (s.latch r).draws = s.draws :=
  ⟨rfl, rfl, rfl, rfl, rfl, rfl, rfl, rfl, rfl, rfl, rfl, rfl, rfl, rfl, rfl, rfl, rfl, rfl, rfl, rfl, rfl, rfl, rfl, rfl⟩

/-- `goto` writes the running command's position. -/
@[simp] theorem goto_fields (s : State) (pos : Pos) :
    (s.goto pos).profile = s.profile ∧
    (s.goto pos).tstate = s.tstate ∧
    (s.goto pos).cfg = s.cfg ∧
    (s.goto pos).cfgValid = s.cfgValid ∧
    (s.goto pos).busOpen = s.busOpen ∧
    (s.goto pos).pinMode = s.pinMode ∧
    (s.goto pos).pinLevel = s.pinLevel ∧
    (s.goto pos).ctrl = s.ctrl ∧
    (s.goto pos).deviceId = s.deviceId ∧
    (s.goto pos).devValid = s.devValid ∧
    (s.goto pos).stopped = s.stopped ∧
    (s.goto pos).stopReq = s.stopReq ∧
    (s.goto pos).owner = s.owner ∧
    (s.goto pos).pending = s.pending ∧
    (s.goto pos).rr = s.rr ∧
    (s.goto pos).outstanding = s.outstanding ∧
    (s.goto pos).seq = (s.seq.map fun q => { q with pos := pos }) ∧
    (s.goto pos).k = s.k ∧
    (s.goto pos).hist = s.hist ∧
    (s.goto pos).turn = s.turn ∧
    (s.goto pos).inbox = s.inbox ∧
    (s.goto pos).sched = s.sched ∧
    (s.goto pos).answers = s.answers ∧
    (s.goto pos).draws = s.draws :=
  ⟨rfl, rfl, rfl, rfl, rfl, rfl, rfl, rfl, rfl, rfl, rfl, rfl, rfl, rfl, rfl, rfl, rfl, rfl, rfl, rfl, rfl, rfl, rfl, rfl⟩

/-- `transfer` draws an answer, records one `Xfer` and keeps the answer. -/
@[simp] theorem transfer_fields (s : State) (out : Frame) :
    (s.transfer out).profile = s.profile ∧
    (s.transfer out).tstate = s.tstate ∧
    (s.transfer out).cfg = s.cfg ∧
    (s.transfer out).cfgValid = s.cfgValid ∧
    (s.transfer out).busOpen = s.busOpen ∧
    (s.transfer out).pinMode = s.pinMode ∧
    (s.transfer out).pinLevel = s.pinLevel ∧
    (s.transfer out).ctrl = s.ctrl ∧
    (s.transfer out).deviceId = s.deviceId ∧
    (s.transfer out).devValid = s.devValid ∧
    (s.transfer out).stopped = s.stopped ∧
    (s.transfer out).stopReq = s.stopReq ∧
    (s.transfer out).owner = s.owner ∧
    (s.transfer out).pending = s.pending ∧
    (s.transfer out).rr = s.rr ∧
    (s.transfer out).outstanding = s.outstanding ∧
    (s.transfer out).seq = (s.seq.map fun q => { q with answer := s.nextAnswer out.length }) ∧
    (s.transfer out).k = s.k ∧
    (s.transfer out).hist = s.hist ++ [.xfer out (s.nextAnswer out.length)] ∧
    (s.transfer out).turn = s.turn ∧
    (s.transfer out).inbox = s.inbox ∧
    (s.transfer out).sched = s.sched ∧
    (s.transfer out).answers = s.answers.tail ∧
    (s.transfer out).draws = s.draws + 1 :=
  ⟨rfl, rfl, rfl, rfl, rfl, rfl, rfl, rfl, rfl, rfl, rfl, rfl, rfl, rfl, rfl, rfl, rfl, rfl, rfl, rfl, rfl, rfl, rfl, rfl⟩

/-- `openTransport` draws an answer, records one `Open` and keeps the answer. -/
@[simp] theorem openTransport_fields (s : State) :
    (s.openTransport).profile = s.profile ∧
    (s.openTransport).tstate = s.tstate ∧
    (s.openTransport).cfg = s.cfg ∧
    (s.openTransport).cfgValid = s.cfgValid ∧
    (s.openTransport).busOpen = s.busOpen ∧
    (s.openTransport).pinMode = s.pinMode ∧
    (s.openTransport).pinLevel = s.pinLevel ∧
    (s.openTransport).ctrl = s.ctrl ∧
    (s.openTransport).deviceId = s.deviceId ∧
    (s.openTransport).devValid = s.devValid ∧
    (s.openTransport).stopped = s.stopped ∧
    (s.openTransport).stopReq = s.stopReq ∧
    (s.openTransport).owner = s.owner ∧
    (s.openTransport).pending = s.pending ∧
    (s.openTransport).rr = s.rr ∧
    (s.openTransport).outstanding = s.outstanding ∧
    (s.openTransport).seq = (s.seq.map fun q => { q with answer := s.nextAnswer 0 }) ∧
    (s.openTransport).k = s.k ∧
    (s.openTransport).hist = s.hist ++ [.openBus s.profile.busId s.profile.devId (s.nextAnswer 0).isOk] ∧
    (s.openTransport).turn = s.turn ∧
    (s.openTransport).inbox = s.inbox ∧
    (s.openTransport).sched = s.sched ∧
    (s.openTransport).answers = s.answers.tail ∧
    (s.openTransport).draws = s.draws + 1 :=
  ⟨rfl, rfl, rfl, rfl, rfl, rfl, rfl, rfl, rfl, rfl, rfl, rfl, rfl, rfl, rfl, rfl, rfl, rfl, rfl, rfl, rfl, rfl, rfl, rfl⟩

/-- `setClock` draws an answer, records one `SetClock`, keeps the answer and opens the bus on `ok`. -/
@[simp] theorem setClock_fields (s : State) :
    (s.setClock).profile = s.profile ∧
    (s.setClock).tstate = s.tstate ∧
    (s.setClock).cfg = s.cfg ∧
    (s.setClock).cfgValid = s.cfgValid ∧
    (s.setClock).busOpen = (s.busOpen || (s.nextAnswer 0).isOk) ∧
    (s.setClock).pinMode = s.pinMode ∧
    (s.setClock).pinLevel = s.pinLevel ∧
    (s.setClock).ctrl = s.ctrl ∧
    (s.setClock).deviceId = s.deviceId ∧
    (s.setClock).devValid = s.devValid ∧
    (s.setClock).stopped = s.stopped ∧
    (s.setClock).stopReq = s.stopReq ∧
    (s.setClock).owner = s.owner ∧
    (s.setClock).pending = s.pending ∧
    (s.setClock).rr = s.rr ∧
    (s.setClock).outstanding = s.outstanding ∧
    (s.setClock).seq = (s.seq.map fun q => { q with answer := s.nextAnswer 0 }) ∧
    (s.setClock).k = s.k ∧
    (s.setClock).hist = s.hist ++ [.setClock s.profile.spiHz (s.nextAnswer 0).isOk] ∧
    (s.setClock).turn = s.turn ∧
    (s.setClock).inbox = s.inbox ∧
    (s.setClock).sched = s.sched ∧
    (s.setClock).answers = s.answers.tail ∧
    (s.setClock).draws = s.draws + 1 :=
  ⟨rfl, rfl, rfl, rfl, rfl, rfl, rfl, rfl, rfl, rfl, rfl, rfl, rfl, rfl, rfl, rfl, rfl, rfl, rfl, rfl, rfl, rfl, rfl, rfl⟩

/-- `closeTransport` records `Close` and clears `busOpen`. -/
@[simp] theorem closeTransport_fields (s : State) :
    (s.closeTransport).profile = s.profile ∧
    (s.closeTransport).tstate = s.tstate ∧
    (s.closeTransport).cfg = s.cfg ∧
    (s.closeTransport).cfgValid = s.cfgValid ∧
    (s.closeTransport).busOpen = false ∧
    (s.closeTransport).pinMode = s.pinMode ∧
    (s.closeTransport).pinLevel = s.pinLevel ∧
    (s.closeTransport).ctrl = s.ctrl ∧
    (s.closeTransport).deviceId = s.deviceId ∧
    (s.closeTransport).devValid = s.devValid ∧
    (s.closeTransport).stopped = s.stopped ∧
    (s.closeTransport).stopReq = s.stopReq ∧
    (s.closeTransport).owner = s.owner ∧
    (s.closeTransport).pending = s.pending ∧
    (s.closeTransport).rr = s.rr ∧
    (s.closeTransport).outstanding = s.outstanding ∧
    (s.closeTransport).seq = s.seq ∧
    (s.closeTransport).k = s.k ∧
    (s.closeTransport).hist = s.hist ++ [.close] ∧
    (s.closeTransport).turn = s.turn ∧
    (s.closeTransport).inbox = s.inbox ∧
    (s.closeTransport).sched = s.sched ∧
    (s.closeTransport).answers = s.answers ∧
    (s.closeTransport).draws = s.draws :=
  ⟨rfl, rfl, rfl, rfl, rfl, rfl, rfl, rfl, rfl, rfl, rfl, rfl, rfl, rfl, rfl, rfl, rfl, rfl, rfl, rfl, rfl, rfl, rfl, rfl⟩

/-- `pinOutput` records `PinMode` and writes `pinMode`. -/
@[simp] theorem pinOutput_fields (s : State) :
    (s.pinOutput).profile = s.profile ∧
    (s.pinOutput).tstate = s.tstate ∧
    (s.pinOutput).cfg = s.cfg ∧
    (s.pinOutput).cfgValid = s.cfgValid ∧
    (s.pinOutput).busOpen = s.busOpen ∧
    (s.pinOutput).pinMode = .output ∧
    (s.pinOutput).pinLevel = s.pinLevel ∧
    (s.pinOutput).ctrl = s.ctrl ∧
    (s.pinOutput).deviceId = s.deviceId ∧
    (s.pinOutput).devValid = s.devValid ∧
    (s.pinOutput).stopped = s.stopped ∧
    (s.pinOutput).stopReq = s.stopReq ∧
    (s.pinOutput).owner = s.owner ∧
    (s.pinOutput).pending = s.pending ∧
    (s.pinOutput).rr = s.rr ∧
    (s.pinOutput).outstanding = s.outstanding ∧
    (s.pinOutput).seq = s.seq ∧
    (s.pinOutput).k = s.k ∧
    (s.pinOutput).hist = s.hist ++ [.pinMode] ∧
    (s.pinOutput).turn = s.turn ∧
    (s.pinOutput).inbox = s.inbox ∧
    (s.pinOutput).sched = s.sched ∧
    (s.pinOutput).answers = s.answers ∧
    (s.pinOutput).draws = s.draws :=
  ⟨rfl, rfl, rfl, rfl, rfl, rfl, rfl, rfl, rfl, rfl, rfl, rfl, rfl, rfl, rfl, rfl, rfl, rfl, rfl, rfl, rfl, rfl, rfl, rfl⟩

/-- `pinWrite` records `PinWrite` and writes `pinLevel`. -/
@[simp] theorem pinWrite_fields (s : State) (level : Bool) :
    (s.pinWrite level).profile = s.profile ∧
    (s.pinWrite level).tstate = s.tstate ∧
    (s.pinWrite level).cfg = s.cfg ∧
    (s.pinWrite level).cfgValid = s.cfgValid ∧
    (s.pinWrite level).busOpen = s.busOpen ∧
    (s.pinWrite level).pinMode = s.pinMode ∧
    (s.pinWrite level).pinLevel = (if level then .high else .low) ∧
    (s.pinWrite level).ctrl = s.ctrl ∧
    (s.pinWrite level).deviceId = s.deviceId ∧
    (s.pinWrite level).devValid = s.devValid ∧
    (s.pinWrite level).stopped = s.stopped ∧
    (s.pinWrite level).stopReq = s.stopReq ∧
    (s.pinWrite level).owner = s.owner ∧
    (s.pinWrite level).pending = s.pending ∧
    (s.pinWrite level).rr = s.rr ∧
    (s.pinWrite level).outstanding = s.outstanding ∧
    (s.pinWrite level).seq = s.seq ∧
    (s.pinWrite level).k = s.k ∧
    (s.pinWrite level).hist = s.hist ++ [.pinWrite level] ∧
    (s.pinWrite level).turn = s.turn ∧
    (s.pinWrite level).inbox = s.inbox ∧
    (s.pinWrite level).sched = s.sched ∧
    (s.pinWrite level).answers = s.answers ∧
    (s.pinWrite level).draws = s.draws :=
  ⟨rfl, rfl, rfl, rfl, rfl, rfl, rfl, rfl, rfl, rfl, rfl, rfl, rfl, rfl, rfl, rfl, rfl, rfl, rfl, rfl, rfl, rfl, rfl, rfl⟩

/-- `pinCleanup` records `PinCleanup` and releases the pin. -/
@[simp] theorem pinCleanup_fields (s : State) :
    (s.pinCleanup).profile = s.profile ∧
    (s.pinCleanup).tstate = s.tstate ∧
    (s.pinCleanup).cfg = s.cfg ∧
    (s.pinCleanup).cfgValid = s.cfgValid ∧
    (s.pinCleanup).busOpen = s.busOpen ∧
    (s.pinCleanup).pinMode = .unconfigured ∧
    (s.pinCleanup).pinLevel = .undriven ∧
    (s.pinCleanup).ctrl = s.ctrl ∧
    (s.pinCleanup).deviceId = s.deviceId ∧
    (s.pinCleanup).devValid = s.devValid ∧
    (s.pinCleanup).stopped = s.stopped ∧
    (s.pinCleanup).stopReq = s.stopReq ∧
    (s.pinCleanup).owner = s.owner ∧
    (s.pinCleanup).pending = s.pending ∧
    (s.pinCleanup).rr = s.rr ∧
    (s.pinCleanup).outstanding = s.outstanding ∧
    (s.pinCleanup).seq = s.seq ∧
    (s.pinCleanup).k = s.k ∧
    (s.pinCleanup).hist = s.hist ++ [.pinCleanup] ∧
    (s.pinCleanup).turn = s.turn ∧
    (s.pinCleanup).inbox = s.inbox ∧
    (s.pinCleanup).sched = s.sched ∧
    (s.pinCleanup).answers = s.answers ∧
    (s.pinCleanup).draws = s.draws :=
  ⟨rfl, rfl, rfl, rfl, rfl, rfl, rfl, rfl, rfl, rfl, rfl, rfl, rfl, rfl, rfl, rfl, rfl, rfl, rfl, rfl, rfl, rfl, rfl, rfl⟩

/-- `wait` records one `Wait`. -/
@[simp] theorem wait_fields (s : State) (kind : WaitKind) (ms : Word) :
    (s.wait kind ms).profile = s.profile ∧
    (s.wait kind ms).tstate = s.tstate ∧
    (s.wait kind ms).cfg = s.cfg ∧
    (s.wait kind ms).cfgValid = s.cfgValid ∧
    (s.wait kind ms).busOpen = s.busOpen ∧
    (s.wait kind ms).pinMode = s.pinMode ∧
    (s.wait kind ms).pinLevel = s.pinLevel ∧
    (s.wait kind ms).ctrl = s.ctrl ∧
    (s.wait kind ms).deviceId = s.deviceId ∧
    (s.wait kind ms).devValid = s.devValid ∧
    (s.wait kind ms).stopped = s.stopped ∧
    (s.wait kind ms).stopReq = s.stopReq ∧
    (s.wait kind ms).owner = s.owner ∧
    (s.wait kind ms).pending = s.pending ∧
    (s.wait kind ms).rr = s.rr ∧
    (s.wait kind ms).outstanding = s.outstanding ∧
    (s.wait kind ms).seq = s.seq ∧
    (s.wait kind ms).k = s.k ∧
    (s.wait kind ms).hist = s.hist ++ [.wait kind ms] ∧
    (s.wait kind ms).turn = s.turn ∧
    (s.wait kind ms).inbox = s.inbox ∧
    (s.wait kind ms).sched = s.sched ∧
    (s.wait kind ms).answers = s.answers ∧
    (s.wait kind ms).draws = s.draws :=
  ⟨rfl, rfl, rfl, rfl, rfl, rfl, rfl, rfl, rfl, rfl, rfl, rfl, rfl, rfl, rfl, rfl, rfl, rfl, rfl, rfl, rfl, rfl, rfl, rfl⟩

/-- `respond` records `Resp` and frees the port. -/
@[simp] theorem respond_fields (s : State) (c : Nat) (st : Status) (data : Frame) :
    (s.respond c st data).profile = s.profile ∧
    (s.respond c st data).tstate = s.tstate ∧
    (s.respond c st data).cfg = s.cfg ∧
    (s.respond c st data).cfgValid = s.cfgValid ∧
    (s.respond c st data).busOpen = s.busOpen ∧
    (s.respond c st data).pinMode = s.pinMode ∧
    (s.respond c st data).pinLevel = s.pinLevel ∧
    (s.respond c st data).ctrl = s.ctrl ∧
    (s.respond c st data).deviceId = s.deviceId ∧
    (s.respond c st data).devValid = s.devValid ∧
    (s.respond c st data).stopped = s.stopped ∧
    (s.respond c st data).stopReq = s.stopReq ∧
    (s.respond c st data).owner = s.owner ∧
    (s.respond c st data).pending = s.pending ∧
    (s.respond c st data).rr = s.rr ∧
    (s.respond c st data).outstanding = s.outstanding.set c false ∧
    (s.respond c st data).seq = s.seq ∧
    (s.respond c st data).k = s.k ∧
    (s.respond c st data).hist = s.hist ++ [.resp c (st.code :: data)] ∧
    (s.respond c st data).turn = s.turn ∧
    (s.respond c st data).inbox = s.inbox ∧
    (s.respond c st data).sched = s.sched ∧
    (s.respond c st data).answers = s.answers ∧
    (s.respond c st data).draws = s.draws :=
  ⟨rfl, rfl, rfl, rfl, rfl, rfl, rfl, rfl, rfl, rfl, rfl, rfl, rfl, rfl, rfl, rfl, rfl, rfl, rfl, rfl, rfl, rfl, rfl, rfl⟩

/-- `reply` responds and ends the submission step. -/
@[simp] theorem reply_fields (s : State) (c : Nat) (st : Status) (data : Frame) :
    (s.reply c st data).profile = s.profile ∧
    (s.reply c st data).tstate = s.tstate ∧
    (s.reply c st data).cfg = s.cfg ∧
    (s.reply c st data).cfgValid = s.cfgValid ∧
    (s.reply c st data).busOpen = s.busOpen ∧
    (s.reply c st data).pinMode = s.pinMode ∧
    (s.reply c st data).pinLevel = s.pinLevel ∧
    (s.reply c st data).ctrl = s.ctrl ∧
    (s.reply c st data).deviceId = s.deviceId ∧
    (s.reply c st data).devValid = s.devValid ∧
    (s.reply c st data).stopped = s.stopped ∧
    (s.reply c st data).stopReq = s.stopReq ∧
    (s.reply c st data).owner = s.owner ∧
    (s.reply c st data).pending = s.pending ∧
    (s.reply c st data).rr = s.rr ∧
    (s.reply c st data).outstanding = s.outstanding.set c false ∧
    (s.reply c st data).seq = s.seq ∧
    (s.reply c st data).k = s.k ∧
    (s.reply c st data).hist = s.hist ++ [.resp c (st.code :: data)] ∧
    (s.reply c st data).turn = .sequencer ∧
    (s.reply c st data).inbox = s.inbox ∧
    (s.reply c st data).sched = s.sched ∧
    (s.reply c st data).answers = s.answers ∧
    (s.reply c st data).draws = s.draws :=
  ⟨rfl, rfl, rfl, rfl, rfl, rfl, rfl, rfl, rfl, rfl, rfl, rfl, rfl, rfl, rfl, rfl, rfl, rfl, rfl, rfl, rfl, rfl, rfl, rfl⟩

/-- `finish` responds and releases the lock. -/
@[simp] theorem finish_fields (s : State) (c : Nat) (st : Status) (data : Frame) :
    (s.finish c st data).profile = s.profile ∧
    (s.finish c st data).tstate = s.tstate ∧
    (s.finish c st data).cfg = s.cfg ∧
    (s.finish c st data).cfgValid = s.cfgValid ∧
    (s.finish c st data).busOpen = s.busOpen ∧
    (s.finish c st data).pinMode = s.pinMode ∧
    (s.finish c st data).pinLevel = s.pinLevel ∧
    (s.finish c st data).ctrl = s.ctrl ∧
    (s.finish c st data).deviceId = s.deviceId ∧
    (s.finish c st data).devValid = s.devValid ∧
    (s.finish c st data).stopped = s.stopped ∧
    (s.finish c st data).stopReq = s.stopReq ∧
    (s.finish c st data).owner = none ∧
    (s.finish c st data).pending = s.pending ∧
    (s.finish c st data).rr = s.rr ∧
    (s.finish c st data).outstanding = s.outstanding.set c false ∧
    (s.finish c st data).seq = none ∧
    (s.finish c st data).k = s.k ∧
    (s.finish c st data).hist = s.hist ++ [.resp c (st.code :: data)] ∧
    (s.finish c st data).turn = s.turn ∧
    (s.finish c st data).inbox = s.inbox ∧
    (s.finish c st data).sched = s.sched ∧
    (s.finish c st data).answers = s.answers ∧
    (s.finish c st data).draws = s.draws :=
  ⟨rfl, rfl, rfl, rfl, rfl, rfl, rfl, rfl, rfl, rfl, rfl, rfl, rfl, rfl, rfl, rfl, rfl, rfl, rfl, rfl, rfl, rfl, rfl, rfl⟩

/-- `enterError` writes `tstate` only (R225). -/
@[simp] theorem enterError_fields (s : State) :
    (s.enterError).profile = s.profile ∧
    (s.enterError).tstate = .error ∧
    (s.enterError).cfg = s.cfg ∧
    (s.enterError).cfgValid = s.cfgValid ∧
    (s.enterError).busOpen = s.busOpen ∧
    (s.enterError).pinMode = s.pinMode ∧
    (s.enterError).pinLevel = s.pinLevel ∧
    (s.enterError).ctrl = s.ctrl ∧
    (s.enterError).deviceId = s.deviceId ∧
    (s.enterError).devValid = s.devValid ∧
    (s.enterError).stopped = s.stopped ∧
    (s.enterError).stopReq = s.stopReq ∧
    (s.enterError).owner = s.owner ∧
    (s.enterError).pending = s.pending ∧
    (s.enterError).rr = s.rr ∧
    (s.enterError).outstanding = s.outstanding ∧
    (s.enterError).seq = s.seq ∧
    (s.enterError).k = s.k ∧
    (s.enterError).hist = s.hist ∧
    (s.enterError).turn = s.turn ∧
    (s.enterError).inbox = s.inbox ∧
    (s.enterError).sched = s.sched ∧
    (s.enterError).answers = s.answers ∧
    (s.enterError).draws = s.draws :=
  ⟨rfl, rfl, rfl, rfl, rfl, rfl, rfl, rfl, rfl, rfl, rfl, rfl, rfl, rfl, rfl, rfl, rfl, rfl, rfl, rfl, rfl, rfl, rfl, rfl⟩

/-- `busFail` enters `Error`, responds `01` and releases the lock (R132). -/
@[simp] theorem busFail_fields (s : State) (c : Nat) :
    (s.busFail c).profile = s.profile ∧
    (s.busFail c).tstate = .error ∧
    (s.busFail c).cfg = s.cfg ∧
    (s.busFail c).cfgValid = s.cfgValid ∧
    (s.busFail c).busOpen = s.busOpen ∧
    (s.busFail c).pinMode = s.pinMode ∧
    (s.busFail c).pinLevel = s.pinLevel ∧
    (s.busFail c).ctrl = s.ctrl ∧
    (s.busFail c).deviceId = s.deviceId ∧
    (s.busFail c).devValid = s.devValid ∧
    (s.busFail c).stopped = s.stopped ∧
    (s.busFail c).stopReq = s.stopReq ∧
    (s.busFail c).owner = none ∧
    (s.busFail c).pending = s.pending ∧
    (s.busFail c).rr = s.rr ∧
    (s.busFail c).outstanding = s.outstanding.set c false ∧
    (s.busFail c).seq = none ∧
    (s.busFail c).k = s.k ∧
    (s.busFail c).hist = s.hist ++ [.resp c [0x01#8]] ∧
    (s.busFail c).turn = s.turn ∧
    (s.busFail c).inbox = s.inbox ∧
    (s.busFail c).sched = s.sched ∧
    (s.busFail c).answers = s.answers ∧
    (s.busFail c).draws = s.draws :=
  ⟨rfl, rfl, rfl, rfl, rfl, rfl, rfl, rfl, rfl, rfl, rfl, rfl, rfl, rfl, rfl, rfl, rfl, rfl, rfl, rfl, rfl, rfl, rfl, rfl⟩

/-- `accept` writes `pending` and ends the submission step. -/
@[simp] theorem accept_fields (s : State) (c : Nat) (i : Instr) :
    (s.accept c i).profile = s.profile ∧
    (s.accept c i).tstate = s.tstate ∧
    (s.accept c i).cfg = s.cfg ∧
    (s.accept c i).cfgValid = s.cfgValid ∧
    (s.accept c i).busOpen = s.busOpen ∧
    (s.accept c i).pinMode = s.pinMode ∧
    (s.accept c i).pinLevel = s.pinLevel ∧
    (s.accept c i).ctrl = s.ctrl ∧
    (s.accept c i).deviceId = s.deviceId ∧
    (s.accept c i).devValid = s.devValid ∧
    (s.accept c i).stopped = s.stopped ∧
    (s.accept c i).stopReq = s.stopReq ∧
    (s.accept c i).owner = s.owner ∧
    (s.accept c i).pending = s.pending.set c (some i) ∧
    (s.accept c i).rr = s.rr ∧
    (s.accept c i).outstanding = s.outstanding ∧
    (s.accept c i).seq = s.seq ∧
    (s.accept c i).k = s.k ∧
    (s.accept c i).hist = s.hist ∧
    (s.accept c i).turn = .sequencer ∧
    (s.accept c i).inbox = s.inbox ∧
    (s.accept c i).sched = s.sched ∧
    (s.accept c i).answers = s.answers ∧
    (s.accept c i).draws = s.draws :=
  ⟨rfl, rfl, rfl, rfl, rfl, rfl, rfl, rfl, rfl, rfl, rfl, rfl, rfl, rfl, rfl, rfl, rfl, rfl, rfl, rfl, rfl, rfl, rfl, rfl⟩

/-- `grantTo` records `Grant` and hands over the lock (R194). -/
@[simp] theorem grantTo_fields (s : State) (c : Nat) (i : Instr) :
    (s.grantTo c i).profile = s.profile ∧
    (s.grantTo c i).tstate = s.tstate ∧
    (s.grantTo c i).cfg = s.cfg ∧
    (s.grantTo c i).cfgValid = s.cfgValid ∧
    (s.grantTo c i).busOpen = s.busOpen ∧
    (s.grantTo c i).pinMode = s.pinMode ∧
    (s.grantTo c i).pinLevel = s.pinLevel ∧
    (s.grantTo c i).ctrl = s.ctrl ∧
    (s.grantTo c i).deviceId = s.deviceId ∧
    (s.grantTo c i).devValid = s.devValid ∧
    (s.grantTo c i).stopped = s.stopped ∧
    (s.grantTo c i).stopReq = s.stopReq ∧
    (s.grantTo c i).owner = some c ∧
    (s.grantTo c i).pending = s.pending.set c none ∧
    (s.grantTo c i).rr = c ∧
    (s.grantTo c i).outstanding = s.outstanding ∧
    (s.grantTo c i).seq = some { client := c, cmd := i, pos := .start, answer := .ok [] } ∧
    (s.grantTo c i).k = s.k ∧
    (s.grantTo c i).hist = s.hist ++ [.grant c] ∧
    (s.grantTo c i).turn = s.turn ∧
    (s.grantTo c i).inbox = s.inbox ∧
    (s.grantTo c i).sched = s.sched ∧
    (s.grantTo c i).answers = s.answers ∧
    (s.grantTo c i).draws = s.draws :=
  ⟨rfl, rfl, rfl, rfl, rfl, rfl, rfl, rfl, rfl, rfl, rfl, rfl, rfl, rfl, rfl, rfl, rfl, rfl, rfl, rfl, rfl, rfl, rfl, rfl⟩

/-- `popMove` writes the schedule. -/
@[simp] theorem popMove_fields (s : State) :
    (s.popMove).profile = s.profile ∧
    (s.popMove).tstate = s.tstate ∧
    (s.popMove).cfg = s.cfg ∧
    (s.popMove).cfgValid = s.cfgValid ∧
    (s.popMove).busOpen = s.busOpen ∧
    (s.popMove).pinMode = s.pinMode ∧
    (s.popMove).pinLevel = s.pinLevel ∧
    (s.popMove).ctrl = s.ctrl ∧
    (s.popMove).deviceId = s.deviceId ∧
    (s.popMove).devValid = s.devValid ∧
    (s.popMove).stopped = s.stopped ∧
    (s.popMove).stopReq = s.stopReq ∧
    (s.popMove).owner = s.owner ∧
    (s.popMove).pending = s.pending ∧
    (s.popMove).rr = s.rr ∧
    (s.popMove).outstanding = s.outstanding ∧
    (s.popMove).seq = s.seq ∧
    (s.popMove).k = s.k ∧
    (s.popMove).hist = s.hist ∧
    (s.popMove).turn = s.turn ∧
    (s.popMove).inbox = s.inbox ∧
    (s.popMove).sched = s.sched.tail ∧
    (s.popMove).answers = s.answers ∧
    (s.popMove).draws = s.draws :=
  ⟨rfl, rfl, rfl, rfl, rfl, rfl, rfl, rfl, rfl, rfl, rfl, rfl, rfl, rfl, rfl, rfl, rfl, rfl, rfl, rfl, rfl, rfl, rfl, rfl⟩

/-- `ownTurn` writes `turn`. -/
@[simp] theorem ownTurn_fields (s : State) :
    (s.ownTurn).profile = s.profile ∧
    (s.ownTurn).tstate = s.tstate ∧
    (s.ownTurn).cfg = s.cfg ∧
    (s.ownTurn).cfgValid = s.cfgValid ∧
    (s.ownTurn).busOpen = s.busOpen ∧
    (s.ownTurn).pinMode = s.pinMode ∧
    (s.ownTurn).pinLevel = s.pinLevel ∧
    (s.ownTurn).ctrl = s.ctrl ∧
    (s.ownTurn).deviceId = s.deviceId ∧
    (s.ownTurn).devValid = s.devValid ∧
    (s.ownTurn).stopped = s.stopped ∧
    (s.ownTurn).stopReq = s.stopReq ∧
    (s.ownTurn).owner = s.owner ∧
    (s.ownTurn).pending = s.pending ∧
    (s.ownTurn).rr = s.rr ∧
    (s.ownTurn).outstanding = s.outstanding ∧
    (s.ownTurn).seq = s.seq ∧
    (s.ownTurn).k = s.k ∧
    (s.ownTurn).hist = s.hist ∧
    (s.ownTurn).turn = .sequencer ∧
    (s.ownTurn).inbox = s.inbox ∧
    (s.ownTurn).sched = s.sched ∧
    (s.ownTurn).answers = s.answers ∧
    (s.ownTurn).draws = s.draws :=
  ⟨rfl, rfl, rfl, rfl, rfl, rfl, rfl, rfl, rfl, rfl, rfl, rfl, rfl, rfl, rfl, rfl, rfl, rfl, rfl, rfl, rfl, rfl, rfl, rfl⟩

/-- `takeFrame` records `Submit`, occupies the port and takes the frame off the client's queue (R191). -/
@[simp] theorem takeFrame_fields (s : State) (c : Nat) (f : Frame) (rest : List Frame) :
    (s.takeFrame c f rest).profile = s.profile ∧
    (s.takeFrame c f rest).tstate = s.tstate ∧
    (s.takeFrame c f rest).cfg = s.cfg ∧
    (s.takeFrame c f rest).cfgValid = s.cfgValid ∧
    (s.takeFrame c f rest).busOpen = s.busOpen ∧
    (s.takeFrame c f rest).pinMode = s.pinMode ∧
    (s.takeFrame c f rest).pinLevel = s.pinLevel ∧
    (s.takeFrame c f rest).ctrl = s.ctrl ∧
    (s.takeFrame c f rest).deviceId = s.deviceId ∧
    (s.takeFrame c f rest).devValid = s.devValid ∧
    (s.takeFrame c f rest).stopped = s.stopped ∧
    (s.takeFrame c f rest).stopReq = s.stopReq ∧
    (s.takeFrame c f rest).owner = s.owner ∧
    (s.takeFrame c f rest).pending = s.pending ∧
    (s.takeFrame c f rest).rr = s.rr ∧
    (s.takeFrame c f rest).outstanding = s.outstanding.set c true ∧
    (s.takeFrame c f rest).seq = s.seq ∧
    (s.takeFrame c f rest).k = s.k ∧
    (s.takeFrame c f rest).hist = s.hist ++ [.submit c f] ∧
    (s.takeFrame c f rest).turn = .submission c ∧
    (s.takeFrame c f rest).inbox = s.inbox.set c rest ∧
    (s.takeFrame c f rest).sched = s.sched ∧
    (s.takeFrame c f rest).answers = s.answers ∧
    (s.takeFrame c f rest).draws = s.draws :=
  ⟨rfl, rfl, rfl, rfl, rfl, rfl, rfl, rfl, rfl, rfl, rfl, rfl, rfl, rfl, rfl, rfl, rfl, rfl, rfl, rfl, rfl, rfl, rfl, rfl⟩

/-- `SpiWrite` is one transaction with the bytes of R53. -/
@[simp] theorem spiWrite_eq (s : State) (a : Nat) (bs : Frame) :
    s.spiWrite a bs = s.transfer (writeBytes a bs) := rfl

/-- `SpiRead` is one transaction with the bytes of R54. -/
@[simp] theorem spiRead_eq (s : State) (a n : Nat) :
    s.spiRead a n = s.transfer (readBytes s.profile a n) := rfl

end Sys2Proof.Machine
end

