-- ==== Sys2Proof/Laws/Arbiter.lean ====
section
/-! SUPPORT. The arbiter's search: who is pending, the first client of a range that is, and the
clients in round-robin order (R195, R196). -/

namespace Sys2Proof.Machine

theorem isPending_iff (l : List (Option Instr)) (c : Nat) :
    isPending l c = true ↔ ∃ i, l[c]? = some (some i) := by
  unfold isPending
  cases h : l[c]? with
  | none => simp
  | some o => cases o <;> simp

theorem isPendingStop_iff (l : List (Option Instr)) (c : Nat) :
    isPendingStop l c = true ↔ l[c]? = some (some .stop) := by
  unfold isPendingStop
  cases h : l[c]? with
  | none => simp
  | some o => cases o <;> simp

/-- The least number below `n` with a property. -/
theorem find_range (n : Nat) (p : Nat → Bool) (c : Nat) :
    (List.range n).find? p = some c ↔ c < n ∧ p c = true ∧ ∀ d, d < c → p d = false := by
  rw [List.find?_range_eq_some]
  simp only [List.mem_range, Bool.not_eq_true']
  tauto

/-- The round-robin order visits every client. -/
theorem mem_clientsFrom {m c : Nat} (hc : c < m) (first : Nat) : c ∈ clientsFrom m first := by
  simp only [clientsFrom, List.mem_map, List.mem_range]
  refine ⟨(c + (m - first % m)) % m, Nat.mod_lt _ (by omega), ?_⟩
  have hmod : first % m < m := Nat.mod_lt _ (by omega)
  have hdiv := Nat.mod_add_div first m
  rw [Nat.add_mod_mod]
  have : first + (c + (m - first % m)) = c + m * (first / m + 1) := by
    rw [Nat.mul_add]; omega
  rw [this, Nat.add_mul_mod_self_left, Nat.mod_eq_of_lt hc]

/-- The round-robin order visits nobody else. -/
theorem lt_of_mem_clientsFrom {m c first : Nat} (h : c ∈ clientsFrom m first) : c < m := by
  simp only [clientsFrom, List.mem_map, List.mem_range] at h
  obtain ⟨i, hi, rfl⟩ := h
  exact Nat.mod_lt _ (by omega)

/-- Freeing a port that was free before it was occupied changes nothing. -/
theorem set_set_of_free {l : List Bool} {c : Nat} (h : l[c]? = some false) :
    (l.set c true).set c false = l := by
  have hlt : c < l.length := by
    by_contra hge
    rw [List.getElem?_eq_none (by omega)] at h
    cases h
  apply List.ext_getElem?
  intro d
  by_cases hd : c = d
  · subst hd; rw [List.getElem?_set_self (by simpa using hlt), h]
  · simp [List.getElem?_set_ne hd]

end Sys2Proof.Machine
end

