-- ==== Sys2Proof/Laws/Invariant.lean ====
section
/-! SUPPORT. How the invariant of Safety.lean is kept: one lemma for each shape of a change (a
primitive of the owner, the end of a command, an acceptance, a reply, a submission, a grant), and one
per command body, from which the statements about steps are assembled. -/

namespace Sys2Proof.Machine

/-! ### The history -/

theorem lockOf_append (hist : List Event) (e : Event) :
    lockOf (hist ++ [e]) = (lockOf hist).bind fun holder => lockStep holder e := by
  simp [lockOf]

@[simp] theorem submitCount_append (c : Nat) (hist : List Event) (e : Event) :
    submitCount c (hist ++ [e]) = submitCount c hist + submitCount c [e] := by
  simp [submitCount, List.countP_append]

@[simp] theorem respCount_append (c : Nat) (hist : List Event) (e : Event) :
    respCount c (hist ++ [e]) = respCount c hist + respCount c [e] := by
  simp [respCount, List.countP_append]

theorem counts_of_owners {e : Event} (h : e.isOwners = true) (c : Nat) :
    submitCount c [e] = 0 ∧ respCount c [e] = 0 := by
  cases e <;> simp_all [Event.isOwners, submitCount, respCount]

theorem lockStep_of_owners {e : Event} (h : e.isOwners = true) (c : Nat) :
    lockStep (some c) e = some (some c) := by
  cases e <;> simp_all [Event.isOwners, lockStep]

/-! ### The fields a command's primitives leave alone -/

/-- `t` shares with `s` what only the arbiter and the control commands write. -/
structure SameShared (s t : State) : Prop where
  profile : t.profile = s.profile
  outstanding : t.outstanding = s.outstanding
  pending : t.pending = s.pending
  inbox : t.inbox = s.inbox
  rr : t.rr = s.rr
  ctrl : t.ctrl = s.ctrl
  turn : t.turn = s.turn
  owner : t.owner = s.owner

/-- The clauses of the invariant about the transport, the pin and the configuration. -/
structure RadioInv (t : State) : Prop where
  open_in_use : t.tstate ≠ .uninitialized → t.tstate ≠ .error →
    t.busOpen = true ∨ ∃ q, t.seq = some q ∧ q.cmd = .stop
  idle_cfg : t.tstate ≠ .uninitialized → t.tstate ≠ .error →
    t.cfgValid = true ∨ ∃ q c, t.seq = some q ∧ q.cmd = .init c ∧ q.pos ≠ .start
  stopped_released : t.stopped = true → t.busOpen = false ∧ t.pinMode = .unconfigured
  pin_undriven : t.pinMode = .unconfigured → t.pinLevel = .undriven

theorem Inv.radio {s : State} (h : Inv s) : RadioInv s :=
  ⟨h.open_in_use, h.idle_cfg, h.stopped_released, h.pin_undriven⟩

/-- What holds midway depends on five fields only. -/
theorem Midway_congr {s t : State} (q : Seq) (h3 : t.tstate = s.tstate) (h4 : t.busOpen = s.busOpen)
    (h5 : t.pinMode = s.pinMode) (h7 : t.stopped = s.stopped) (h8 : t.cfgValid = s.cfgValid) :
    Midway t q ↔ Midway s q := by
  unfold Midway Opening
  rw [h3, h4, h5, h7, h8]

/-- The invariant does not look at the schedule, the answers, `k`, `cfg` or the device identity. -/
theorem Inv.congr {s t : State} (h : Inv s) (hs : SameShared s t) (h1 : t.seq = s.seq)
    (h2 : t.hist = s.hist) (h3 : t.tstate = s.tstate) (h4 : t.busOpen = s.busOpen)
    (h5 : t.pinMode = s.pinMode) (h6 : t.pinLevel = s.pinLevel) (h7 : t.stopped = s.stopped)
    (h8 : t.cfgValid = s.cfgValid) : Inv t := by
  obtain ⟨p1, p2, p3, p4, p5, p6, p7, p8⟩ := hs
  constructor <;> simp only [p1, p2, p3, p4, p5, p6, p7, p8, h1, h2, h3, h4, h5, h6, h7, h8]
  · exact h.turn
  · exact h.lengths
  · exact h.rr_lt
  · exact h.lock
  · exact h.owner_outstanding
  · exact h.owner_not_pending
  · exact h.pending_outstanding
  · exact h.pos_fits
  · exact h.quiet
  · intro q hq hp
    exact (Midway_congr q h3 h4 h5 h7 h8).2 (h.midway q hq hp)
  · exact h.open_in_use
  · exact h.idle_cfg
  · exact h.stopped_released
  · exact h.pin_undriven
  · exact h.policy_reserved
  · exact h.tPoll_pos
  · exact h.lock_history
  · exact h.answered

/-- A primitive of the owner keeps the invariant when it moves to a fitting position past the checks
and the clauses about the radio hold. -/
theorem Inv.primitive {s t : State} {q q' : Seq} {e : Event} (h : Inv s) (hq : s.seq = some q)
    (hs : SameShared s t) (hq' : t.seq = some q') (hc : q'.client = q.client)
    (hcmd : q'.cmd = q.cmd) (hh : t.hist = s.hist ++ [e]) (he : e.isOwners = true)
    (hfit : posFits q.cmd q'.pos = true) (hpos : q'.pos ≠ .start) (hmid : Midway t q')
    (hr : RadioInv t) : Inv t := by
  obtain ⟨p1, p2, p3, p4, p5, p6, p7, p8⟩ := hs
  have howner : s.owner = some q.client := by simpa [hq] using h.lock
  constructor
  · rw [p7]; exact h.turn
  · rw [p1, p2, p3, p4]; exact h.lengths
  · rw [p1, p5]; exact h.rr_lt
  · simp [hq', p8, howner, hc]
  · intro a ha; rw [hq'] at ha; cases ha; rw [p2, hc]; exact h.owner_outstanding q hq
  · intro a ha; rw [hq'] at ha; cases ha; rw [p3, hc]; exact h.owner_not_pending q hq
  · rw [p2, p3]; exact h.pending_outstanding
  · intro a ha; rw [hq'] at ha; cases ha; rw [hcmd]; exact ⟨(h.pos_fits q hq).1, hfit⟩
  · intro ha; exact absurd (ha q' hq') hpos
  · intro a ha _; rw [hq'] at ha; cases ha; exact hmid
  · exact hr.open_in_use
  · exact hr.idle_cfg
  · exact hr.stopped_released
  · exact hr.pin_undriven
  · rw [p6]; exact h.policy_reserved
  · rw [p6]; exact h.tPoll_pos
  · rw [hh, lockOf_append, h.lock_history, howner, p8, howner]
    simp [lockStep_of_owners he]
  · intro c
    rw [hh, p2, submitCount_append, respCount_append, (counts_of_owners he c).1,
      (counts_of_owners he c).2]
    exact h.answered c

/-- The end of a command keeps the invariant when it leaves a quiet state whose radio clauses hold. -/
theorem Inv.finished {s t : State} {q : Seq} {f : Frame} (h : Inv s) (hq : s.seq = some q)
    (hprofile : t.profile = s.profile) (hpending : t.pending = s.pending)
    (hinbox : t.inbox = s.inbox) (hrr : t.rr = s.rr) (hturn : t.turn = s.turn)
    (hout : t.outstanding = s.outstanding.set q.client false) (howner : t.owner = none)
    (hseq : t.seq = none) (hh : t.hist = s.hist ++ [.resp q.client f])
    (hquiet : t.tstate.isQuiet = true) (hr : RadioInv t)
    (hpol : t.ctrl.policy &&& 0xFFFFFFFC#32 = 0#32) (hpoll : t.ctrl.tPoll ≠ 0#32) : Inv t := by
  have howner' : s.owner = some q.client := by simpa [hq] using h.lock
  have hqo := h.owner_outstanding q hq
  have hlt : q.client < s.outstanding.length := by
    by_contra hge
    rw [List.getElem?_eq_none (by omega)] at hqo
    exact absurd hqo (by simp)
  constructor
  · rw [hturn]; exact h.turn
  · rw [hprofile, hout, hpending, hinbox, List.length_set]; exact h.lengths
  · rw [hprofile, hrr]; exact h.rr_lt
  · simp [hseq, howner]
  · intro a ha; simp [hseq] at ha
  · intro a ha; simp [hseq] at ha
  · intro c i hci
    rw [hpending] at hci
    have hne : q.client ≠ c := by
      rintro rfl
      rw [h.owner_not_pending q hq] at hci
      simp at hci
    rw [hout, List.getElem?_set_ne hne]
    exact h.pending_outstanding c i hci
  · intro a ha; simp [hseq] at ha
  · intro _; exact hquiet
  · intro a ha; simp [hseq] at ha
  · exact hr.open_in_use
  · exact hr.idle_cfg
  · exact hr.stopped_released
  · exact hr.pin_undriven
  · exact hpol
  · exact hpoll
  · rw [hh, lockOf_append, h.lock_history, howner', howner]
    simp [lockStep]
  · intro c
    rw [hh, submitCount_append, respCount_append, hout]
    have hans := h.answered c
    by_cases hc : q.client = c
    · subst hc
      rw [if_pos hqo] at hans
      simp [submitCount, respCount, hlt] at hans ⊢
      omega
    · rw [List.getElem?_set_ne hc]
      simp [submitCount, respCount, hc] at hans ⊢
      omega

/-- The acceptance of an arbitrated command in its submission step. -/
theorem Inv.accepted {s t : State} {c : Nat} {f : Frame} {i : Instr} (h : Inv s)
    (hidle : s.outstanding[c]? = some false) (hi : i.kind = .arbitrated)
    (hprofile : t.profile = s.profile) (hpending : t.pending = s.pending.set c (some i))
    (hinbox : t.inbox.length = s.inbox.length) (hrr : t.rr = s.rr) (hturn : t.turn = .sequencer)
    (hout : t.outstanding = s.outstanding.set c true) (howner : t.owner = s.owner)
    (hseq : t.seq = s.seq) (hh : t.hist = s.hist ++ [.submit c f]) (hctrl : t.ctrl = s.ctrl)
    (h3 : t.tstate = s.tstate) (h4 : t.busOpen = s.busOpen)
    (h5 : t.pinMode = s.pinMode) (h6 : t.pinLevel = s.pinLevel) (h7 : t.stopped = s.stopped)
    (h8 : t.cfgValid = s.cfgValid) : Inv t := by
  have hlt : c < s.outstanding.length := by
    by_contra hge
    rw [List.getElem?_eq_none (by omega)] at hidle
    exact absurd hidle (by simp)
  have hnq : ∀ q, s.seq = some q → c ≠ q.client := by
    rintro q hq rfl
    rw [h.owner_outstanding q hq] at hidle
    simp at hidle
  constructor
  · exact hturn
  · rw [hprofile, hout, hpending, hinbox, List.length_set, List.length_set]; exact h.lengths
  · rw [hprofile, hrr]; exact h.rr_lt
  · rw [howner, hseq]; exact h.lock
  · intro a ha; rw [hseq] at ha; rw [hout, List.getElem?_set_ne (hnq a ha)]
    exact h.owner_outstanding a ha
  · intro a ha; rw [hseq] at ha; rw [hpending, List.getElem?_set_ne (hnq a ha)]
    exact h.owner_not_pending a ha
  · intro d j hdj
    rw [hpending] at hdj
    by_cases hcd : c = d
    · subst hcd
      have hlp : c < s.pending.length := by
        have := h.lengths; omega
      rw [List.getElem?_set_self hlp] at hdj
      simp only [Option.some.injEq] at hdj
      subst hdj
      exact ⟨by rw [hout, List.getElem?_set_self hlt], hi⟩
    · rw [List.getElem?_set_ne hcd] at hdj
      rw [hout, List.getElem?_set_ne hcd]
      exact h.pending_outstanding d j hdj
  · rw [hseq]; exact h.pos_fits
  · rw [hseq, h3]; exact h.quiet
  · intro a ha hp
    rw [hseq] at ha
    exact (Midway_congr a h3 h4 h5 h7 h8).2 (h.midway a ha hp)
  · rw [h3, h4, hseq]; exact h.open_in_use
  · rw [h3, h8, hseq]; exact h.idle_cfg
  · rw [h7, h4, h5]; exact h.stopped_released
  · rw [h5, h6]; exact h.pin_undriven
  · rw [hctrl]; exact h.policy_reserved
  · rw [hctrl]; exact h.tPoll_pos
  · rw [hh, lockOf_append, h.lock_history, howner, h.lock]
    cases hq : s.seq with
    | none => simp [lockStep]
    | some q => simp [lockStep, hnq q hq]
  · intro d
    rw [hh, submitCount_append, respCount_append, hout]
    have hans := h.answered d
    by_cases hcd : c = d
    · subst hcd
      rw [hidle] at hans
      simp [submitCount, respCount, hlt] at hans ⊢
      omega
    · rw [List.getElem?_set_ne hcd]
      simp [submitCount, respCount, hcd] at hans ⊢
      omega

/-- A submission step that completes an immediate command. -/
theorem Inv.replied {s t : State} {c : Nat} {f r : Frame} (h : Inv s)
    (hidle : s.outstanding[c]? = some false)
    (hprofile : t.profile = s.profile) (hpending : t.pending = s.pending)
    (hinbox : t.inbox.length = s.inbox.length) (hrr : t.rr = s.rr) (hturn : t.turn = .sequencer)
    (hout : t.outstanding = (s.outstanding.set c true).set c false) (howner : t.owner = s.owner)
    (hseq : t.seq = s.seq) (hh : t.hist = s.hist ++ [.submit c f] ++ [.resp c r])
    (hctrl : t.ctrl = s.ctrl) (h3 : t.tstate = s.tstate) (h4 : t.busOpen = s.busOpen)
    (h5 : t.pinMode = s.pinMode) (h6 : t.pinLevel = s.pinLevel) (h7 : t.stopped = s.stopped)
    (h8 : t.cfgValid = s.cfgValid) : Inv t := by
  have hlt : c < s.outstanding.length := by
    by_contra hge
    rw [List.getElem?_eq_none (by omega)] at hidle
    exact absurd hidle (by simp)
  have hnq : ∀ q, s.seq = some q → c ≠ q.client := by
    rintro q hq rfl
    rw [h.owner_outstanding q hq] at hidle
    simp at hidle
  have hout' : t.outstanding = s.outstanding := by
    rw [hout]
    apply List.ext_getElem?
    intro d
    by_cases hcd : c = d
    · subst hcd
      rw [List.getElem?_set_self (by simpa using hlt), hidle]
    · simp [List.getElem?_set_ne hcd]
  constructor
  · exact hturn
  · rw [hprofile, hout', hpending, hinbox]; exact h.lengths
  · rw [hprofile, hrr]; exact h.rr_lt
  · rw [howner, hseq]; exact h.lock
  · rw [hseq, hout']; exact h.owner_outstanding
  · rw [hseq, hpending]; exact h.owner_not_pending
  · rw [hpending, hout']; exact h.pending_outstanding
  · rw [hseq]; exact h.pos_fits
  · rw [hseq, h3]; exact h.quiet
  · intro a ha hp
    rw [hseq] at ha
    exact (Midway_congr a h3 h4 h5 h7 h8).2 (h.midway a ha hp)
  · rw [h3, h4, hseq]; exact h.open_in_use
  · rw [h3, h8, hseq]; exact h.idle_cfg
  · rw [h7, h4, h5]; exact h.stopped_released
  · rw [h5, h6]; exact h.pin_undriven
  · rw [hctrl]; exact h.policy_reserved
  · rw [hctrl]; exact h.tPoll_pos
  · rw [hh, lockOf_append, lockOf_append, h.lock_history, howner, h.lock]
    cases hq : s.seq with
    | none => simp [lockStep]
    | some q => simp [lockStep, hnq q hq]
  · intro d
    rw [hh, hout', submitCount_append, respCount_append, submitCount_append, respCount_append]
    have hans := h.answered d
    by_cases hcd : c = d <;> simp [submitCount, respCount, hcd] at hans ⊢ <;> omega

/-- Every arbitrated command begins at `start`. -/
theorem posFits_start {i : Instr} (h : i.kind = .arbitrated) : posFits i .start = true := by
  cases i <;> first | rfl | cases h

/-- The grant step (R194). -/
theorem Inv.granted {s : State} {c : Nat} {i : Instr} (h : Inv s) (hq : s.seq = none)
    (hc : s.pending[c]? = some (some i)) : Inv (s.grantTo c i) := by
  have hout := h.pending_outstanding c i hc
  have hlt : c < s.pending.length := by
    by_contra hge
    rw [List.getElem?_eq_none (by omega)] at hc
    exact absurd hc (by simp)
  have howner : s.owner = none := by simpa [hq] using h.lock
  constructor
  · simpa using h.turn
  · simpa using h.lengths
  · simp only [grantTo_fields]
    have := h.lengths; omega
  · simp
  · intro a ha; simp at ha; subst ha; simpa using hout.1
  · intro a ha; simp at ha; subst ha; simp [hlt]
  · intro d j hdj
    simp only [grantTo_fields] at hdj ⊢
    by_cases hcd : c = d
    · subst hcd; simp [hlt] at hdj
    · rw [List.getElem?_set_ne hcd] at hdj; exact h.pending_outstanding d j hdj
  · intro a ha; simp at ha; subst ha
    exact ⟨hout.2, posFits_start hout.2⟩
  · intro _; simpa using h.quiet (by simp [hq])
  · intro a ha hp; simp at ha; subst ha; simp at hp
  · intro h1 h2
    have := h.open_in_use h1 h2
    left; simpa [hq] using this
  · intro h1 h2
    have := h.idle_cfg h1 h2
    left; simpa [hq] using this
  · simpa using h.stopped_released
  · simpa using h.pin_undriven
  · simpa using h.policy_reserved
  · simpa using h.tPoll_pos
  · simp [lockOf_append, h.lock_history, howner, lockStep]
  · intro d
    have := h.answered d
    simpa [submitCount, respCount] using this

end Sys2Proof.Machine
end

