-- ==== Sys2Proof/Laws/Bodies.lean ====
section
/-! SUPPORT. Every body of an arbitrated command keeps the invariant, one lemma per body, from the
lemmas about the shape of a change in Laws/Invariant.lean. -/

namespace Sys2Proof.Machine

variable {s : State} {q : Seq}

/-! ### The running command's record after a primitive -/

theorem seq_goto (h : s.seq = some q) (pos : Pos) :
    (s.goto pos).seq = some { q with pos := pos } := by simp [h]

theorem seq_transfer (h : s.seq = some q) (out : Frame) :
    (s.transfer out).seq = some { q with answer := s.nextAnswer out.length } := by simp [h]

theorem seq_openTransport (h : s.seq = some q) :
    s.openTransport.seq = some { q with answer := s.nextAnswer 0 } := by simp [h]

theorem seq_setClock (h : s.seq = some q) :
    s.setClock.seq = some { q with answer := s.nextAnswer 0 } := by simp [h]

theorem seq_wait (h : s.seq = some q) (kind : WaitKind) (ms : Word) :
    (s.wait kind ms).seq = some q := by simp [h]

theorem seq_closeTransport (h : s.seq = some q) : s.closeTransport.seq = some q := by simp [h]

theorem seq_pinOutput (h : s.seq = some q) : s.pinOutput.seq = some q := by simp [h]

theorem seq_pinWrite (h : s.seq = some q) (level : Bool) : (s.pinWrite level).seq = some q := by
  simp [h]

theorem seq_pinCleanup (h : s.seq = some q) : s.pinCleanup.seq = some q := by simp [h]

/-! ### What a primitive shares with the state before it -/

namespace SameShared

variable {s t : State}

theorem refl (s : State) : SameShared s s := ⟨rfl, rfl, rfl, rfl, rfl, rfl, rfl, rfl⟩

theorem goto (h : SameShared s t) (pos : Pos) : SameShared s (t.goto pos) := by
  obtain ⟨p1, p2, p3, p4, p5, p6, p7, p8⟩ := h
  constructor <;> simp [*]

theorem transfer (h : SameShared s t) (out : Frame) : SameShared s (t.transfer out) := by
  obtain ⟨p1, p2, p3, p4, p5, p6, p7, p8⟩ := h
  constructor <;> simp [*]

theorem openTransport (h : SameShared s t) : SameShared s t.openTransport := by
  obtain ⟨p1, p2, p3, p4, p5, p6, p7, p8⟩ := h
  constructor <;> simp [*]

theorem setClock (h : SameShared s t) : SameShared s t.setClock := by
  obtain ⟨p1, p2, p3, p4, p5, p6, p7, p8⟩ := h
  constructor <;> simp [*]

theorem closeTransport (h : SameShared s t) : SameShared s t.closeTransport := by
  obtain ⟨p1, p2, p3, p4, p5, p6, p7, p8⟩ := h
  constructor <;> simp [*]

theorem wait (h : SameShared s t) (kind : WaitKind) (ms : Word) :
    SameShared s (t.wait kind ms) := by
  obtain ⟨p1, p2, p3, p4, p5, p6, p7, p8⟩ := h
  constructor <;> simp [*]

theorem pinOutput (h : SameShared s t) : SameShared s t.pinOutput := by
  obtain ⟨p1, p2, p3, p4, p5, p6, p7, p8⟩ := h
  constructor <;> simp [*]

theorem pinWrite (h : SameShared s t) (level : Bool) : SameShared s (t.pinWrite level) := by
  obtain ⟨p1, p2, p3, p4, p5, p6, p7, p8⟩ := h
  constructor <;> simp [*]

theorem pinCleanup (h : SameShared s t) : SameShared s t.pinCleanup := by
  obtain ⟨p1, p2, p3, p4, p5, p6, p7, p8⟩ := h
  constructor <;> simp [*]

end SameShared

/-! ### The ends of a command -/

/-- Ending a command in `Error` (R132, R220). -/
theorem Inv.errorFinish (h : Inv s) (hq : s.seq = some q) (st : Status) (data : Frame) :
    Inv (s.enterError.finish q.client st data) :=
  h.finished hq rfl rfl rfl rfl rfl rfl rfl rfl rfl rfl
    ⟨fun _ he => absurd rfl he, fun _ he => absurd rfl he, h.stopped_released, h.pin_undriven⟩
    h.policy_reserved h.tPoll_pos

/-- Ending a command with everything else as it is, from a quiet state. -/
theorem Inv.plainFinish (h : Inv s) (hq : s.seq = some q) (hquiet : s.tstate.isQuiet = true)
    (hstop : q.cmd ≠ .stop) (hinit : ∀ c, q.cmd = .init c → q.pos = .start) (st : Status)
    (data : Frame) : Inv (s.finish q.client st data) := by
  refine h.finished hq rfl rfl rfl rfl rfl rfl rfl rfl rfl hquiet
    ⟨fun h1 h2 => ?_, fun h1 h2 => ?_, h.stopped_released, h.pin_undriven⟩
    h.policy_reserved h.tPoll_pos
  · rcases h.open_in_use h1 h2 with ho | ⟨q', hq', hc⟩
    · exact Or.inl ho
    · rw [hq] at hq'; cases hq'; exact absurd hc hstop
  · rcases h.idle_cfg h1 h2 with ho | ⟨q', c, hq', hc, hp⟩
    · exact Or.inl ho
    · rw [hq] at hq'; cases hq'; exact absurd (hinit c hc) hp

/-- Turning a command away at its checks (R130). -/
theorem Inv.turnedAway (h : Inv s) (hq : s.seq = some q) (hpos : q.pos = .start)
    (hstop : q.cmd ≠ .stop) (st : Status) : Inv (s.finish q.client st []) :=
  h.plainFinish hq (h.quiet fun q' hq' => by rw [hq] at hq'; cases hq'; exact hpos) hstop
    (fun _ _ => hpos) st []

/-- Ending in `Idle` a command that ran in `Transmitting` or `Receiving` (R138, R139). -/
theorem Inv.idleFinish (h : Inv s) (hq : s.seq = some q) (hbusy : s.tstate.isQuiet = false)
    (hstop : q.cmd ≠ .stop) (hinit : ∀ c, q.cmd ≠ .init c) (st : Status) (data : Frame) :
    Inv ({ s with tstate := .idle }.finish q.client st data) := by
  have h1 : s.tstate ≠ .uninitialized := by intro hc; simp [hc, TState.isQuiet] at hbusy
  have h2 : s.tstate ≠ .error := by intro hc; simp [hc, TState.isQuiet] at hbusy
  refine h.finished hq rfl rfl rfl rfl rfl rfl rfl rfl rfl rfl
    ⟨fun _ _ => ?_, fun _ _ => ?_, h.stopped_released, h.pin_undriven⟩
    h.policy_reserved h.tPoll_pos
  · rcases h.open_in_use h1 h2 with ho | ⟨q', hq', hc⟩
    · exact Or.inl ho
    · rw [hq] at hq'; cases hq'; exact absurd hc hstop
  · rcases h.idle_cfg h1 h2 with ho | ⟨q', c, hq', hc, hp⟩
    · exact Or.inl ho
    · rw [hq] at hq'; cases hq'; exact absurd hc (hinit c)

/-! ### One lemma per body -/

/-- `Close` after a failed clock set (R131): the handle was never in use. -/
theorem closeHandle_inv (h : Inv s) (hq : s.seq = some q)
    (hstop : q.cmd ≠ .stop) (hfit : posFits q.cmd .released = true)
    (hclosed : s.busOpen = false) (hstopped : s.stopped = false)
    (hmid : Midway (s.closeTransport.goto .released) { q with pos := .released }) :
    Inv (s.closeTransport.goto .released) := by
  have hseq := seq_goto (seq_closeTransport hq) .released
  have habs : s.tstate ≠ .uninitialized → s.tstate ≠ .error → False := by
    intro h1 h2
    rcases h.open_in_use h1 h2 with ho | ⟨q', hq', hc⟩
    · rw [hclosed] at ho; cases ho
    · rw [hq] at hq'; cases hq'; exact hstop hc
  refine h.primitive hq ((SameShared.refl s).closeTransport.goto _) hseq rfl rfl (e := .close)
    (by simp) rfl hfit (by simp) hmid ⟨fun h1 h2 => ?_, fun h1 h2 => ?_, fun hs => ?_,
    by simpa using h.pin_undriven⟩
  · simp at h1 h2; exact (habs h1 h2).elim
  · simp at h1 h2; exact (habs h1 h2).elim
  · simp [hstopped] at hs

/-- Nothing is opening once the pulse has begun. -/
theorem opening_past (hp : q.pos.isPulse = true) : Opening s q := by
  cases hpos : q.pos <;> simp_all [Opening, Pos.isPulse]

/-- The reset pulse's first primitive (R134). -/
theorem beginReset_inv (h : Inv s) (hq : s.seq = some q) {cfg : RadioConfig}
    (hcmd : q.cmd = .init cfg) (hopen : s.busOpen = true) (hquiet : s.tstate.isQuiet = true)
    {t : State} (hs : SameShared s t) (hq0 : t.seq = some q) (hh : t.hist = s.hist)
    (h3 : t.tstate = s.tstate) (h4 : t.busOpen = s.busOpen) (h5 : t.pinMode = s.pinMode)
    (h7 : t.stopped = false) (h8 : t.cfgValid = false) : Inv t.beginReset := by
  unfold State.beginReset
  split
  · have hseq := seq_goto (seq_pinOutput hq0) .pinLow
    refine h.primitive hq (hs.pinOutput.goto _) hseq rfl rfl (e := .pinMode) (by simp [hh]) rfl
      (by rw [hcmd]; rfl) (by simp) ?_
      ⟨fun _ _ => ?_, fun _ _ => Or.inr ⟨_, cfg, hseq, hcmd, by simp⟩, fun hs => ?_,
        fun hp => ?_⟩
    · simp [Midway, hcmd, h7, h8, h3, h4, hquiet, hopen, Opening]
    · left; simp [h4, hopen]
    · simp [h7] at hs
    · simp at hp
  · rename_i hpin
    have hpin' : t.pinMode = .output := by
      cases hm : t.pinMode <;> simp_all
    have hseq := seq_goto (seq_pinWrite hq0 false) .holdLow
    refine h.primitive hq ((hs.pinWrite false).goto _) hseq rfl rfl (e := .pinWrite false)
      (by simp [hh]) rfl (by rw [hcmd]; rfl) (by simp) ?_
      ⟨fun _ _ => ?_, fun _ _ => Or.inr ⟨_, cfg, hseq, hcmd, by simp⟩, fun hs => ?_,
        fun hp => ?_⟩
    · simp [Midway, hcmd, h7, h8, h3, h4, hquiet, hopen, hpin', Opening]
    · left; simp [h4, hopen]
    · simp [h7] at hs
    · simp [hpin'] at hp

/-- The primitives of the pulse and the configuration writes keep the invariant (R134, R135). -/
theorem pulse_inv (h : Inv s) (hq : s.seq = some q) {cfg : RadioConfig} (hcmd : q.cmd = .init cfg)
    (hp : q.pos.isPulse = true) {t : State} {q' : Seq} {e : Event} (hs : SameShared s t)
    (hseq : t.seq = some q') (hc : q'.client = q.client) (hcmd' : q'.cmd = q.cmd)
    (hp' : q'.pos.isPulse = true) (hh : t.hist = s.hist ++ [e]) (he : e.isOwners = true)
    (h3 : t.tstate = s.tstate) (h4 : t.busOpen = s.busOpen) (h5 : t.pinMode = s.pinMode)
    (h7 : t.stopped = s.stopped) (h8 : t.cfgValid = s.cfgValid) : Inv t := by
  have hmid := h.midway q hq (by intro hc; rw [hc] at hp; cases hp)
  unfold Midway at hmid
  rw [hcmd] at hmid
  obtain ⟨m1, m2, m3, -, m4⟩ := hmid
  obtain ⟨m5, m6⟩ := m4 hp
  have hne : q'.pos ≠ .start := by intro hc; rw [hc] at hp'; cases hp'
  have hfit : posFits q.cmd q'.pos = true := by
    rw [hcmd]
    cases hpos : q'.pos <;> first | rfl | (rw [hpos] at hp'; cases hp')
  have hmid' : Midway t q' := by
    unfold Midway
    rw [hcmd', hcmd]
    exact ⟨h7.trans m1, h8.trans m2, h3 ▸ m3, opening_past hp',
      fun _ => ⟨h4.trans m5, h5.trans m6⟩⟩
  refine h.primitive hq hs hseq hc hcmd' hh he hfit hne hmid'
    ⟨fun _ _ => Or.inl (h4.trans m5),
      fun _ _ => Or.inr ⟨q', cfg, hseq, hcmd'.trans hcmd, hne⟩, fun hs => ?_, fun hm => ?_⟩
  · rw [h7, m1] at hs; cases hs
  · rw [h5, m6] at hm; cases hm

/-- `Open` as the first primitive of `INIT` (R131). -/
theorem initOpen_inv (h : Inv s) (hq : s.seq = some q) {cfg : RadioConfig}
    (hcmd : q.cmd = .init cfg) (hquiet : s.tstate.isQuiet = true) (ho : s.busOpen = false)
    {t : State} (hs : SameShared s t) (hq0 : t.seq = some q) (hh : t.hist = s.hist)
    (h3 : t.tstate = s.tstate) (h4 : t.busOpen = s.busOpen) (h5 : t.pinMode = s.pinMode)
    (h6 : t.pinLevel = s.pinLevel) (h7 : t.stopped = false) (h8 : t.cfgValid = false) :
    Inv (t.openTransport.goto .opened) := by
  have hseq := seq_goto (seq_openTransport hq0) .opened
  refine h.primitive hq (hs.openTransport.goto _) hseq rfl rfl
    (e := .openBus t.profile.busId t.profile.devId (t.nextAnswer 0).isOk) (by simp [hh]) rfl
    (by rw [hcmd]; rfl) (by simp) ?_
    ⟨fun h1 h2 => ?_, fun _ _ => Or.inr ⟨_, cfg, hseq, hcmd, by simp⟩,
      fun hs => ?_, by simpa [h5, h6] using h.pin_undriven⟩
  · simp [Midway, hcmd, h7, h8, h3, h4, hquiet, Pos.isPulse, Opening, ho]
  · simp [h3] at h1 h2
    rcases h.open_in_use h1 h2 with ho' | ⟨q', hq', hc⟩
    · rw [ho] at ho'; cases ho'
    · rw [hq] at hq'; cases hq'; rw [hcmd] at hc; cases hc
  · simp [h7] at hs

/-- `INIT` at its checks and its first primitive (R133). -/
theorem initStart_inv (h : Inv s) (hq : s.seq = some q) {cfg : RadioConfig}
    (hcmd : q.cmd = .init cfg) (hpos : q.pos = .start) : Inv (initStart cfg q s) := by
  have hquiet : s.tstate.isQuiet = true :=
    h.quiet fun q' hq' => by rw [hq] at hq'; cases hq'; exact hpos
  have hstop : q.cmd ≠ .stop := by rw [hcmd]; simp
  unfold initStart
  split
  · exact h.turnedAway hq hpos hstop _
  split
  · exact h.turnedAway hq hpos hstop _
  split
  · rename_i ho; exact beginReset_inv h hq hcmd ho hquiet
      ⟨rfl, rfl, rfl, rfl, rfl, rfl, rfl, rfl⟩ hq rfl rfl rfl rfl rfl rfl
  · rename_i ho; exact initOpen_inv h hq hcmd hquiet (by simpa using ho)
      ⟨rfl, rfl, rfl, rfl, rfl, rfl, rfl, rfl⟩ hq rfl rfl rfl rfl rfl rfl rfl

/-- `SetClock` (R131). -/
theorem initClock_inv (h : Inv s) (hq : s.seq = some q) {cfg : RadioConfig}
    (hcmd : q.cmd = .init cfg) (hpos : q.pos = .opened) : Inv (s.setClock.goto .clocked) := by
  have hmid := h.midway q hq (by rw [hpos]; simp)
  unfold Midway at hmid
  rw [hcmd] at hmid
  obtain ⟨m1, m2, m3, m4, -⟩ := hmid
  have hclosed := m4.1 (Or.inl hpos)
  have hseq := seq_goto (seq_setClock hq) .clocked
  refine h.primitive hq ((SameShared.refl s).setClock.goto _) hseq rfl rfl
    (e := .setClock s.profile.spiHz (s.nextAnswer 0).isOk) (by simp) rfl
    (by rw [hcmd]; rfl) (by simp) ?_ ⟨fun h1 h2 => ?_, fun _ _ =>
    Or.inr ⟨_, cfg, hseq, hcmd, by simp⟩, fun hs => ?_, by simpa using h.pin_undriven⟩
  · simp only [Midway, hcmd, goto_fields, setClock_fields]
    exact ⟨m1, m2, m3, by simp [Opening, hclosed], by simp [Pos.isPulse]⟩
  · simp at h1 h2
    rcases h.open_in_use h1 h2 with ho' | ⟨q', hq', hc⟩
    · left; simp [ho']
    · rw [hq] at hq'; cases hq'; rw [hcmd] at hc; cases hc
  · simp [m1] at hs

/-- After the clock was set: the reset pulse begins (R131, R134). -/
theorem initReset_inv (h : Inv s) (hq : s.seq = some q) {cfg : RadioConfig}
    (hcmd : q.cmd = .init cfg) (hpos : q.pos = .clocked) (hok : q.answer.isOk = true) :
    Inv s.beginReset := by
  have hmid := h.midway q hq (by rw [hpos]; simp)
  unfold Midway at hmid
  rw [hcmd] at hmid
  obtain ⟨m1, m2, m3, m4, -⟩ := hmid
  exact beginReset_inv h hq hcmd ((m4.2 hpos).trans hok) m3 (SameShared.refl s) hq rfl rfl rfl rfl m1 m2

/-- The end of `INIT` (R133). -/
theorem initDone_inv (h : Inv s) (hq : s.seq = some q) {cfg : RadioConfig}
    (hcmd : q.cmd = .init cfg) (hp : q.pos.isPulse = true) : Inv (initDone cfg q s) := by
  have hmid := h.midway q hq (by intro hc; rw [hc] at hp; cases hp)
  unfold Midway at hmid
  rw [hcmd] at hmid
  obtain ⟨m1, -, -, -, m4⟩ := hmid
  obtain ⟨m5, m6⟩ := m4 hp
  unfold initDone
  refine h.finished hq (by simp) (by simp) (by simp) (by simp) (by simp) (by simp) (by simp)
    (by simp) (by simp; rfl) rfl ⟨fun _ _ => ?_, fun _ _ => ?_, fun hs => ?_, fun hm => ?_⟩
    (by simpa using h.policy_reserved) (by simpa using h.tPoll_pos)
  · left; simpa using m5
  · left; simp
  · simp [m1] at hs
  · simp [m6] at hm

theorem initBody_inv (h : Inv s) (hq : s.seq = some q) {cfg : RadioConfig}
    (hcmd : q.cmd = .init cfg) : Inv (initBody cfg q s) := by
  unfold initBody
  split
  · rename_i hpos; exact initStart_inv h hq hcmd hpos
  · rename_i hpos
    split
    · exact initClock_inv h hq hcmd hpos
    · exact h.errorFinish hq _ _
  · rename_i hpos
    split
    · rename_i hok; exact initReset_inv h hq hcmd hpos hok
    · rename_i hok
      have hmid := h.midway q hq (by rw [hpos]; simp)
      unfold Midway at hmid
      rw [hcmd] at hmid
      obtain ⟨m1, m2, m3, m4, -⟩ := hmid
      refine closeHandle_inv h hq (by rw [hcmd]; simp) (by rw [hcmd]; rfl)
        ((m4.2 hpos).trans (by simpa using hok)) m1 ?_
      simp [Midway, hcmd, m1, m2, m3, Opening, Pos.isPulse]
  · exact h.errorFinish hq _ _
  · rename_i hpos
    exact pulse_inv h hq hcmd (by rw [hpos]; rfl) (((SameShared.refl s).pinWrite _).goto _)
      (seq_goto (seq_pinWrite hq _) _) rfl rfl rfl (e := .pinWrite false) (by simp) rfl (by simp)
      (by simp) (by simp) (by simp) (by simp)
  · rename_i hpos
    exact pulse_inv h hq hcmd (by rw [hpos]; rfl) (((SameShared.refl s).wait _ _).goto _)
      (seq_goto (seq_wait hq _ _) _) rfl rfl rfl (e := .wait .rstLow s.ctrl.tRstLow) (by simp) rfl
      (by simp) (by simp) (by simp) (by simp) (by simp)
  · rename_i hpos
    exact pulse_inv h hq hcmd (by rw [hpos]; rfl) (((SameShared.refl s).pinWrite _).goto _)
      (seq_goto (seq_pinWrite hq _) _) rfl rfl rfl (e := .pinWrite true) (by simp) rfl (by simp)
      (by simp) (by simp) (by simp) (by simp)
  · rename_i hpos
    exact pulse_inv h hq hcmd (by rw [hpos]; rfl) (((SameShared.refl s).wait _ _).goto _)
      (seq_goto (seq_wait hq _ _) _) rfl rfl rfl (e := .wait .rstHigh s.ctrl.tRstHigh) (by simp)
      rfl (by simp) (by simp) (by simp) (by simp) (by simp)
  · rename_i n hpos
    have hp : q.pos.isPulse = true := by rw [hpos]; rfl
    split
    · unfold initWrite
      split
      · rename_i w hw
        rw [spiWrite_eq]
        exact pulse_inv h hq hcmd hp (((SameShared.refl s).transfer _).goto _)
          (seq_goto (seq_transfer hq _) _) rfl rfl rfl
          (e := .xfer (writeBytes w.1 w.2) (s.nextAnswer (writeBytes w.1 w.2).length)) (by simp)
          rfl (by simp) (by simp) (by simp) (by simp) (by simp)
      · exact initDone_inv h hq hcmd hp
    · exact h.errorFinish hq _ _
  · exact h

/-! ### DETECT -/

/-- Only the tstate matters to the radio clauses when a command without one of its own continues. -/
theorem Inv.radioSame (h : Inv s) (hq : s.seq = some q) (hstop : q.cmd ≠ .stop)
    (hinit : ∀ c, q.cmd ≠ .init c) {t : State} (h3 : t.tstate = s.tstate)
    (h4 : t.busOpen = s.busOpen ∨ t.busOpen = true) (h5 : t.pinMode = s.pinMode)
    (h6 : t.pinLevel = s.pinLevel) (h7 : t.stopped = s.stopped) (h8 : t.cfgValid = s.cfgValid)
    (hs : s.stopped = true → t.busOpen = s.busOpen) : RadioInv t := by
  refine ⟨fun h1 h2 => Or.inl ?_, fun h1 h2 => Or.inl ?_, fun hst => ?_, by rw [h5, h6]; exact h.pin_undriven⟩
  · rw [h3] at h1 h2
    rcases h.open_in_use h1 h2 with ho | ⟨q', hq', hc⟩
    · rcases h4 with h4 | h4
      · exact h4.trans ho
      · exact h4
    · rw [hq] at hq'; cases hq'; exact absurd hc hstop
  · rw [h3] at h1 h2
    rcases h.idle_cfg h1 h2 with ho | ⟨q', c, hq', hc, hp⟩
    · exact h8.trans ho
    · rw [hq] at hq'; cases hq'; exact absurd hc (hinit c)
  · rw [h7] at hst
    exact ⟨(hs hst).trans (h.stopped_released hst).1, h5.trans (h.stopped_released hst).2⟩

/-- The version read (R137). -/
theorem detectRead_inv (h : Inv s) (hq : s.seq = some q) (hcmd : q.cmd = .detect)
    (hopen : s.busOpen = true) (hstopped : s.stopped = false)
    (hst : s.tstate = .uninitialized ∨ s.tstate = .idle) : Inv (detectRead s) := by
  unfold detectRead
  rw [spiRead_eq]
  have hseq := seq_goto (seq_transfer hq (readBytes s.profile s.profile.regVersion 1)) .version
  refine h.primitive hq (((SameShared.refl s).transfer _).goto _) hseq rfl rfl
    (e := .xfer (readBytes s.profile s.profile.regVersion 1)
      (s.nextAnswer (readBytes s.profile s.profile.regVersion 1).length)) (by simp) rfl
    (by rw [hcmd]; rfl) (by simp) ?_
    (h.radioSame hq (by rw [hcmd]; simp) (by rw [hcmd]; simp) (by simp) (by simp) (by simp)
      (by simp) (by simp) (by simp) (by simp))
  simp [Midway, hcmd, hstopped, hst, hopen, Opening]

/-- A failed `DETECT` (R137). -/
theorem detectFail_inv (h : Inv s) (hq : s.seq = some q) : Inv (detectFail q s) := by
  have h' : Inv { s with devValid := false } :=
    h.congr ⟨rfl, rfl, rfl, rfl, rfl, rfl, rfl, rfl⟩ rfl rfl rfl rfl rfl rfl rfl rfl
  exact h'.errorFinish (q := q) hq _ _

/-- The judgement of the version byte (R137). -/
theorem detectJudge_inv (h : Inv s) (hq : s.seq = some q) (hcmd : q.cmd = .detect)
    (hquiet : s.tstate.isQuiet = true) (v : Byte) : Inv (detectJudge v q s) := by
  unfold detectJudge
  split
  · have h' : Inv { s with devValid := false } :=
      h.congr ⟨rfl, rfl, rfl, rfl, rfl, rfl, rfl, rfl⟩ rfl rfl rfl rfl rfl rfl rfl rfl
    exact h'.errorFinish (q := q) hq _ _
  · have h' : Inv { s with deviceId := v, devValid := true } :=
      h.congr ⟨rfl, rfl, rfl, rfl, rfl, rfl, rfl, rfl⟩ rfl rfl rfl rfl rfl rfl rfl rfl
    exact h'.plainFinish (q := q) hq hquiet (by rw [hcmd]; simp) (by rw [hcmd]; simp) _ _

theorem detectBody_inv (h : Inv s) (hq : s.seq = some q) (hcmd : q.cmd = .detect) :
    Inv (detectBody q s) := by
  have hstop : q.cmd ≠ .stop := by rw [hcmd]; simp
  have hmid : q.pos ≠ .start → s.stopped = false ∧
      (s.tstate = .uninitialized ∨ s.tstate = .idle) ∧ Opening s q ∧
      (q.pos = .version → s.busOpen = true) := by
    intro hp
    have := h.midway q hq hp
    unfold Midway at this
    rw [hcmd] at this
    exact this
  have hquiet : s.tstate = .uninitialized ∨ s.tstate = .idle → s.tstate.isQuiet = true := by
    rintro (h | h) <;> rw [h] <;> rfl
  unfold detectBody
  split
  · rename_i hpos
    split
    · exact h.turnedAway hq hpos hstop _
    rename_i hlegal
    have hst : s.stopped = false := by
      cases hs : s.stopped <;> simp_all
    have hts : s.tstate = .uninitialized ∨ s.tstate = .idle := by
      by_contra hc; exact hlegal (Or.inr hc)
    split
    · rename_i ho; exact detectRead_inv h hq hcmd ho hst hts
    · rename_i ho
      have hseq := seq_goto (seq_openTransport hq) .opened
      refine h.primitive hq ((SameShared.refl s).openTransport.goto _) hseq rfl rfl
        (e := .openBus s.profile.busId s.profile.devId (s.nextAnswer 0).isOk) (by simp) rfl
        (by rw [hcmd]; rfl) (by simp) ?_
        (h.radioSame hq hstop (by rw [hcmd]; simp) (by simp) (by simp) (by simp)
          (by simp) (by simp) (by simp) (by simp))
      simp [Midway, hcmd, hst, hts, ho, Opening]
  · rename_i hpos
    obtain ⟨m1, m2, m3, -⟩ := hmid (by rw [hpos]; simp)
    have hclosed := m3.1 (Or.inl hpos)
    split
    · have hseq := seq_goto (seq_setClock hq) .clocked
      refine h.primitive hq ((SameShared.refl s).setClock.goto _) hseq rfl rfl
        (e := .setClock s.profile.spiHz (s.nextAnswer 0).isOk) (by simp) rfl
        (by rw [hcmd]; rfl) (by simp) ?_
        (h.radioSame hq hstop (by rw [hcmd]; simp) (by simp) ?_ (by simp) (by simp) (by simp)
          (by simp) (by simp [m1]))
      · simp [Midway, hcmd, m1, m2, hclosed, Opening]
      · cases hb : (s.nextAnswer 0).isOk <;> simp [hb]
    · exact detectFail_inv h hq
  · rename_i hpos
    obtain ⟨m1, m2, m3, -⟩ := hmid (by rw [hpos]; simp)
    split
    · rename_i hok; exact detectRead_inv h hq hcmd ((m3.2 hpos).trans hok) m1 m2
    · rename_i hok
      refine closeHandle_inv h hq hstop (by rw [hcmd]; rfl)
        ((m3.2 hpos).trans (by simpa using hok)) m1 ?_
      simp [Midway, hcmd, m1, m2, Opening]
  · exact detectFail_inv h hq
  · rename_i hpos
    obtain ⟨-, m2, -, -⟩ := hmid (by rw [hpos]; simp)
    split
    · exact detectJudge_inv h hq hcmd (hquiet m2) _
    · exact detectFail_inv h hq
  · exact h

/-! ### TRANSMIT and RECEIVE -/

/-- A transaction of a command that runs in a state of its own. -/
theorem busy_inv (h : Inv s) (hq : s.seq = some q) (hstop : q.cmd ≠ .stop)
    (hinit : ∀ c, q.cmd ≠ .init c) {t : State} {q' : Seq} {e : Event} (hs : SameShared s t)
    (hseq : t.seq = some q') (hc : q'.client = q.client) (hcmd : q'.cmd = q.cmd)
    (hh : t.hist = s.hist ++ [e]) (he : e.isOwners = true)
    (hfit : posFits q.cmd q'.pos = true) (hpos : q'.pos ≠ .start) (hmid : Midway t q')
    (hused : s.tstate ≠ .uninitialized ∧ s.tstate ≠ .error)
    (h4 : t.busOpen = s.busOpen) (h5 : t.pinMode = s.pinMode)
    (h6 : t.pinLevel = s.pinLevel) (h7 : t.stopped = s.stopped) (h8 : t.cfgValid = s.cfgValid) :
    Inv t := by
  refine h.primitive hq hs hseq hc hcmd hh he hfit hpos hmid
    ⟨fun _ _ => Or.inl ?_, fun _ _ => Or.inl ?_, by rw [h4, h5, h7]; exact h.stopped_released,
      by rw [h5, h6]; exact h.pin_undriven⟩
  · rcases h.open_in_use hused.1 hused.2 with ho | ⟨q', hq', hc⟩
    · exact h4.trans ho
    · rw [hq] at hq'; cases hq'; exact absurd hc hstop
  · rcases h.idle_cfg hused.1 hused.2 with ho | ⟨q', c, hq', hc, hp⟩
    · exact h8.trans ho
    · rw [hq] at hq'; cases hq'; exact absurd hc (hinit c)

theorem transmitBody_inv (h : Inv s) (hq : s.seq = some q) {data : Frame}
    (hcmd : q.cmd = .transmit data) : Inv (transmitBody data q s) := by
  have hstop : q.cmd ≠ .stop := by rw [hcmd]; simp
  have hinit : ∀ c, q.cmd ≠ .init c := by rw [hcmd]; simp
  have hmid : q.pos ≠ .start → s.tstate = .transmitting := by
    intro hp
    have := h.midway q hq hp
    unfold Midway at this
    rw [hcmd] at this
    exact this
  unfold transmitBody
  split
  · rename_i hpos
    split
    · exact h.turnedAway hq hpos hstop _
    rename_i hidle
    split
    · exact h.turnedAway hq hpos hstop _
    have hidle' : s.tstate = .idle := by simpa using hidle
    rw [spiWrite_eq]
    have hseq := seq_goto (seq_transfer (s := { s with tstate := .transmitting }) hq
      (writeBytes s.profile.regFifo data)) .txMode
    refine busy_inv h hq hstop hinit ?_ hseq rfl rfl
      (e := .xfer (writeBytes s.profile.regFifo data)
        (State.nextAnswer { s with tstate := .transmitting }
          (writeBytes s.profile.regFifo data).length))
      (by simp) rfl (by rw [hcmd]; rfl) (by simp) (by simp [Midway, hcmd])
      (by rw [hidle']; simp) (by simp) (by simp) (by simp) (by simp) (by simp)
    have hsh : SameShared s { s with tstate := .transmitting } :=
      ⟨rfl, rfl, rfl, rfl, rfl, rfl, rfl, rfl⟩
    exact (hsh.transfer _).goto _
  · rename_i hpos
    have ht := hmid (by rw [hpos]; simp)
    split
    · rw [spiWrite_eq]
      exact busy_inv h hq hstop hinit (((SameShared.refl s).transfer _).goto _)
        (seq_goto (seq_transfer hq _) _) rfl rfl
        (e := .xfer (writeBytes s.profile.regOpmode [s.profile.opmodeTx])
          (s.nextAnswer (writeBytes s.profile.regOpmode [s.profile.opmodeTx]).length))
        (by simp) rfl (by rw [hcmd]; rfl) (by simp) (by simp [Midway, hcmd, ht])
        (by rw [ht]; simp) (by simp) (by simp) (by simp) (by simp) (by simp)
    · exact h.errorFinish hq _ _
  · rename_i hpos
    have ht := hmid (by rw [hpos]; simp)
    split
    · exact busy_inv h hq hstop hinit (((SameShared.refl s).wait _ _).goto _)
        (seq_goto (seq_wait hq _ _) _) rfl rfl (e := .wait .settle s.ctrl.tSettle)
        (by simp) rfl (by rw [hcmd]; rfl) (by simp) (by simp [Midway, hcmd, ht])
        (by rw [ht]; simp) (by simp) (by simp) (by simp) (by simp) (by simp)
    · exact h.errorFinish hq _ _
  · rename_i hpos
    have ht := hmid (by rw [hpos]; simp)
    exact h.idleFinish hq (by rw [ht]; rfl) hstop hinit _ _
  · exact h

/-- A FIFO read of `RECEIVE` (R139). -/
theorem receiveRead_inv (h : Inv s) (hq : s.seq = some q) {timeout : Word}
    (hcmd : q.cmd = .receive timeout) (hused : s.tstate ≠ .uninitialized ∧ s.tstate ≠ .error)
    {t : State} (hs : SameShared s t) (hq0 : t.seq = some q) (hh : t.hist = s.hist)
    (h3 : t.tstate = .receiving) (h4 : t.busOpen = s.busOpen) (h5 : t.pinMode = s.pinMode)
    (h6 : t.pinLevel = s.pinLevel) (h7 : t.stopped = s.stopped) (h8 : t.cfgValid = s.cfgValid) :
    Inv (receiveRead t) := by
  unfold receiveRead
  rw [spiRead_eq]
  exact busy_inv h hq (by rw [hcmd]; simp) (by rw [hcmd]; simp) ((hs.transfer _).goto _)
    (seq_goto (seq_transfer hq0 _) _) rfl rfl
    (e := .xfer (readBytes t.profile t.profile.regFifo t.profile.fifoDepth)
      (t.nextAnswer (readBytes t.profile t.profile.regFifo t.profile.fifoDepth).length))
    (by simp [hh]) rfl (by rw [hcmd]; rfl) (by simp) (by simp [Midway, hcmd, h3]) hused
    (by simp [h4]) (by simp [h5]) (by simp [h6]) (by simp [h7]) (by simp [h8])

/-- The judgement of a FIFO read (R139). -/
theorem receiveJudge_inv (h : Inv s) (hq : s.seq = some q) {timeout : Word}
    (hcmd : q.cmd = .receive timeout) (ht : s.tstate = .receiving) (r : Frame) :
    Inv (receiveJudge timeout r q s) := by
  have hstop : q.cmd ≠ .stop := by rw [hcmd]; simp
  have hinit : ∀ c, q.cmd ≠ .init c := by rw [hcmd]; simp
  unfold receiveJudge
  split
  · exact h.idleFinish hq (by rw [ht]; rfl) hstop hinit _ _
  split
  · exact h.idleFinish hq (by rw [ht]; rfl) hstop hinit _ _
  split
  · exact h.idleFinish hq (by rw [ht]; rfl) hstop hinit _ _
  · exact busy_inv h hq hstop hinit (((SameShared.refl s).wait _ _).goto _)
      (seq_goto (seq_wait hq _ _) _) rfl rfl (e := .wait .poll s.ctrl.tPoll)
      (by simp) rfl (by rw [hcmd]; rfl) (by simp) (by simp [Midway, hcmd, ht])
      (by rw [ht]; simp) (by simp) (by simp) (by simp) (by simp) (by simp)

theorem receiveBody_inv (h : Inv s) (hq : s.seq = some q) {timeout : Word}
    (hcmd : q.cmd = .receive timeout) : Inv (receiveBody timeout q s) := by
  have hstop : q.cmd ≠ .stop := by rw [hcmd]; simp
  have hinit : ∀ c, q.cmd ≠ .init c := by rw [hcmd]; simp
  have hmid : q.pos ≠ .start → s.tstate = .receiving := by
    intro hp
    have := h.midway q hq hp
    unfold Midway at this
    rw [hcmd] at this
    exact this
  unfold receiveBody
  split
  · rename_i hpos
    split
    · exact h.turnedAway hq hpos hstop _
    rename_i hidle
    have hidle' : s.tstate = .idle := by simpa using hidle
    split
    · rw [spiWrite_eq]
      have hseq := seq_goto (seq_transfer (s := { s with tstate := .receiving }) hq
        (writeBytes s.profile.regOpmode [s.profile.opmodeRx])) .rxEnter
      refine busy_inv h hq hstop hinit ?_ hseq rfl rfl
        (e := .xfer (writeBytes s.profile.regOpmode [s.profile.opmodeRx])
          (State.nextAnswer { s with tstate := .receiving }
            (writeBytes s.profile.regOpmode [s.profile.opmodeRx]).length))
        (by simp) rfl (by rw [hcmd]; rfl) (by simp) (by simp [Midway, hcmd])
        (by rw [hidle']; simp) (by simp) (by simp) (by simp) (by simp) (by simp)
      have hsh : SameShared s { s with tstate := .receiving } :=
        ⟨rfl, rfl, rfl, rfl, rfl, rfl, rfl, rfl⟩
      exact (hsh.transfer _).goto _
    · exact receiveRead_inv h hq hcmd (by rw [hidle']; simp)
        ⟨rfl, rfl, rfl, rfl, rfl, rfl, rfl, rfl⟩ hq rfl rfl rfl rfl rfl rfl rfl
  · rename_i hpos
    have ht := hmid (by rw [hpos]; simp)
    split
    · exact receiveRead_inv h hq hcmd (by rw [ht]; simp)
        ⟨rfl, rfl, rfl, rfl, rfl, rfl, rfl, rfl⟩ hq rfl ht rfl rfl rfl rfl rfl
    · exact h.errorFinish hq _ _
  · rename_i hpos
    have ht := hmid (by rw [hpos]; simp)
    exact receiveRead_inv h hq hcmd (by rw [ht]; simp) (SameShared.refl s) hq rfl ht rfl rfl rfl
      rfl rfl
  · rename_i hpos
    have ht := hmid (by rw [hpos]; simp)
    split
    · have h' : Inv { s with k := s.k + 1 } :=
        h.congr ⟨rfl, rfl, rfl, rfl, rfl, rfl, rfl, rfl⟩ rfl rfl rfl rfl rfl rfl rfl rfl
      exact receiveJudge_inv h' (q := q) hq hcmd ht _
    · exact h.errorFinish hq _ _
  · exact h

/-! ### SET_FREQ and READ_RSSI -/

theorem setFreqBody_inv (h : Inv s) (hq : s.seq = some q) {freq : Word}
    (hcmd : q.cmd = .setFreq freq) : Inv (setFreqBody freq q s) := by
  have hstop : q.cmd ≠ .stop := by rw [hcmd]; simp
  have hinit : ∀ c, q.cmd ≠ .init c := by rw [hcmd]; simp
  unfold setFreqBody
  split
  · rename_i hpos
    split
    · exact h.turnedAway hq hpos hstop _
    rename_i hidle
    have hidle' : s.tstate = .idle := by simpa using hidle
    split
    · exact h.turnedAway hq hpos hstop _
    · rw [spiWrite_eq]
      exact busy_inv h hq hstop hinit (((SameShared.refl s).transfer _).goto _)
        (seq_goto (seq_transfer hq _) _) rfl rfl
        (e := .xfer (writeBytes s.profile.regFrf (encFreq s.profile freq.toNat))
          (s.nextAnswer (writeBytes s.profile.regFrf (encFreq s.profile freq.toNat)).length))
        (by simp) rfl (by rw [hcmd]; rfl) (by simp) (by simp [Midway, hcmd, hidle'])
        (by rw [hidle']; simp) (by simp) (by simp) (by simp) (by simp) (by simp)
  · rename_i hpos
    have hmid := h.midway q hq (by rw [hpos]; simp)
    unfold Midway at hmid
    rw [hcmd] at hmid
    split
    · have h' : Inv { s with cfg := { s.cfg with freq := freq } } :=
        h.congr ⟨rfl, rfl, rfl, rfl, rfl, rfl, rfl, rfl⟩ rfl rfl rfl rfl rfl rfl rfl rfl
      exact h'.plainFinish (q := q) hq (by show s.tstate.isQuiet = true; rw [hmid]; rfl) hstop
        (fun c hc => absurd hc (hinit c)) _ _
    · exact h.errorFinish hq _ _
  · exact h

theorem readRssiBody_inv (h : Inv s) (hq : s.seq = some q) (hcmd : q.cmd = .readRssi) :
    Inv (readRssiBody q s) := by
  have hstop : q.cmd ≠ .stop := by rw [hcmd]; simp
  have hinit : ∀ c, q.cmd ≠ .init c := by rw [hcmd]; simp
  unfold readRssiBody
  split
  · rename_i hpos
    split
    · exact h.turnedAway hq hpos hstop _
    rename_i hidle
    have hidle' : s.tstate = .idle := by simpa using hidle
    rw [spiRead_eq]
    exact busy_inv h hq hstop hinit (((SameShared.refl s).transfer _).goto _)
      (seq_goto (seq_transfer hq _) _) rfl rfl
      (e := .xfer (readBytes s.profile s.profile.regRssi 1)
        (s.nextAnswer (readBytes s.profile s.profile.regRssi 1).length))
      (by simp) rfl (by rw [hcmd]; rfl) (by simp) (by simp [Midway, hcmd, hidle'])
      (by rw [hidle']; simp) (by simp) (by simp) (by simp) (by simp) (by simp)
  · rename_i hpos
    have hmid := h.midway q hq (by rw [hpos]; simp)
    unfold Midway at hmid
    rw [hcmd] at hmid
    split
    · exact h.plainFinish hq (by rw [hmid]; rfl) hstop (fun c hc => absurd hc (hinit c)) _ _
    · exact h.errorFinish hq _ _
  · exact h

/-! ### STOP and WRITE_CTRL -/

/-- The end of `STOP`, when the transport is closed and the pin released (R171). -/
theorem stopEnd_inv (h : Inv s) (hq : s.seq = some q) (hquiet : s.tstate.isQuiet = true)
    (hclosed : s.busOpen = false) (hpin : s.pinMode = .unconfigured) : Inv (stopEnd q s) := by
  unfold stopEnd
  have hend : (if s.tstate = TState.idle then TState.uninitialized else s.tstate) =
      TState.uninitialized ∨
      (if s.tstate = TState.idle then TState.uninitialized else s.tstate) = TState.error := by
    cases hts : s.tstate <;> simp_all [TState.isQuiet]
  refine h.finished hq (by simp) (by simp) (by simp) (by simp) (by simp) (by simp) (by simp)
    (by simp) (by simp; rfl) ?_ ⟨fun h1 h2 => ?_, fun h1 h2 => ?_, fun _ => ?_, ?_⟩
    (by simpa using h.policy_reserved) (by simpa using h.tPoll_pos)
  · simp only [finish_fields]; rcases hend with he | he <;> rw [he] <;> rfl
  · simp only [finish_fields] at h1 h2; rcases hend with he | he <;> simp_all
  · simp only [finish_fields] at h1 h2; rcases hend with he | he <;> simp_all
  · simp [hclosed, hpin]
  · simpa using h.pin_undriven

theorem stopRelease_inv (h : Inv s) (hq : s.seq = some q) (hcmd : q.cmd = .stop)
    (hquiet : s.tstate.isQuiet = true) (hclosed : s.busOpen = false) : Inv (stopRelease q s) := by
  unfold stopRelease
  split
  · have hseq := seq_goto (seq_pinCleanup hq) .stopDone
    refine h.primitive hq ((SameShared.refl s).pinCleanup.goto _) hseq rfl rfl (e := .pinCleanup)
      (by simp) rfl (by rw [hcmd]; rfl) (by simp) (by simp [Midway, hcmd, hquiet, hclosed])
      ⟨fun _ _ => Or.inr ⟨_, hseq, hcmd⟩, fun h1 h2 => Or.inl ?_, fun _ => ?_, fun _ => ?_⟩
    · simp at h1 h2 ⊢
      rcases h.idle_cfg h1 h2 with ho | ⟨q', c, hq', hc, hp⟩
      · exact ho
      · rw [hq] at hq'; cases hq'; rw [hcmd] at hc; cases hc
    · simp [hclosed]
    · simp
  · rename_i hpin
    exact stopEnd_inv h hq hquiet hclosed (by cases hm : s.pinMode <;> simp_all)

theorem stopBody_inv (h : Inv s) (hq : s.seq = some q) (hcmd : q.cmd = .stop) :
    Inv (stopBody q s) := by
  have hmid : q.pos ≠ .start → s.tstate.isQuiet = true ∧ s.busOpen = false ∧
      (q.pos = .stopDone → s.pinMode = .unconfigured) := by
    intro hp
    have := h.midway q hq hp
    unfold Midway at this
    rw [hcmd] at this
    exact this
  unfold stopBody
  split
  · rename_i hpos
    have hquiet : s.tstate.isQuiet = true :=
      h.quiet fun q' hq' => by rw [hq] at hq'; cases hq'; exact hpos
    split
    · rename_i ho
      have hseq := seq_goto (seq_closeTransport hq) .stopPin
      refine h.primitive hq ((SameShared.refl s).closeTransport.goto _) hseq rfl rfl (e := .close)
        (by simp) rfl (by rw [hcmd]; rfl) (by simp) (by simp [Midway, hcmd, hquiet])
        ⟨fun _ _ => Or.inr ⟨_, hseq, hcmd⟩, fun h1 h2 => Or.inl ?_, fun hs => ?_,
          by simpa using h.pin_undriven⟩
      · simp at h1 h2 ⊢
        rcases h.idle_cfg h1 h2 with ho | ⟨q', c, hq', hc, hp⟩
        · exact ho
        · rw [hq] at hq'; cases hq'; rw [hcmd] at hc; cases hc
      · simp at hs; have := (h.stopped_released hs).1; rw [ho] at this; cases this
    · rename_i ho; exact stopRelease_inv h hq hcmd hquiet (by simpa using ho)
  · rename_i hpos
    obtain ⟨m1, m2, -⟩ := hmid (by rw [hpos]; simp)
    exact stopRelease_inv h hq hcmd m1 m2
  · rename_i hpos
    obtain ⟨m1, m2, m3⟩ := hmid (by rw [hpos]; simp)
    exact stopEnd_inv h hq m1 m2 (m3 hpos)
  · exact h

/-- A control write keeps the reserved bits at 0 and `T_POLL` at 1 or more (R30, R35). -/
theorem ctrlWrite_legal {x y : Ctrl} {i : Byte} {v : Word} (hw : ctrlWrite x i v = some y)
    (hpol : x.policy &&& 0xFFFFFFFC#32 = 0#32) (hpoll : x.tPoll ≠ 0#32) :
    y.policy &&& 0xFFFFFFFC#32 = 0#32 ∧ y.tPoll ≠ 0#32 := by
  unfold ctrlWrite at hw
  split at hw
  · cases hw
    refine ⟨?_, hpoll⟩
    show v &&& 0x00000003#32 &&& 0xFFFFFFFC#32 = 0#32
    rw [BitVec.and_assoc]; simp
  · cases hw; exact ⟨hpol, hpoll⟩
  · cases hw; exact ⟨hpol, hpoll⟩
  · cases hw; exact ⟨hpol, hpoll⟩
  · split at hw
    · cases hw
    · rename_i hv; cases hw; exact ⟨hpol, hv⟩
  · cases hw

theorem writeCtrlBody_inv (h : Inv s) (hq : s.seq = some q) {idx : Byte} {value : Word}
    (hcmd : q.cmd = .writeCtrl idx value) : Inv (writeCtrlBody idx value q s) := by
  have hpos : q.pos = .start := by
    have := (h.pos_fits q hq).2
    rw [hcmd] at this
    cases hp : q.pos <;> first | rfl | (rw [hp] at this; cases this)
  have hstop : q.cmd ≠ .stop := by rw [hcmd]; simp
  unfold writeCtrlBody
  split
  · rename_i x hx
    obtain ⟨hpol, hpoll⟩ := ctrlWrite_legal hx h.policy_reserved h.tPoll_pos
    have hp := h.plainFinish hq (h.quiet fun q' hq' => by rw [hq] at hq'; cases hq'; exact hpos)
      hstop (fun _ _ => hpos) .ok []
    refine h.finished hq (by simp) (by simp) (by simp) (by simp) (by simp) (by simp) (by simp)
      (by simp) (by simp; rfl) (by simpa using hp.quiet (by simp)) ⟨?_, ?_, ?_, ?_⟩
      (by simpa using hpol) (by simpa using hpoll)
    · simpa using hp.open_in_use
    · simpa using hp.idle_cfg
    · simpa using hp.stopped_released
    · simpa using hp.pin_undriven
  · exact h.turnedAway hq hpos hstop _

end Sys2Proof.Machine
end

