-- ==== Sys2Proof/Laws/Operands.lean ====
section
/-! SUPPORT. Byte order (R12, R58): the length of a big-endian sequence, and reading back what was
written; the operand readers on the frames the encoder writes. -/

namespace Sys2Proof.Machine

@[simp] theorem be_length (k v : Nat) : (be k v).length = k := by
  induction k with
  | zero => rfl
  | succ k ih => simp [be, ih]

theorem fromBeAcc_be (k v acc : Nat) : fromBeAcc acc (be k v) = acc * 256 ^ k + v % 256 ^ k := by
  induction k generalizing acc with
  | zero => simp [be, fromBeAcc, Nat.mod_one]
  | succ k ih =>
    have h : v >>> (8 * k) = v / 256 ^ k := by
      rw [Nat.shiftRight_eq_div_pow, Nat.pow_mul]
    rw [be, fromBeAcc, ih, h, BitVec.toNat_ofNat, Nat.mod_pow_succ (x := v) (b := 256) (k := k)]
    ring

/-- Reading back a big-endian sequence gives the value modulo its width (R12). -/
theorem fromBe_be (k v : Nat) : fromBe (be k v) = v % 256 ^ k := by
  simp [fromBe, fromBeAcc_be]

theorem fromBeAcc_lt (bs : Frame) (acc : Nat) :
    fromBeAcc acc bs < (acc + 1) * 256 ^ bs.length := by
  induction bs generalizing acc with
  | nil => simp [fromBeAcc]
  | cons b bs ih =>
    have hb : b.toNat < 256 := b.isLt
    have h := ih (acc * 256 + b.toNat)
    calc fromBeAcc acc (b :: bs) < (acc * 256 + b.toNat + 1) * 256 ^ bs.length := h
      _ ≤ ((acc + 1) * 256) * 256 ^ bs.length := Nat.mul_le_mul_right _ (by omega)
      _ = (acc + 1) * 256 ^ (b :: bs).length := by simp [pow_succ]; ring

/-- A big-endian sequence of `n` bytes has a value below `256^n`. -/
theorem fromBe_lt (bs : Frame) : fromBe bs < 256 ^ bs.length := by
  simpa [fromBe] using fromBeAcc_lt bs 0

/-- A `u16` operand is read back. -/
theorem ofNat_fromBe_be2 (x : Half) : BitVec.ofNat 16 (fromBe (be 2 x.toNat)) = x := by
  rw [fromBe_be]
  apply BitVec.eq_of_toNat_eq
  have := x.isLt
  simp only [BitVec.toNat_ofNat]
  omega

/-- A `u32` operand is read back. -/
theorem ofNat_fromBe_be4 (x : Word) : BitVec.ofNat 32 (fromBe (be 4 x.toNat)) = x := by
  rw [fromBe_be]
  apply BitVec.eq_of_toNat_eq
  have := x.isLt
  simp only [BitVec.toNat_ofNat]
  omega

theorem fromBeAcc_div (bs : Frame) (acc : Nat) : fromBeAcc acc bs / 256 ^ bs.length = acc := by
  induction bs generalizing acc with
  | nil => simp [fromBeAcc]
  | cons b bs ih =>
    have := b.isLt
    simp only [fromBeAcc, List.length_cons, pow_succ]
    rw [← Nat.div_div_eq_div_mul, ih]
    omega

theorem be_fromBeAcc (bs : Frame) (acc : Nat) : be bs.length (fromBeAcc acc bs) = bs := by
  induction bs generalizing acc with
  | nil => rfl
  | cons b bs ih =>
    simp only [fromBeAcc, List.length_cons, be]
    congr 1
    · rw [Nat.shiftRight_eq_div_pow, Nat.pow_mul, show (2 : Nat) ^ 8 = 256 from rfl, fromBeAcc_div]
      apply BitVec.eq_of_toNat_eq
      have := b.isLt
      simp only [BitVec.toNat_ofNat]
      omega
    · exact ih _

/-- Writing the value of a byte sequence of `k` bytes gives the sequence back (R12). -/
theorem be_fromBe {bs : Frame} {k : Nat} (h : bs.length = k) : be k (fromBe bs) = bs := by
  subst h
  exact be_fromBeAcc bs 0

/-- The two bytes a `u16` operand was read from. -/
theorem be2_ofNat_fromBe {bs : Frame} (h : bs.length = 2) :
    be 2 (BitVec.ofNat 16 (fromBe bs)).toNat = bs := by
  have hlt := fromBe_lt bs
  rw [h] at hlt
  rw [BitVec.toNat_ofNat, Nat.mod_eq_of_lt (by omega), be_fromBe h]

/-- The four bytes a `u32` operand was read from. -/
theorem be4_ofNat_fromBe {bs : Frame} (h : bs.length = 4) :
    be 4 (BitVec.ofNat 32 (fromBe bs)).toNat = bs := by
  have hlt := fromBe_lt bs
  rw [h] at hlt
  rw [BitVec.toNat_ofNat, Nat.mod_eq_of_lt (by omega), be_fromBe h]

/-- `bytesAt` skips a prefix of the offset's length and takes a middle part of the asked length. -/
theorem bytesAt_append (pre mid post : Frame) :
    bytesAt (pre ++ (mid ++ post)) pre.length mid.length = mid := by
  simp [bytesAt]

/-- The head of an operand sequence of two bytes or four, written out. -/
theorem be2_eq (v : Nat) : be 2 v = [BitVec.ofNat 8 (v >>> 8), BitVec.ofNat 8 v] := by simp [be]

theorem be4_eq (v : Nat) :
    be 4 v = [BitVec.ofNat 8 (v >>> 24), BitVec.ofNat 8 (v >>> 16), BitVec.ofNat 8 (v >>> 8),
      BitVec.ofNat 8 v] := by simp [be]

end Sys2Proof.Machine
end

