-- ==== Sys2Proof/Laws/Codec.lean ====
section
/-! SUPPORT. One lemma per codec function with something to say: the rounding of `dec_freq`, the code of
a bandwidth, what `strip0` strips, and when a FIFO read is data. -/

namespace Sys2Proof.Machine

/-- `dec_freq` rounds up (R103). -/
theorem decFreq_spec (p : Profile) (r : Nat) :
    r * p.fXtal ≤ decFreq p r * 2 ^ p.fShift ∧
      decFreq p r * 2 ^ p.fShift < r * p.fXtal + 2 ^ p.fShift := by
  have hpos : 0 < 2 ^ p.fShift := by positivity
  have hdiv := Nat.div_add_mod (r * p.fXtal + (2 ^ p.fShift - 1)) (2 ^ p.fShift)
  have hmod := Nat.mod_lt (r * p.fXtal + (2 ^ p.fShift - 1)) hpos
  unfold decFreq
  rw [mul_comm (_ / _)]
  omega

/-- Under a well-formed profile a key of `BW_SET` has the code it is listed with (R109). -/
theorem find_key {l : List (Nat × Nat)} (hnodup : (l.map Prod.fst).Nodup) {bw code : Nat}
    (hmem : (bw, code) ∈ l) : l.find? (fun e => e.1 == bw) = some (bw, code) := by
  induction l with
  | nil => simp at hmem
  | cons e l ih =>
    simp only [List.map_cons, List.nodup_cons] at hnodup
    rcases List.mem_cons.1 hmem with rfl | hmem
    · simp
    · rw [List.find?_cons_of_neg, ih hnodup.2 hmem]
      intro he
      exact hnodup.1 (List.mem_map.2 ⟨_, hmem, (beq_iff_eq.1 he).symm⟩)

/-- `strip0` takes off zero bytes only, and all of them at the end (R115). -/
theorem strip0_spec (raw : Frame) :
    (∃ n, raw = strip0 raw ++ List.replicate n 0x00#8) ∧
      (strip0 raw).getLast? ≠ some 0x00#8 := by
  induction raw with
  | nil => exact ⟨⟨0, rfl⟩, by simp [strip0]⟩
  | cons b bs ih =>
    obtain ⟨⟨n, hn⟩, hl⟩ := ih
    unfold strip0
    split
    · rename_i he
      rw [he] at hn
      by_cases hb : b = 0#8
      · rw [if_pos hb]
        refine ⟨⟨n + 1, ?_⟩, by simp⟩
        rw [List.nil_append] at hn
        rw [hn, hb]; rfl
      · rw [if_neg hb]
        exact ⟨⟨n, by rw [List.nil_append] at hn; rw [hn]; rfl⟩, by simpa using hb⟩
    · rename_i kept hk
      refine ⟨⟨n, by rw [List.cons_append, ← hn]⟩, ?_⟩
      cases hs : strip0 bs with
      | nil => exact absurd hs hk
      | cons x xs => rw [hs] at hl; simpa [List.getLast?_cons_cons] using hl

/-- `is_data` (R116). -/
theorem isData_iff (raw : Frame) (pol : Word) :
    isData raw pol = true ↔ (∃ b ∈ raw, b ≠ 0x00#8) ∨ pol.getLsbD 1 = true := by
  simp [isData, policyZeroAsData]

/-- `v in EXPECTED_IDS` (R137). -/
theorem expectedId_iff (p : Profile) (v : Byte) :
    expectedId p v = true ↔ ∃ lo hi, (lo, hi) ∈ p.expectedIds ∧ lo ≤ v.toNat ∧ v.toNat ≤ hi := by
  simp [expectedId]

end Sys2Proof.Machine
end

