-- ==== Sys2Proof/Laws/Step.lean ====
section
/-! SUPPORT. What one step can do: the four shapes of a step, what `exec` is in a submission and as
owner, and the pieces of the invariant's preservation by a whole step. -/

namespace Sys2Proof.Machine

/-! ### exec -/

/-- The pseudocode body of the running command. -/
def body (q : Seq) (s : State) : State :=
  match q.cmd with
  | .init cfg => initBody cfg q s
  | .detect => detectBody q s
  | .transmit data => transmitBody data q s
  | .receive timeout => receiveBody timeout q s
  | .setFreq freq => setFreqBody freq q s
  | .readRssi => readRssiBody q s
  | .stop => stopBody q s
  | .writeCtrl idx value => writeCtrlBody idx value q s
  | _ => s

/-- `exec` of the owner's command is its body (R194). -/
theorem exec_owner {s : State} {q : Seq} (hturn : s.turn = .sequencer) (hq : s.seq = some q)
    (hk : q.cmd.kind = .arbitrated) : exec q.cmd s = .next (body q s) := by
  cases hc : q.cmd <;> rw [hc] at hk <;> first
    | (simp [exec, body, hc, execInit, execDetect, execTransmit, execReceive, execSetFreq,
        execReadRssi, execStop, execWriteCtrl, runArbitrated, hturn, hq]; done)
    | cases hk

/-- The response of an immediate command (R100 to R116, R172, R174, R175). -/
def answerOf (i : Instr) (s : State) : Status × Frame :=
  match i with
  | .getState => (.ok, [s.tstate.code, s.flags, s.deviceId])
  | .readCtrl idx => readCtrlAnswer s.ctrl idx
  | .encFreq freq => checked (freqOk s.profile freq.toNat) (encFreq s.profile freq.toNat)
  | .decFreq reg => (.ok, be 4 (decFreq s.profile reg))
  | .encPower power =>
    checked (powerOk s.profile (sext16 power)) [encPower s.profile (sext16 power)]
  | .encMod sf bw cr =>
    checked (modOk s.profile sf.toNat bw.toNat cr.toNat)
      (encMod s.profile sf.toNat bw.toNat cr.toNat)
  | .encPreamble preamble => checked (preOk s.profile preamble.toNat) (encPre preamble.toNat)
  | .encSync sync => (.ok, encSync sync)
  | .decRssi raw => (.ok, beInt16 (decRssi s.profile raw))
  | .decPayload data =>
    checked (decide (data.length ≤ s.profile.fifoDepth)) (payloadData (decPayload data s.ctrl.policy))
  | _ => (.illegalCommand, [])

theorem runImmediate_submission {s : State} {c : Nat} (hturn : s.turn = .submission c)
    (f : State → Status × Frame) : runImmediate f s = .next (s.reply c (f s).1 (f s).2) := by
  unfold runImmediate
  rw [hturn]

/-- `exec` of an immediate command in its submission is its response (R191, R192). -/
theorem exec_immediate {i : Instr} {s : State} {c : Nat} (hturn : s.turn = .submission c)
    (hk : i.kind = .immediate) :
    exec i s = .next (s.reply c (answerOf i s).1 (answerOf i s).2) := by
  cases i <;> first
    | (exfalso; cases hk; done)
    | simp only [exec, answerOf, execGetState, execReadCtrl, execEncFreq, execDecFreq, execEncPower,
        execEncMod, execEncPreamble, execEncSync, execDecRssi, execDecPayload, execReserved,
        execIllegal, runImmediate_submission hturn]

/-- `exec` of an arbitrated command in its submission is its acceptance (R191, R193). -/
theorem exec_accept {i : Instr} {s : State} {c : Nat} (hturn : s.turn = .submission c)
    (hk : i.kind = .arbitrated) :
    exec i s = .next { s.accept c i with stopReq := s.stopReq || decide (i = .stop) } := by
  cases i <;> first
    | (simp [exec, execInit, execDetect, execTransmit, execReceive, execSetFreq,
        execReadRssi, execStop, execWriteCtrl, runArbitrated, hturn, stopAccept, State.accept]; done)
    | cases hk

/-- Every instruction answers a next state (R218). -/
theorem exec_next (i : Instr) (s : State) : ∃ t, exec i s = .next t := by
  cases i <;>
    simp only [exec, execInit, execDetect, execTransmit, execReceive, execSetFreq, execReadRssi,
      execStop, execWriteCtrl, execGetState, execReadCtrl, execEncFreq, execDecFreq, execEncPower,
      execEncMod, execEncPreamble, execEncSync, execDecRssi, execDecPayload, execReserved,
      execIllegal, execSpiWrite, execSpiRead, runArbitrated, runImmediate] <;>
    (repeat' split) <;> exact ⟨_, rfl⟩

/-- What an owner's step can be in any state, reachable or not: nothing, the body, or one SPI
transaction. -/
theorem exec_owner_cases {u t : State} {q : Seq} (hturn : u.turn = .sequencer) (hq : u.seq = some q)
    (he : exec q.cmd u = .next t) :
    t = u ∨ t = body q u ∨ ∃ out, t = u.transfer out := by
  cases hk : q.cmd.kind with
  | arbitrated => rw [exec_owner hturn hq hk] at he; cases he; exact Or.inr (Or.inl rfl)
  | immediate =>
    left
    cases hc : q.cmd <;> rw [hc] at hk he <;> first
      | (cases hk; done)
      | (simp [exec, execGetState, execReadCtrl, execEncFreq, execDecFreq, execEncPower,
          execEncMod, execEncPreamble, execEncSync, execDecRssi, execDecPayload, execReserved,
          execIllegal, runImmediate, hturn] at he; exact he.symm)
  | transaction =>
    right; right
    cases hc : q.cmd <;> rw [hc] at hk he <;> first
      | (cases hk; done)
      | (simp only [exec, execSpiWrite, execSpiRead] at he; cases he; exact ⟨_, rfl⟩)

/-! ### The decoder -/

/-- The command decoder yields no SPI transaction (R55, R90). -/
theorem decodeFrame_kind (p : Profile) (f : Frame) : (decodeFrame p f).kind ≠ .transaction := by
  unfold decodeFrame
  split
  · simp [Instr.kind]
  split
  · simp [Instr.kind]
  split
  · unfold decodeCommand
    split <;> simp [Instr.kind]
  · simp [Instr.kind]

/-! ### step -/

theorem beginSubmit_cases {s u : State} {c : Nat} {i : Instr} (h : s.beginSubmit c = some (i, u)) :
    ∃ f rest, s.outstanding[c]? = some false ∧ s.inbox[c]? = some (f :: rest) ∧
      i = decodeFrame s.profile f ∧
      u = s.takeFrame c f rest := by
  unfold State.beginSubmit at h
  split at h
  · rename_i f rest h1 h2
    simp only [Option.some.injEq, Prod.mk.injEq] at h
    exact ⟨f, rest, h1, h2, h.1.symm, h.2.symm⟩
  · cases h

/-- The four shapes of a step: a move passed over, a submission, a grant, and the owner's next
primitive. -/
theorem step_cases {s t : State} (h : step s = .next t) :
    (t = s.popMove) ∨
    (∃ c i u, s.popMove.beginSubmit c = some (i, u) ∧ exec i u = .next t) ∨
    (∃ pick, s.seq = none ∧ t = s.popMove.grant pick) ∨
    (∃ q, s.seq = some q ∧ exec q.cmd s.popMove.ownTurn = .next t) := by
  unfold step at h
  split at h
  · rename_i c hm
    split at h
    · rename_i i u hu; exact Or.inr (Or.inl ⟨c, i, u, hu, h⟩)
    · cases h; exact Or.inl rfl
  · rename_i pick hm
    split at h
    · rename_i q hq; exact Or.inr (Or.inr (Or.inr ⟨q, by simpa using hq, h⟩))
    · rename_i hq; cases h; exact Or.inr (Or.inr (Or.inl ⟨pick, by simpa using hq, rfl⟩))

theorem grant_cases (s : State) (pick : Nat) :
    s.grant pick = s ∨ ∃ c i, s.owner = none ∧ s.choose pick = some c ∧
      s.pending[c]? = some (some i) ∧ s.grant pick = s.grantTo c i := by
  unfold State.grant
  split
  · rename_i c ho hc
    split
    · rename_i i hi
      refine Or.inr ⟨c, i, ho, hc, ?_, rfl⟩
      cases hp : s.pending[c]? <;> simp_all
    · exact Or.inl rfl
  · exact Or.inl rfl

/-! ### The invariant through a step -/

theorem popMove_sameShared (s : State) : SameShared s s.popMove := by constructor <;> simp

theorem popMove_inv {s : State} (h : Inv s) : Inv s.popMove := by
  apply h.congr (popMove_sameShared s) <;> simp

theorem ownTurn_inv {s : State} (h : Inv s) : Inv s.ownTurn := by
  have hs : s.ownTurn = s := by
    have := h.turn
    cases s; simp_all [State.ownTurn]
  rw [hs]; exact h

theorem body_inv {s : State} {q : Seq} (h : Inv s) (hq : s.seq = some q) : Inv (body q s) := by
  have hk := (h.pos_fits q hq).1
  cases hc : q.cmd with
  | init cfg => simpa only [body, hc] using initBody_inv h hq hc
  | detect => simpa only [body, hc] using detectBody_inv h hq hc
  | transmit data => simpa only [body, hc] using transmitBody_inv h hq hc
  | receive timeout => simpa only [body, hc] using receiveBody_inv h hq hc
  | setFreq freq => simpa only [body, hc] using setFreqBody_inv h hq hc
  | readRssi => simpa only [body, hc] using readRssiBody_inv h hq hc
  | stop => simpa only [body, hc] using stopBody_inv h hq hc
  | writeCtrl idx value => simpa only [body, hc] using writeCtrlBody_inv h hq hc
  | _ => rw [hc] at hk; cases hk

theorem grant_inv {s : State} (h : Inv s) (pick : Nat) : Inv (s.grant pick) := by
  rcases grant_cases s pick with hg | ⟨c, i, ho, -, hc, hg⟩
  · rw [hg]; exact h
  · rw [hg]
    refine h.granted ?_ hc
    have hl := h.lock
    rw [ho] at hl
    cases hs : s.seq with
    | none => rfl
    | some q => rw [hs] at hl; cases hl

theorem submit_inv {s u t : State} {c : Nat} {i : Instr} (h : Inv s)
    (hb : s.beginSubmit c = some (i, u)) (ht : exec i u = .next t) : Inv t := by
  obtain ⟨f, rest, hidle, hin, hi, hu⟩ := beginSubmit_cases hb
  have hturn : u.turn = .submission c := by rw [hu]; rfl
  cases hk : i.kind with
  | arbitrated =>
    rw [exec_accept hturn hk] at ht
    cases ht
    subst hu
    exact h.accepted (f := f) hidle hk (by simp) (by simp) (by simp) (by simp) (by simp) (by simp)
      (by simp) (by simp) (by simp) (by simp) (by simp) (by simp) (by simp) (by simp) (by simp)
      (by simp)
  | immediate =>
    rw [exec_immediate hturn hk] at ht
    cases ht
    subst hu
    exact h.replied (f := f) (r := _) hidle (by simp) (by simp) (by simp) (by simp) (by simp)
      (by simp) (by simp) (by simp) (by simp; rfl) (by simp) (by simp) (by simp) (by simp)
      (by simp) (by simp) (by simp)
  | transaction =>
    rw [hi] at hk
    exact absurd hk (decodeFrame_kind _ _)

end Sys2Proof.Machine
end

