-- ==== Sys2Proof/Laws/Commands.lean ====
section
/-! SUPPORT. The command bodies in the vocabulary of Safety.lean: `exec` of a command that owns the lock,
what each way to end it is, and what each primitive followed by its next position is. -/

namespace Sys2Proof.Machine

variable {s : State} {c : Nat} {i : Instr} {pos : Pos} {r : Answer}

/-- `exec` of the command that owns the lock. -/
theorem exec_owns (h : Owns s c i pos r) (hk : i.kind = .arbitrated) :
    exec i s = .next (body { client := c, cmd := i, pos := pos, answer := r } s) :=
  exec_owner (q := { client := c, cmd := i, pos := pos, answer := r }) h.1 h.2 hk

/-- `exec` of an immediate command in its submission, as a reply. -/
theorem exec_replied (hturn : s.turn = .submission c) (hk : i.kind = .immediate) :
    exec i s = .next (s.replied c ((answerOf i s).1.code :: (answerOf i s).2)) := by
  rw [exec_immediate hturn hk]; rfl

/-! ### The ends -/

theorem finish_eq (s : State) (c : Nat) (st : Status) (data : Frame) :
    s.finish c st data = s.ended c (st.code :: data) := rfl

theorem badState_eq (s : State) (c : Nat) : s.badState c = s.ended c [0x03#8] := rfl

theorem badParameter_eq (s : State) (c : Nat) : s.badParameter c = s.ended c [0x02#8] := rfl

theorem busFail_eq (s : State) (c : Nat) :
    s.busFail c = { s with tstate := .error }.ended c [0x01#8] := rfl

/-! ### The primitives -/

variable {q : Seq}

theorem transfer_goto (h : s.seq = some q) (out : Frame) (pos : Pos) :
    (s.transfer out).goto pos = s.sent q.client q.cmd pos out := by
  simp [State.transfer, State.drawn, State.emit, State.latch, State.goto, State.sent, State.called, h]

theorem openTransport_goto (h : s.seq = some q) (pos : Pos) :
    s.openTransport.goto pos = s.called q.client q.cmd pos (s.nextAnswer 0)
      (.openBus s.profile.busId s.profile.devId (s.nextAnswer 0).isOk) := by
  simp [State.openTransport, State.drawn, State.emit, State.latch, State.goto, State.called, h]

theorem setClock_goto (h : s.seq = some q) (pos : Pos) :
    s.setClock.goto pos =
      { s with busOpen := s.busOpen || (s.nextAnswer 0).isOk }.called q.client q.cmd pos
        (s.nextAnswer 0) (.setClock s.profile.spiHz (s.nextAnswer 0).isOk) := by
  simp [State.setClock, State.drawn, State.emit, State.latch, State.goto, State.called, h]

theorem closeTransport_goto (h : s.seq = some q) (pos : Pos) :
    s.closeTransport.goto pos =
      { s with busOpen := false }.performed q.client q.cmd pos q.answer .close := by
  simp [State.closeTransport, State.emit, State.goto, State.performed, h]

theorem pinOutput_goto (h : s.seq = some q) (pos : Pos) :
    s.pinOutput.goto pos =
      { s with pinMode := .output }.performed q.client q.cmd pos q.answer .pinMode := by
  simp [State.pinOutput, State.emit, State.goto, State.performed, h]

theorem pinWrite_goto (h : s.seq = some q) (level : Bool) (pos : Pos) :
    (s.pinWrite level).goto pos =
      { s with pinLevel := if level then .high else .low }.performed q.client q.cmd pos q.answer
        (.pinWrite level) := by
  simp [State.pinWrite, State.emit, State.goto, State.performed, h]

theorem pinCleanup_goto (h : s.seq = some q) (pos : Pos) :
    s.pinCleanup.goto pos =
      { s with pinMode := .unconfigured, pinLevel := .undriven }.performed q.client q.cmd pos
        q.answer .pinCleanup := by
  simp [State.pinCleanup, State.emit, State.goto, State.performed, h]

theorem wait_goto (h : s.seq = some q) (kind : WaitKind) (ms : Word) (pos : Pos) :
    (s.wait kind ms).goto pos = s.performed q.client q.cmd pos q.answer (.wait kind ms) := by
  simp [State.wait, State.emit, State.goto, State.performed, h]

theorem beginReset_unconfigured (h : s.seq = some q) (hp : s.pinMode = .unconfigured) :
    s.beginReset =
      { s with pinMode := .output }.performed q.client q.cmd .pinLow q.answer .pinMode := by
  simp only [State.beginReset, if_pos hp, pinOutput_goto h]

theorem beginReset_output (h : s.seq = some q) (hp : s.pinMode = .output) :
    s.beginReset =
      { s with pinLevel := .low }.performed q.client q.cmd .holdLow q.answer (.pinWrite false) := by
  have hne : ¬s.pinMode = .unconfigured := by rw [hp]; simp
  simp only [State.beginReset, if_neg hne, pinWrite_goto h]; rfl

/-! ### The oracle -/

@[simp] theorem fitBytes_length (d n : Nat) (bs : Frame) : (fitBytes d n bs).length = n := by
  simp [fitBytes, freeBytes]

/-- A scripted answer of the right length is taken as it is. -/
theorem nextAnswer_ok {b : Frame} {rest : List Answer} (h : s.answers = .ok b :: rest) {n : Nat}
    (hn : b.length = n) : s.nextAnswer n = .ok b := by
  simp [State.nextAnswer, h, fitBytes, ← hn]

theorem nextAnswer_fail {rest : List Answer} (h : s.answers = .fail :: rest) (n : Nat) :
    s.nextAnswer n = .fail := by simp [State.nextAnswer, h]

/-! ### The checks -/

/-- The configuration check as the list of range checks it stands for (R117). -/
theorem cfgOk_iff (p : Profile) (c : RadioConfig) : cfgOk p c = true ↔ operandsOk p (.init c) := by
  have hbw : (bwCode p c.bw.toNat).isSome = true ↔ ∃ code, (c.bw.toNat, code) ∈ p.bwSet := by
    simp only [bwCode, Option.isSome_map, List.find?_isSome, beq_iff_eq]
    constructor
    · rintro ⟨⟨x, y⟩, hm, hx⟩
      exact ⟨y, by rw [← hx]; exact hm⟩
    · rintro ⟨code, hm⟩
      exact ⟨_, hm, rfl⟩
  have hpower : powerOk p (sext16 c.power) = true ↔
      p.pMin ≤ c.power.toInt ∧ c.power.toInt ≤ p.pMax := by
    unfold powerOk sext16
    exact decide_eq_true_iff
  simp only [cfgOk, operandsOk, freqOk, modOk, preOk, comboOk, Bool.and_eq_true, hbw, hpower,
    decide_eq_true_eq, Bool.not_eq_true', List.contains_eq_mem, decide_eq_false_iff_not]
  tauto

/-! ### The owner alone -/

theorem ownerStep_eq {t : State} (h : Owns s c i pos r) (he : exec i s = .next t) :
    ownerStep s = .next t := by
  unfold ownerStep
  rw [h.2]
  exact he

theorem owns_called (h : s.turn = .sequencer) (e : Event) :
    Owns (s.called c i pos r e) c i pos r := ⟨h, rfl⟩

theorem owns_performed (h : s.turn = .sequencer) (e : Event) :
    Owns (s.performed c i pos r e) c i pos r := ⟨h, rfl⟩

theorem owns_sent (h : s.turn = .sequencer) (out : Frame) :
    Owns (s.sent c i pos out) c i pos (s.nextAnswer out.length) := ⟨h, rfl⟩

theorem ownerRun_succ {t : State} {n : Nat} (h : ownerStep s = .next t) :
    ownerRun (n + 1) s = ownerRun n t := by
  show (match ownerStep s with
    | .next t => ownerRun n t
    | .fault r => .fault r
    | .refused r => .refused r) = _
  rw [h]

/-- One more step before a run. -/
theorem ownerRun_cons {t : State} {n : Nat} {o : Host.Outcome State Fault Refusal}
    (h : Owns s c i pos r) (he : exec i s = .next t) (ho : ownerRun n t = o) :
    ownerRun (n + 1) s = o := by
  rw [ownerRun_succ (ownerStep_eq h he), ho]

end Sys2Proof.Machine
end

