-- ==== Sys2Proof/Laws/HostAgents.lean ====
section
/-! SUPPORT. What the host model's operations can do: the queues and their capacity (R245), the kept
configuration (R93, R241), the start of a scan (R246), and what a move keeps. -/

namespace Sys2Proof.Machine

/-! ### Queues -/

/-- A queue is within its capacity. -/
def withinCap (cap : Option Nat) (queue : List Frame) : Prop := ∀ n, cap = some n → queue.length ≤ n

theorem withinCap_push {cap : Option Nat} {queue : List Frame} (h : hasRoom cap queue = true) (f : Frame) :
    withinCap cap (queue ++ [f]) := by
  intro n hn
  subst hn
  simpa [hasRoom, Nat.succ_le_iff] using h

theorem withinCap_tail {cap : Option Nat} {queue : List Frame} (h : withinCap cap queue) :
    withinCap cap queue.tail := fun n hn => by
  have := h n hn
  simp; omega

/-- Both queues are within the capacity. -/
def HostSide.inCap (hp : HostParams) (h : HostSide) : Prop :=
  withinCap hp.queueCap h.outbound ∧ withinCap hp.queueCap h.inbound

/-- What a push to the outbound queue can do. -/
theorem pushOutbound_some {hp : HostParams} {h h' : HostSide} {f : Frame}
    (hpush : h.pushOutbound hp f = some h') :
    hasRoom hp.queueCap h.outbound = true ∧ h' = { h with outbound := h.outbound ++ [f] } := by
  unfold HostSide.pushOutbound at hpush
  split at hpush
  · exact ⟨‹_›, (Option.some.inj hpush).symm⟩
  · cases hpush

/-- What a push to the inbound queue can do. -/
theorem pushInbound_some {hp : HostParams} {h h' : HostSide} {f : Frame}
    (hpush : h.pushInbound hp f = some h') :
    hasRoom hp.queueCap h.inbound = true ∧ h' = { h with inbound := h.inbound ++ [f] } := by
  unfold HostSide.pushInbound at hpush
  split at hpush
  · exact ⟨‹_›, (Option.some.inj hpush).symm⟩
  · cases hpush

/-- What a take from the inbound queue can do. -/
theorem takeInbound_some {h h' : HostSide} {f : Frame} (htake : h.takeInbound = some (f, h')) :
    h.inbound = f :: h'.inbound ∧ h' = { h with inbound := h.inbound.tail } := by
  unfold HostSide.takeInbound at htake
  split at htake <;> cases htake
  simp [*]

/-! ### The kept configuration -/

@[simp] theorem own_keep_self (k : KeptConfigs) (a : HostAgent) (cfg : RadioConfig) :
    (k.keep a cfg).own a = some cfg := by cases a <;> rfl

/-- Another agent's `INIT` leaves what a client sent itself as it was (R93). -/
theorem own_keep_other (k : KeptConfigs) {a b : HostAgent} (h : a ≠ b) (cfg : RadioConfig) :
    (k.keep a cfg).own b = k.own b := by cases a <;> cases b <;> first | rfl | exact absurd rfl h

/-- An agent with a configuration of its own re-initializes with that one (R93). -/
theorem forReinit_own {k : KeptConfigs} {a : HostAgent} {cfg : RadioConfig} (h : k.own a = some cfg) :
    k.forReinit a = some cfg := by simp [KeptConfigs.forReinit, h]

/-- The controller, and with it the scanner, never re-initializes with a task's configuration (R93,
R249). -/
theorem forReinit_controller (k : KeptConfigs) : k.forReinit .controller = k.own .controller :=
  Option.or_self

@[simp] theorem afterInit_outbound (h : HostSide) (a : HostAgent) (cfg : RadioConfig) (resp : Frame) :
    (h.afterInit a cfg resp).outbound = h.outbound := by unfold HostSide.afterInit; split <;> rfl
@[simp] theorem afterInit_inbound (h : HostSide) (a : HostAgent) (cfg : RadioConfig) (resp : Frame) :
    (h.afterInit a cfg resp).inbound = h.inbound := by unfold HostSide.afterInit; split <;> rfl
@[simp] theorem afterInit_stopFlag (h : HostSide) (a : HostAgent) (cfg : RadioConfig) (resp : Frame) :
    (h.afterInit a cfg resp).stopFlag = h.stopFlag := by unfold HostSide.afterInit; split <;> rfl
@[simp] theorem afterCall_outbound (h : HostSide) (j : Job) : (h.afterCall j).outbound = h.outbound := rfl
@[simp] theorem afterCall_inbound (h : HostSide) (j : Job) : (h.afterCall j).inbound = h.inbound := rfl

/-- `REINIT` sends the kept configuration, and only while the host is not stopping (R241). -/
theorem recovery_some {h : HostSide} {a : HostAgent} {wanted : Bool} {cfg : RadioConfig}
    (hr : h.recovery a wanted = some cfg) :
    wanted = true ∧ h.stopFlag = false ∧ h.kept.forReinit a = some cfg := by
  unfold HostSide.recovery at hr
  split at hr
  · rename_i hc
    simp only [Bool.and_eq_true, Bool.not_eq_true'] at hc
    exact ⟨hc.1, hc.2, hr⟩
  · cases hr

/-! ### The scanner -/

/-- A scan starts exactly with the sequence of R246, and waits to be asked. -/
theorem startScan_ok {p : Profile} {a : ScanArgs} {sc : Scanner} (h : startScan p a = .ok sc) :
    ∃ l, scanSequence p a.first a.last a.step = some l ∧
      sc = { todo := l.map (BitVec.ofNat 32), mode := a.mode, firstHit := a.firstHit, pos := .ask } := by
  unfold startScan at h
  split at h
  · cases h
  · rename_i l hl
    exact ⟨l, hl, (Except.ok.inj h).symm⟩

/-- A scanner's step leaves the queues and `stop_flag` alone. -/
theorem scanner_after_side (h : HostSide) (sc : Scanner) (resp : Frame) :
    (sc.after h resp).2.1.outbound = h.outbound ∧ (sc.after h resp).2.1.inbound = h.inbound ∧
      (sc.after h resp).2.1.stopFlag = h.stopFlag := by
  unfold Scanner.after
  split
  · exact ⟨rfl, rfl, rfl⟩
  · simp
  · split <;> exact ⟨rfl, rfl, rfl⟩
  · split <;> exact ⟨rfl, rfl, rfl⟩
  · exact ⟨rfl, rfl, rfl⟩

/-- A scanner never goes back: the frequencies left after a step are those before it, one fewer, or none
(R250). -/
theorem scanner_after_todo (h : HostSide) (sc : Scanner) (resp : Frame) :
    (sc.after h resp).1.todo = sc.todo ∨ (sc.after h resp).1.todo = sc.todo.tail ∨
      (sc.after h resp).1.todo = [] := by
  unfold Scanner.after
  split
  · exact .inl rfl
  · exact .inl rfl
  · split
    · exact .inl rfl
    · exact .inr (.inl rfl)
  · split
    · unfold Scanner.afterResult
      split
      · exact .inr (.inr rfl)
      · exact .inr (.inl rfl)
    · exact .inr (.inl rfl)
  · exact .inl rfl

/-- A step that yields a result yields it for the current frequency and moves past it (R247, R249). -/
theorem scanner_after_yields {h : HostSide} {sc : Scanner} {resp : Frame} {r : ScanResult}
    (hy : (sc.after h resp).2.2 = some r) :
    sc.todo.head? = some r.frequency ∧
      ((sc.after h resp).1.todo = sc.todo.tail ∨ (sc.after h resp).1.todo = []) := by
  unfold Scanner.after at hy ⊢
  split at hy
  · cases hy
  · cases hy
  · rename_i f rest hpos htodo
    split at hy
    · cases hy
    · cases hy
      rw [if_neg ‹_›]
      exact ⟨by rw [htodo]; rfl, .inl rfl⟩
  · rename_i f rest hpos htodo
    split at hy
    · rw [if_pos ‹_›]
      cases hy
      refine ⟨by rw [htodo]; unfold ScanMode.result; split <;> rfl, ?_⟩
      unfold Scanner.afterResult
      split
      · exact .inr rfl
      · exact .inl rfl
    · cases hy
      rw [if_neg ‹_›]
      exact ⟨by rw [htodo]; rfl, .inl rfl⟩
  · cases hy

/-! ### What an agent's step keeps -/

theorem txAfter_inCap {hp : HostParams} {h : HostSide} (hc : h.inCap hp) (pos : TxPos) (resp : Frame) :
    (txAfter h pos resp).2.inCap hp := by
  unfold txAfter
  split
  · exact ⟨withinCap_tail hc.1, hc.2⟩
  · exact hc
  · exact hc
  · exact ⟨by simpa using hc.1, by simpa using hc.2⟩
  · exact hc

theorem rxAfter_inCap {hp : HostParams} {h : HostSide} (hc : h.inCap hp) (pos : RxPos) (resp : Frame) :
    (rxAfter hp h pos resp).2.inCap hp := by
  unfold rxAfter
  split
  · split
    · exact hc
    · split <;> exact hc
  · split
    · rename_i h' hpush
      obtain ⟨hroom, rfl⟩ := pushInbound_some hpush
      exact ⟨hc.1, withinCap_push hroom _⟩
    · exact hc
  · exact hc
  · exact ⟨by simpa using hc.1, by simpa using hc.2⟩

theorem ctlAfter_inCap {hp : HostParams} {h : HostSide} (hc : h.inCap hp) (ended : Bool) (pos : CtlPos)
    (resp : Frame) : (ctlAfter h ended pos resp).2.1.inCap hp := by
  unfold ctlAfter
  split
  · exact hc
  · exact hc
  · exact hc
  · exact ⟨by simpa using hc.1, by simpa using hc.2⟩
  · exact hc
  · obtain ⟨ho, hi, -⟩ := scanner_after_side h ‹Scanner› resp
    exact ⟨ho ▸ hc.1, hi ▸ hc.2⟩
  · exact hc
  · exact hc

/-- What a controller's move between two jobs can do: the shared state and the LMC stay as they are. -/
theorem nextJob_some {h h' : HostSystem} (hn : h.nextJob = some h') :
    ∃ jobs ctl report, h' = { h with jobs := jobs, ctl := ctl, report := report } := by
  unfold HostSystem.nextJob at hn
  split at hn
  · exact ⟨_, _, _, (Option.some.inj hn).symm⟩
  · cases hn

/-- What a step of the transmit task can do: submit, or go past its action. -/
theorem txStep_some {h h' : HostSystem} (hs : h.txStep = some h') :
    (∃ s tx, h' = { h with lmc := s, tx := tx }) ∨
      ∃ pos resp tx, h' = { h with tx := tx, side := (txAfter h.side pos resp).2 } := by
  unfold HostSystem.txStep at hs
  split at hs
  · cases hs
  · cases hs
  · obtain ⟨s, -, rfl⟩ := Option.map_eq_some_iff.mp hs
    exact .inl ⟨_, _, rfl⟩
  · exact .inr ⟨_, _, _, (Option.some.inj hs).symm⟩

/-- What a step of the receive task can do: submit, or go past its action. -/
theorem rxStep_some {h h' : HostSystem} (hs : h.rxStep = some h') :
    (∃ s rx, h' = { h with lmc := s, rx := rx }) ∨
      ∃ pos resp rx, h' = { h with rx := rx, side := (rxAfter h.params h.side pos resp).2 } := by
  unfold HostSystem.rxStep at hs
  split at hs
  · cases hs
  · cases hs
  · obtain ⟨s, -, rfl⟩ := Option.map_eq_some_iff.mp hs
    exact .inl ⟨_, _, rfl⟩
  · exact .inr ⟨_, _, _, (Option.some.inj hs).symm⟩

/-- What a step of the controller can do: begin or end a job or submit, or go past its action. -/
theorem ctlStep_some {h h' : HostSystem} (hs : h.ctlStep = some h') :
    (∃ s jobs ctl report, h' = { h with lmc := s, jobs := jobs, ctl := ctl, report := report }) ∨
      ∃ ended pos resp ctl report, h' = { h with
        ctl := ctl, report := report, side := (ctlAfter h.side ended pos resp).2.1 } := by
  unfold HostSystem.ctlStep at hs
  split at hs
  · obtain ⟨jobs, ctl, report, rfl⟩ := nextJob_some hs
    exact .inl ⟨_, _, _, _, rfl⟩
  · split at hs
    · exact .inl ⟨_, _, _, _, (Option.some.inj hs).symm⟩
    · cases hs
  · obtain ⟨s, -, rfl⟩ := Option.map_eq_some_iff.mp hs
    exact .inl ⟨_, _, _, _, rfl⟩
  · exact .inr ⟨_, _, _, _, _, (Option.some.inj hs).symm⟩

/-! ### `stop()` while a command runs -/

/-- A submission on a free port with an arbitrated command, whatever command runs: the command is
pending, `STOP` has set `stop_req`, and the running command is where it was (R170, R191). -/
theorem submitNow_arbitrated {s : State} {c : Nat} {i : Instr} (hin : s.inbox[c]? = some [])
    (hout : s.outstanding[c]? = some false) (hturn : s.turn = .sequencer) (hi : i.kind = .arbitrated)
    (hdec : decodeFrame s.profile (encode s.profile i) = i) :
    s.submitNow c i = some { s with
      hist := s.hist ++ [.submit c (encode s.profile i)]
      outstanding := s.outstanding.set c true
      pending := s.pending.set c (some i)
      stopReq := s.stopReq || decide (i = .stop) } := by
  have hclear : (s.inbox.modify c fun fs => fs ++ [encode s.profile i]).set c [] = s.inbox := by
    apply List.ext_getElem?
    intro d
    rw [List.getElem?_set, List.getElem?_modify]
    split
    · subst d
      obtain ⟨hlt, hnil⟩ := List.getElem?_eq_some_iff.mp hin
      simp [hlt, hnil]
    · simp
  have hbegin : ((s.offer c i).choosing (.submit c)).popMove.beginSubmit c =
      some (i, (s.offer c i).takeFrame c (encode s.profile i) []) := by
    simp [State.beginSubmit, State.popMove, State.choosing, State.offer, State.takeFrame, State.emit,
      hout, hin, hdec]
  have hstep : step ((s.offer c i).choosing (.submit c)) =
      exec i ((s.offer c i).takeFrame c (encode s.profile i) []) := by
    unfold step
    simp only [State.nextMove, State.choosing]
    simp only [State.choosing] at hbegin
    rw [hbegin]
  unfold State.submitNow
  rw [hstep, exec_accept rfl hi]
  simp [State.accept, State.takeFrame, State.emit, State.offer, hclear, ← hturn]

/-- The step of `stop()` that submits `STOP` sets `stop_req` at once, also while another client's
command runs, which it leaves where it is (R242, R243). -/
theorem ctlStep_stop {h : HostSystem} (hpos : h.ctl = { pos := .stopping, mark := none })
    (hin : h.lmc.inbox[ctlPort]? = some []) (hout : h.lmc.outstanding[ctlPort]? = some false)
    (hturn : h.lmc.turn = .sequencer) :
    ∃ h', h.ctlStep = some h' ∧ h'.lmc.stopReq = true ∧ h'.lmc.seq = h.lmc.seq ∧
      h'.lmc.pending = h.lmc.pending.set ctlPort (some .stop) := by
  have hstep : h.ctlStep = (h.lmc.submitNow ctlPort .stop).map fun s =>
      { h with lmc := s, ctl := { h.ctl with mark := some h.lmc.hist.length } } := by
    unfold HostSystem.ctlStep
    rw [hpos]
    rfl
  rw [hstep, submitNow_arbitrated hin hout hturn rfl rfl]
  exact ⟨_, rfl, by simp, rfl, rfl⟩

/-- Every move of the host model keeps both queues within their capacity and the parameters as they
are (R245). -/
theorem hostStep_inCap {m : HostMove} {h h' : HostSystem} (hs : hostStep m h = some h')
    (hc : h.side.inCap h.params) : h'.params = h.params ∧ h'.side.inCap h'.params := by
  cases m with
  | lmc pick =>
    simp only [hostStep] at hs
    split at hs <;> cases hs
    exact ⟨rfl, hc⟩
  | answer r =>
    cases hs
    exact ⟨rfl, hc⟩
  | transmitTask =>
    obtain ⟨s, tx, rfl⟩ | ⟨pos, resp, tx, rfl⟩ := txStep_some hs
    · exact ⟨rfl, hc⟩
    · exact ⟨rfl, txAfter_inCap hc _ _⟩
  | receiveTask =>
    obtain ⟨s, rx, rfl⟩ | ⟨pos, resp, rx, rfl⟩ := rxStep_some hs
    · exact ⟨rfl, hc⟩
    · exact ⟨rfl, rxAfter_inCap hc _ _⟩
  | controller =>
    obtain ⟨s, jobs, ctl, report, rfl⟩ | ⟨ended, pos, resp, ctl, report, rfl⟩ := ctlStep_some hs
    · exact ⟨rfl, hc⟩
    · exact ⟨rfl, ctlAfter_inCap hc _ _ _⟩
  | call j =>
    cases hs
    exact ⟨rfl, hc⟩
  | push f =>
    simp only [hostStep, Option.map_eq_some_iff] at hs
    obtain ⟨side, hpush, rfl⟩ := hs
    obtain ⟨hroom, rfl⟩ := pushOutbound_some hpush
    exact ⟨rfl, withinCap_push hroom _, hc.2⟩
  | take =>
    simp only [hostStep, Option.map_eq_some_iff] at hs
    obtain ⟨⟨f, side⟩, htake, rfl⟩ := hs
    obtain ⟨-, hside⟩ := takeInbound_some htake
    exact ⟨rfl, by rw [hside]; exact hc.1, by rw [hside]; exact withinCap_tail hc.2⟩
  | ask =>
    simp only [hostStep, HostSystem.askResult] at hs
    split at hs
    · simp only [Option.map_eq_some_iff] at hs
      obtain ⟨sc, -, rfl⟩ := hs
      exact ⟨rfl, hc⟩
    · cases hs
  | takeReport =>
    simp only [hostStep] at hs
    split at hs <;> cases hs
    exact ⟨rfl, hc⟩

/-- The host starts with both queues empty, so within their capacity. -/
theorem start_inCap {p : Profile} {hp : HostParams} {h : HostSystem}
    (hs : HostSystem.start p hp = some h) : h.side.inCap h.params := by
  unfold HostSystem.start at hs
  split at hs <;> cases hs
  exact ⟨fun _ _ => Nat.zero_le _, fun _ _ => Nat.zero_le _⟩

end Sys2Proof.Machine
end

