-- ==== Sys2Proof/Laws/PerInstr.lean ====
section
/-! SUPPORT. The per-instruction family `RoundTrip`: decoding the encoding of a well-formed
instruction gives it back, the commands through the command decoder (R91) and the SPI frames through
their own reading (R87). One lemma per constructor. -/

namespace Sys2Proof.Laws.RoundTrip

open Sys2Proof.Machine

/-- The decoder of an instruction's own format gives the instruction back from its encoding. -/
def Statement (i : Instr) : Prop :=
  ∀ p : Profile, i.wf p = true →
    (i.kind ≠ .transaction → decodeFrame p (encode p i) = i) ∧
    (i.kind = .transaction → decodeSpi p (encode p i) = some i)

theorem init (cfg : RadioConfig) : Statement (.init cfg) := by
  intro p _
  refine ⟨fun _ => ?_, fun h => by simp [Instr.kind] at h⟩
  obtain ⟨freq, power, sf, bw, cr, sync, preamble⟩ := cfg
  have h4 := ofNat_fromBe_be4 freq
  have h5 := ofNat_fromBe_be2 power
  have h6 := ofNat_fromBe_be2 bw
  have h7 := ofNat_fromBe_be2 preamble
  rw [be4_eq] at h4
  rw [be2_eq] at h5 h6 h7
  simp [-BitVec.ofNat_toNat, encode, decodeFrame, frameLength, decodeCommand, u32At, u16At, u8At, bytesAt, be2_eq, be4_eq,
    h4, h5, h6, h7]

theorem detect : Statement .detect := by
  intro p _; simp [encode, decodeFrame, frameLength, decodeCommand, Instr.kind]

theorem transmit (data : Frame) : Statement (.transmit data) := by
  intro p h
  have hl : data.length < 256 := by simpa [Instr.wf] using h
  have hm : data.length % 256 = data.length := Nat.mod_eq_of_lt hl
  refine ⟨fun _ => ?_, fun h => by simp [Instr.kind] at h⟩
  simp [encode, decodeFrame, frameLength, decodeCommand, u8At, bytesAt, hm]; omega

theorem receive (timeout : Word) : Statement (.receive timeout) := by
  intro p _
  have h4 := ofNat_fromBe_be4 timeout
  rw [be4_eq] at h4
  simp [-BitVec.ofNat_toNat, encode, decodeFrame, frameLength, decodeCommand, u32At, bytesAt, be4_eq, h4, Instr.kind]

theorem setFreq (freq : Word) : Statement (.setFreq freq) := by
  intro p _
  have h4 := ofNat_fromBe_be4 freq
  rw [be4_eq] at h4
  simp [-BitVec.ofNat_toNat, encode, decodeFrame, frameLength, decodeCommand, u32At, bytesAt, be4_eq, h4, Instr.kind]

theorem readRssi : Statement .readRssi := by
  intro p _; simp [encode, decodeFrame, frameLength, decodeCommand, Instr.kind]

theorem stop : Statement .stop := by
  intro p _; simp [encode, decodeFrame, frameLength, decodeCommand, Instr.kind]

theorem getState : Statement .getState := by
  intro p _; simp [encode, decodeFrame, frameLength, decodeCommand, Instr.kind]

theorem writeCtrl (idx : Byte) (value : Word) : Statement (.writeCtrl idx value) := by
  intro p _
  have h4 := ofNat_fromBe_be4 value
  rw [be4_eq] at h4
  simp [-BitVec.ofNat_toNat, encode, decodeFrame, frameLength, decodeCommand, u32At, u8At, bytesAt, be4_eq, h4, Instr.kind]

theorem readCtrl (idx : Byte) : Statement (.readCtrl idx) := by
  intro p _; simp [encode, decodeFrame, frameLength, decodeCommand, u8At, Instr.kind]

theorem encFreq (freq : Word) : Statement (.encFreq freq) := by
  intro p _
  have h4 := ofNat_fromBe_be4 freq
  rw [be4_eq] at h4
  simp [-BitVec.ofNat_toNat, encode, decodeFrame, frameLength, decodeCommand, u32At, bytesAt, be4_eq, h4, Instr.kind]

theorem decFreq (reg : Nat) : Statement (.decFreq reg) := by
  intro p h
  have hr : reg < 256 ^ p.frfBytes := by simpa [Instr.wf] using h
  have hm : reg % 256 ^ p.frfBytes = reg := Nat.mod_eq_of_lt hr
  refine ⟨fun _ => ?_, fun h => by simp [Instr.kind] at h⟩
  have ht : (be p.frfBytes reg).take p.frfBytes = be p.frfBytes reg :=
    List.take_of_length_le (by simp)
  simp [encode, decodeFrame, frameLength, decodeCommand, bytesAt, Nat.add_comm, ht, fromBe_be, hm]

theorem encPower (power : Half) : Statement (.encPower power) := by
  intro p _
  have h2 := ofNat_fromBe_be2 power
  rw [be2_eq] at h2
  simp [-BitVec.ofNat_toNat, encode, decodeFrame, frameLength, decodeCommand, u16At, bytesAt, be2_eq, h2, Instr.kind]

theorem encMod (sf : Byte) (bw : Half) (cr : Byte) : Statement (.encMod sf bw cr) := by
  intro p _
  have h2 := ofNat_fromBe_be2 bw
  rw [be2_eq] at h2
  simp [-BitVec.ofNat_toNat, encode, decodeFrame, frameLength, decodeCommand, u16At, u8At, bytesAt, be2_eq, h2, Instr.kind]

theorem encPreamble (preamble : Half) : Statement (.encPreamble preamble) := by
  intro p _
  have h2 := ofNat_fromBe_be2 preamble
  rw [be2_eq] at h2
  simp [-BitVec.ofNat_toNat, encode, decodeFrame, frameLength, decodeCommand, u16At, bytesAt, be2_eq, h2, Instr.kind]

theorem encSync (sync : Byte) : Statement (.encSync sync) := by
  intro p _; simp [encode, decodeFrame, frameLength, decodeCommand, u8At, Instr.kind]

theorem decRssi (raw : Byte) : Statement (.decRssi raw) := by
  intro p _; simp [encode, decodeFrame, frameLength, decodeCommand, u8At, Instr.kind]

theorem decPayload (data : Frame) : Statement (.decPayload data) := by
  intro p h
  have hl : data.length < 256 := by simpa [Instr.wf] using h
  have hm : data.length % 256 = data.length := Nat.mod_eq_of_lt hl
  refine ⟨fun _ => ?_, fun h => by simp [Instr.kind] at h⟩
  simp [encode, decodeFrame, frameLength, decodeCommand, u8At, bytesAt, hm]; omega

theorem reserved (op : Byte) (rest : Frame) : Statement (.reserved op rest) := by
  intro p h
  have hn : frameLength p op (rest.headD 0#8) = none := by simpa [Instr.wf] using h
  refine ⟨fun _ => ?_, fun h => by simp [Instr.kind] at h⟩
  simp only [encode, decodeFrame, hn]

theorem illegal (frame : Frame) : Statement (.illegal frame) := by
  intro p h
  refine ⟨fun _ => ?_, fun h => by simp [Instr.kind] at h⟩
  cases frame with
  | nil => rfl
  | cons op rest =>
    show decodeFrame p (op :: rest) = .illegal (op :: rest)
    simp only [Instr.wf] at h
    split at h
    · cases h
    · rename_i n hn
      simp only [decodeFrame, hn]
      exact if_neg (by simpa using h)

theorem writeByte_bit7 (a : BitVec 7) : (0x80#8 ||| BitVec.ofNat 8 a.toNat).getLsbD 7 = true := by
  simp

theorem writeByte_addr (a : BitVec 7) : (0x80#8 ||| BitVec.ofNat 8 a.toNat).setWidth 7 = a := by
  revert a; decide

theorem readByte_bit7 (a : BitVec 7) : (BitVec.ofNat 8 a.toNat &&& 0x7F#8).getLsbD 7 = false := by
  simp

theorem readByte_addr (a : BitVec 7) : (BitVec.ofNat 8 a.toNat &&& 0x7F#8).setWidth 7 = a := by
  revert a; decide

theorem spiWrite (addr : BitVec 7) (data : Frame) : Statement (.spiWrite addr data) := by
  intro p _
  refine ⟨fun h => by simp [Instr.kind] at h, fun _ => ?_⟩
  simp only [encode, writeBytes, decodeSpi, writeByte_bit7, writeByte_addr, if_true]

theorem spiRead (addr : BitVec 7) (n : Nat) : Statement (.spiRead addr n) := by
  intro p h
  have hn : 1 ≤ n := by simpa [Instr.wf] using h
  have hne : List.replicate n p.dummy ≠ [] := by
    intro h0; simp at h0; omega
  refine ⟨fun h => by simp [Instr.kind] at h, fun _ => ?_⟩
  simp only [encode, readBytes, decodeSpi, readByte_bit7, readByte_addr]
  simp [hne]

end Sys2Proof.Laws.RoundTrip
end

