-- ==== Sys2Proof/Tests/Slice0.lean ====
section
/-! SUPPORT. The model's own tests and the witnesses of the obligations' hypotheses. Expected words,
responses and events come from the spec: R71 to R74 and R87 to R89 for words, 95_test_vectors.md (cited
by vector) for the rest. Each test is about one step. -/

namespace Sys2Proof.Tests

open Sys2Proof Sys2Proof.Machine

/-! ### Helpers -/

/-- `INIT0`'s configuration (95_test_vectors.md). -/
def cfg0 : RadioConfig :=
  { freq := 433000000#32, power := 14#16, sf := 7#8, bw := 125#16, cr := 5#8, sync := 0x12#8,
    preamble := 8#16 }

/-- Client 0 has just submitted an immediate command to `s`. -/
def asking (s : State) : State := { s with turn := .submission 0, outstanding := [true, false, false] }

/-- The state `SI` of 95_test_vectors.md. -/
def idle : State :=
  { State.reset with tstate := .idle, cfg := cfg0, cfgValid := true, busOpen := true,
                     pinMode := .output, pinLevel := .high }

/-- `s` while client 0's command `i` runs and stands at `pos` with last answer `r`. -/
def running (s : State) (i : Instr) (pos : Pos) (r : Answer) : State :=
  { s with owner := some 0, outstanding := [true, false, false],
           seq := some { client := 0, cmd := i, pos := pos, answer := r },
           hist := [.submit 0 (encode P0 i), .grant 0] }

/-- `s` with the environment's next answers. -/
def answering (s : State) (rs : List Answer) : State := { s with answers := rs }

/-- The state after an outcome; the reset state when it is none. -/
def after (o : Host.Outcome State Fault Refusal) : State :=
  match o with
  | .next t => t
  | _ => State.reset

/-- The last event after an outcome. -/
def lastEvent (o : Host.Outcome State Fault Refusal) : Option Event := (after o).hist.getLast?

/-- `n` zero bytes. -/
def zeros (n : Nat) : Frame := List.replicate n 0#8

theorem zeros_length (n : Nat) : (zeros n).length = n := List.length_replicate

theorem owns_running {s : State} (h : s.turn = .sequencer) (i : Instr) (pos : Pos) (r : Answer) :
    Owns (running s i pos r) 0 i pos r := ⟨h, rfl⟩

/-! ### Well-formedness: each check refuses an ill-formed term -/

theorem test_wf_transmit : (Instr.transmit (zeros 256)).wf P0 = false := by
  rw [Instr.wf, zeros_length]; rfl
theorem test_wf_decPayload : (Instr.decPayload (zeros 256)).wf P0 = false := by
  rw [Instr.wf, zeros_length]; rfl
theorem test_wf_decFreq : (Instr.decFreq 0x1000000).wf P0 = false := by decide
theorem test_wf_reserved : (Instr.reserved 0x0A#8 []).wf P0 = false := by decide
theorem test_wf_illegal_reserved : (Instr.illegal [0x0B#8]).wf P0 = false := by decide
theorem test_wf_illegal_exact : (Instr.illegal [0x07#8]).wf P0 = false := by decide
theorem test_wf_spiRead : (Instr.spiRead 0#7 0).wf P0 = false := by decide

/-! ### Decoding: a word of every constructor, written out from R71, R73, R74 and R87 to R89 -/

theorem test_decode_init :
    decodeFrame P0 [0x01#8, 0x33#8, 0xBC#8, 0xA1#8, 0x00#8, 0xFF#8, 0xF7#8, 0x0C#8, 0x01#8, 0xF4#8,
      0x08#8, 0x34#8, 0x00#8, 0x0C#8] =
    .init { freq := 868000000#32, power := 0xFFF7#16, sf := 12#8, bw := 500#16, cr := 8#8,
            sync := 0x34#8, preamble := 12#16 } := by decide
theorem test_decode_detect : decodeFrame P0 [0x02#8] = .detect := by decide
theorem test_decode_transmit :
    decodeFrame P0 [0x03#8, 0x02#8, 0x48#8, 0x69#8] = .transmit [0x48#8, 0x69#8] := by decide
theorem test_decode_receive :
    decodeFrame P0 [0x04#8, 0x00#8, 0x00#8, 0x07#8, 0xD0#8] = .receive 2000#32 := by decide
theorem test_decode_setFreq :
    decodeFrame P0 [0x05#8, 0x19#8, 0xD1#8, 0xB9#8, 0xD8#8] = .setFreq 433175000#32 := by decide
theorem test_decode_readRssi : decodeFrame P0 [0x06#8] = .readRssi := by decide
theorem test_decode_stop : decodeFrame P0 [0x07#8] = .stop := by decide
theorem test_decode_getState : decodeFrame P0 [0x08#8] = .getState := by decide
theorem test_decode_writeCtrl :
    decodeFrame P0 [0x09#8, 0x03#8, 0x00#8, 0x00#8, 0x01#8, 0xF4#8] = .writeCtrl 3#8 500#32 := by
  decide
theorem test_decode_readCtrl : decodeFrame P0 [0x0A#8, 0x04#8] = .readCtrl 4#8 := by decide
theorem test_decode_encFreq :
    decodeFrame P0 [0x10#8, 0x19#8, 0xCF#8, 0x0E#8, 0x40#8] = .encFreq 433000000#32 := by decide
theorem test_decode_decFreq :
    decodeFrame P0 [0x11#8, 0x6C#8, 0x4B#8, 0x33#8] = .decFreq 0x6C4B33 := by decide
theorem test_decode_encPower : decodeFrame P0 [0x12#8, 0xFF#8, 0xF6#8] = .encPower 0xFFF6#16 := by
  decide
theorem test_decode_encMod :
    decodeFrame P0 [0x13#8, 0x0C#8, 0x01#8, 0xF4#8, 0x08#8] = .encMod 12#8 500#16 8#8 := by decide
theorem test_decode_encPreamble : decodeFrame P0 [0x14#8, 0x01#8, 0x00#8] = .encPreamble 256#16 := by
  decide
theorem test_decode_encSync : decodeFrame P0 [0x15#8, 0x34#8] = .encSync 0x34#8 := by decide
theorem test_decode_decRssi : decodeFrame P0 [0x16#8, 0x50#8] = .decRssi 0x50#8 := by decide
theorem test_decode_decPayload :
    decodeFrame P0 [0x17#8, 0x03#8, 0x00#8, 0x41#8, 0x00#8] = .decPayload [0x00#8, 0x41#8, 0x00#8] := by
  decide
theorem test_decode_reserved :
    decodeFrame P0 [0x0B#8, 0x01#8] = .reserved 0x0B#8 [0x01#8] ∧
    decodeFrame P0 [0x00#8] = .reserved 0x00#8 [] ∧
    decodeFrame P0 [0x18#8] = .reserved 0x18#8 [] ∧
    decodeFrame P0 [0xFF#8] = .reserved 0xFF#8 [] := by decide
/-- VD1, VD7, VD11, VD15, VD16. -/
theorem test_decode_illegal :
    decodeFrame P0 [] = .illegal [] ∧
    decodeFrame P0 [0x07#8, 0x00#8] = .illegal [0x07#8, 0x00#8] ∧
    decodeFrame P0 [0x03#8, 0x02#8, 0x48#8] = .illegal [0x03#8, 0x02#8, 0x48#8] ∧
    decodeFrame P0 [0x0A#8] = .illegal [0x0A#8] ∧
    decodeFrame P0 [0x09#8, 0x03#8, 0x00#8, 0x00#8, 0x01#8] =
      .illegal [0x09#8, 0x03#8, 0x00#8, 0x00#8, 0x01#8] := by decide
theorem test_decode_spiWrite :
    decodeSpi P0 [0x9D#8, 0x72#8, 0x70#8] = some (.spiWrite 0x1D#7 [0x72#8, 0x70#8]) := by decide
theorem test_decode_spiRead : decodeSpi P0 [0x1B#8, 0x00#8] = some (.spiRead 0x1B#7 1) := by decide

/-- A 14-byte `INIT` word of the opcode table, first byte in bits 7..0. -/
theorem test_decode_table_word :
    decodeTableWord 112 0x080012057D00070E00400ECF1901 = some (.init cfg0) := by decide
/-- A word of 8 bits names an opcode only: its operand bytes are zero (log entry 23). -/
theorem test_decode_table_short :
    decodeTableWord 8 0x07 = some .stop ∧ decodeTableWord 8 0x05 = some (.setFreq 0#32) := by decide

/-! ### Assembler lines of R92 -/

theorem test_assemble_power : assembleLine P0 "ENC_POWER -9" = some [0x12#8, 0xFF#8, 0xF7#8] := by
  decide
theorem test_assemble_transmit :
    assembleLine P0 "c0: TRANSMIT \"Hi\"" = some [0x03#8, 0x02#8, 0x48#8, 0x69#8] := by decide
theorem test_assemble_receive :
    assembleLine P0 "RECEIVE timeout=INF" = some [0x04#8, 0xFF#8, 0xFF#8, 0xFF#8, 0xFF#8] := by decide
theorem test_assemble_payload :
    assembleLine P0 "DEC_PAYLOAD [0x41, 0x42]" = some [0x17#8, 0x02#8, 0x41#8, 0x42#8] := by decide
theorem test_assemble_ctrl :
    assembleLine P0 "WRITE_CTRL T_SETTLE, 500" = some [0x09#8, 0x03#8, 0x00#8, 0x00#8, 0x01#8, 0xF4#8] := by
  decide
theorem test_assemble_unknown : assembleLine P0 "RESET" = none := by decide

/-! ### Codec commands, one step each (95_test_vectors.md, 2.1) -/

/-- VC8, VC4. -/
theorem test_encFreq :
    lastEvent (exec (.encFreq 433175000#32) (asking State.reset)) =
      some (.resp 0 [0x00#8, 0x6C#8, 0x4B#8, 0x33#8]) ∧
    lastEvent (exec (.encFreq 1020000001#32) (asking State.reset)) = some (.resp 0 [0x02#8]) := by
  decide
/-- VC10, VC14. -/
theorem test_decFreq :
    lastEvent (exec (.decFreq 1) (asking State.reset)) =
      some (.resp 0 [0x00#8, 0x00#8, 0x00#8, 0x00#8, 0x3E#8]) ∧
    lastEvent (exec (.decFreq 0xFFFFFF) (asking State.reset)) =
      some (.resp 0 [0x00#8, 0x3D#8, 0x08#8, 0xFF#8, 0xC3#8]) := by decide
/-- VC16, VC20, VC19. -/
theorem test_encPower :
    lastEvent (exec (.encPower 0xFFF7#16) (asking State.reset)) = some (.resp 0 [0x00#8, 0xF7#8]) ∧
    lastEvent (exec (.encPower 0xFFF6#16) (asking State.reset)) = some (.resp 0 [0x02#8]) ∧
    lastEvent (exec (.encPower 23#16) (asking State.reset)) = some (.resp 0 [0x02#8]) := by decide
/-- VC22, VC28. -/
theorem test_encMod :
    lastEvent (exec (.encMod 12#8 500#16 8#8) (asking State.reset)) =
      some (.resp 0 [0x00#8, 0x98#8, 0xC0#8]) ∧
    lastEvent (exec (.encMod 7#8 62#16 5#8) (asking State.reset)) = some (.resp 0 [0x02#8]) := by
  decide
/-- VC33. -/
theorem test_encPreamble :
    lastEvent (exec (.encPreamble 256#16) (asking State.reset)) =
      some (.resp 0 [0x00#8, 0x01#8, 0x00#8]) := by decide
/-- VC36. -/
theorem test_encSync :
    lastEvent (exec (.encSync 0xFF#8) (asking State.reset)) = some (.resp 0 [0x00#8, 0xFF#8]) := by
  decide
/-- VC39, VC41. -/
theorem test_decRssi :
    lastEvent (exec (.decRssi 0x50#8) (asking State.reset)) =
      some (.resp 0 [0x00#8, 0xFF#8, 0xB0#8]) ∧
    lastEvent (exec (.decRssi 0xFF#8) (asking State.reset)) =
      some (.resp 0 [0x00#8, 0xFF#8, 0x01#8]) := by decide
/-- VC42, VC43, VC44, VC45. -/
theorem test_decPayload_strip :
    lastEvent (exec (.decPayload [0x41#8, 0x42#8, 0x00#8, 0x00#8]) (asking State.reset)) =
      some (.resp 0 [0x00#8, 0x01#8, 0x02#8, 0x41#8, 0x42#8]) ∧
    lastEvent (exec (.decPayload [0x00#8, 0x41#8, 0x00#8]) (asking State.reset)) =
      some (.resp 0 [0x00#8, 0x01#8, 0x02#8, 0x00#8, 0x41#8]) ∧
    lastEvent (exec (.decPayload [0x00#8, 0x00#8]) (asking State.reset)) =
      some (.resp 0 [0x00#8, 0x03#8, 0x00#8]) ∧
    lastEvent (exec (.decPayload []) (asking State.reset)) =
      some (.resp 0 [0x00#8, 0x01#8, 0x00#8]) := by decide
/-- VC47, VC49. -/
theorem test_decPayload_keep :
    lastEvent (exec (.decPayload [0x00#8, 0x00#8])
        (asking { State.reset with ctrl := { ctrlReset0 with policy := 0#32 } })) =
      some (.resp 0 [0x00#8, 0x03#8, 0x02#8, 0x00#8, 0x00#8]) ∧
    lastEvent (exec (.decPayload (zeros 33)) (asking State.reset)) = some (.resp 0 [0x02#8]) := by
  decide

/-! ### Control commands and illegal frames -/

/-- K1, and vector A2's `GET_STATE` during a `TRANSMIT`. -/
theorem test_getState :
    lastEvent (exec .getState (asking State.reset)) =
      some (.resp 0 [0x00#8, 0x00#8, 0x00#8, 0x00#8]) ∧
    lastEvent (exec .getState { running { idle with tstate := .transmitting } (.transmit [0x41#8])
        .txDone (.ok []) with turn := .submission 2 }) =
      some (.resp 2 [0x00#8, 0x02#8, 0x29#8, 0x00#8]) := by decide
/-- K2, K3, K4. -/
theorem test_readCtrl :
    lastEvent (exec (.readCtrl 0#8) (asking State.reset)) =
      some (.resp 0 [0x00#8, 0x00#8, 0x00#8, 0x00#8, 0x01#8]) ∧
    lastEvent (exec (.readCtrl 4#8) (asking State.reset)) =
      some (.resp 0 [0x00#8, 0x00#8, 0x00#8, 0x00#8, 0x64#8]) ∧
    lastEvent (exec (.readCtrl 5#8) (asking State.reset)) = some (.resp 0 [0x02#8]) := by decide
/-- K6, K8. -/
theorem test_writeCtrl :
    (after (exec (.writeCtrl 0#8 0xFFFFFFFF#32)
        (running State.reset (.writeCtrl 0#8 0xFFFFFFFF#32) .start (.ok [])))).ctrl.policy = 3#32 ∧
    lastEvent (exec (.writeCtrl 4#8 0#32) (running State.reset (.writeCtrl 4#8 0#32) .start (.ok []))) =
      some (.resp 0 [0x02#8]) := by decide
/-- K12: from `SI` the transport is closed first; then the pin is released. -/
theorem test_stop_primitives :
    lastEvent (exec .stop (running idle .stop .start (.ok []))) = some .close ∧
    lastEvent (exec .stop (running { idle with busOpen := false } .stop .stopPin (.ok []))) =
      some .pinCleanup := by decide
/-- K11, E11: the end keeps `Error`. -/
theorem test_stop_end :
    lastEvent (exec .stop (running State.reset .stop .start (.ok []))) = some (.resp 0 [0x00#8]) ∧
    (after (exec .stop (running { State.reset with tstate := .error } .stop .start (.ok [])))).tstate =
      .error := by decide
/-- VD2, VD7: `stop_req` stays 0. -/
theorem test_illegal :
    lastEvent (exec (.reserved 0x00#8 []) (asking State.reset)) = some (.resp 0 [0x06#8]) ∧
    lastEvent (exec (.illegal [0x07#8, 0x00#8]) (asking State.reset)) = some (.resp 0 [0x06#8]) ∧
    (after (exec (.illegal [0x07#8, 0x00#8]) (asking State.reset))).stopReq = false := by decide

/-! ### Transceiver commands, one primitive each (95_test_vectors.md, 2.3 and 2.6) -/

/-- W3.5, and `INIT0`'s third write. -/
theorem test_init :
    lastEvent (exec (.init { cfg0 with power := 23#16 })
        (running State.reset (.init { cfg0 with power := 23#16 }) .start (.ok []))) =
      some (.resp 0 [0x02#8]) ∧
    lastEvent (exec (.init cfg0) (answering (running idle (.init cfg0) (.cfgWrite 2) (.ok [0#8, 0#8]))
        [.ok [0#8, 0#8, 0#8]])) =
      some (.xfer [0x9D#8, 0x72#8, 0x70#8] (.ok [0#8, 0#8, 0#8])) := by decide
/-- E1: `Open` fails and `stopped` is 0; X1: the end is `Idle`. -/
theorem test_init_edges :
    lastEvent (exec (.init cfg0) (answering (running { State.reset with stopped := true } (.init cfg0)
        .start (.ok [])) [.fail])) = some (.openBus 0 0 false) ∧
    (after (exec (.init cfg0) (answering (running { State.reset with stopped := true } (.init cfg0)
        .start (.ok [])) [.fail]))).stopped = false ∧
    (after (exec (.init cfg0) (running { idle with tstate := .uninitialized } (.init cfg0)
      (.cfgWrite 5) (.ok [0#8, 0#8])))).tstate = .idle := by decide
/-- W7.1, W7.2. -/
theorem test_detect :
    lastEvent (exec .detect (running idle .detect .version (.ok [0#8, 0x12#8]))) =
      some (.resp 0 [0x00#8, 0x12#8]) ∧
    (after (exec .detect (running idle .detect .version (.ok [0#8, 0x12#8])))).deviceId = 0x12#8 ∧
    (after (exec .detect (running idle .detect .version (.ok [0#8, 0x00#8])))).tstate = .error := by
  decide
/-- E2: a failed clock set closes the handle. -/
theorem test_detect_clock :
    lastEvent (exec .detect (running State.reset .detect .clocked .fail)) = some .close := by decide
/-- X8, X11, X12. -/
theorem test_transmit :
    lastEvent (exec (.transmit [0x48#8, 0x69#8]) (answering (running idle (.transmit [0x48#8, 0x69#8])
        .start (.ok [])) [.ok [0#8, 0#8, 0#8]])) =
      some (.xfer [0x80#8, 0x48#8, 0x69#8] (.ok [0#8, 0#8, 0#8])) ∧
    lastEvent (exec (.transmit (zeros 33)) (running idle (.transmit (zeros 33)) .start (.ok []))) =
      some (.resp 0 [0x02#8]) ∧
    lastEvent (exec (.transmit (zeros 33)) (running State.reset (.transmit (zeros 33)) .start (.ok []))) =
      some (.resp 0 [0x03#8]) := by decide
/-- E5: the start of transmission fails. -/
theorem test_transmit_fail :
    lastEvent (exec (.transmit [0x48#8]) (running { idle with tstate := .transmitting }
        (.transmit [0x48#8]) .txSettle .fail)) = some (.resp 0 [0x01#8]) ∧
    (after (exec (.transmit [0x48#8]) (running { idle with tstate := .transmitting }
        (.transmit [0x48#8]) .txSettle .fail))).tstate = .error := by decide
/-- X19, X14: a read that shows data, and the timeout after one empty read. -/
theorem test_receive :
    lastEvent (exec (.receive 100#32) (running { idle with tstate := .receiving } (.receive 100#32)
        .rxJudge (.ok (0#8 :: ([0x00#8, 0x00#8, 0x41#8] ++ zeros 29))))) =
      some (.resp 0 [0x00#8, 0x01#8, 0x03#8, 0x00#8, 0x00#8, 0x41#8]) ∧
    lastEvent (exec (.receive 100#32) (running { idle with tstate := .receiving } (.receive 100#32)
        .rxJudge (.ok (zeros 33)))) = some (.resp 0 [0x00#8, 0x00#8, 0x00#8]) := by decide
/-- X16's first wait, and A3's cancelled read. -/
theorem test_receive_wait :
    lastEvent (exec (.receive 250#32) (running { idle with tstate := .receiving } (.receive 250#32)
        .rxJudge (.ok (zeros 33)))) = some (.wait .poll 100#32) ∧
    lastEvent (exec (.receive 250#32) (running { idle with tstate := .receiving, stopReq := true }
        (.receive 250#32) .rxJudge (.ok (zeros 33)))) = some (.resp 0 [0x05#8]) := by decide
/-- X24. -/
theorem test_setFreq :
    lastEvent (exec (.setFreq 433175000#32) (answering (running idle (.setFreq 433175000#32) .start
        (.ok [])) [.ok (zeros 4)])) =
      some (.xfer [0x86#8, 0x6C#8, 0x4B#8, 0x33#8] (.ok (zeros 4))) ∧
    (after (exec (.setFreq 433175000#32) (running idle (.setFreq 433175000#32) .tuned
        (.ok (zeros 4))))).cfg = { cfg0 with freq := 433175000#32 } := by decide
/-- X27. -/
theorem test_readRssi :
    lastEvent (exec .readRssi (answering (running idle .readRssi .start (.ok [])) [.ok [0#8, 0x50#8]])) =
      some (.xfer [0x1B#8, 0x00#8] (.ok [0#8, 0x50#8])) ∧
    lastEvent (exec .readRssi (running idle .readRssi .rssi (.ok [0#8, 0x50#8]))) =
      some (.resp 0 [0x00#8, 0xFF#8, 0xB0#8, 0x50#8]) := by decide
/-- A failed answer, and a scripted answer longer than the call, which is cut (R52). -/
theorem test_spiWrite :
    lastEvent (exec (.spiWrite 0x39#7 [0x12#8]) (answering State.reset [.fail])) =
      some (.xfer [0xB9#8, 0x12#8] .fail) := by decide
theorem test_spiRead :
    lastEvent (exec (.spiRead 0x42#7 1) (answering State.reset [.ok [1#8, 0x12#8, 3#8]])) =
      some (.xfer [0x42#8, 0x00#8] (.ok [1#8, 0x12#8])) := by decide

/-- R133's order, from `SI`: `cfg_valid` is 0 after the first primitive of `INIT`, while `tstate` is still
`Idle` (the exception to R48's fifth clause, log entry 15), and 1 again at the end. -/
theorem test_init_from_idle :
    (let t := after (exec (.init cfg0) (running idle (.init cfg0) .start (.ok [])))
     t.tstate = .idle ∧ t.cfgValid = false) ∧
    (let t := after (exec (.init cfg0) (running { idle with cfgValid := false } (.init cfg0) (.cfgWrite 5)
        (.ok [])))
     t.tstate = .idle ∧ t.cfgValid = true) := by decide

/-! ### Steps of the arbiter -/

/-- A placed word is submitted and answered in the next step (K1). -/
theorem test_step_immediate :
    (after (step (State.reset.withFetchWord 8 0x08))).hist =
      [.submit 0 [0x08#8], .resp 0 [0x00#8, 0x00#8, 0x00#8, 0x00#8]] := by decide
/-- A placed `STOP` sets `stop_req` at its submission and waits (R170). -/
theorem test_step_stop :
    (after (step (State.reset.withFetchWord 8 0x07))).stopReq = true ∧
    (after (step (State.reset.withFetchWord 8 0x07))).pending = [some .stop, none, none] := by decide
/-- A1, A3: round robin from `rr = 2` chooses port 0, from `rr = 0` port 1; `STOP` comes first. -/
theorem test_choose :
    { State.reset with pending := [some .detect, some .detect, none] }.choose 0 = some 0 ∧
    { State.reset with pending := [some .detect, some .detect, none], rr := 0 }.choose 0 = some 1 ∧
    { State.reset with pending := [some .stop, none, some .detect], rr := 1 }.choose 0 = some 0 := by
  decide

/-! ### The host model -/

/-- A host with two-entry queues and a kept configuration. -/
def hostParams : HostParams := { heartbeat := [], backoffMs := 1, joinMs := 1, queueCap := some 2 }
def hostSide : HostSide := { outbound := [], inbound := [], stopFlag := false, kept := { controller := some cfg0 } }
def started : Option HostSystem := HostSystem.start P0 hostParams
/-- Section 1.6: the scan of 410 to 414 MHz in steps of 1 MHz. -/
theorem test_scan :
    scanSequence P0 410000000 414000000 1000000 =
      some [410000000, 411000000, 412000000, 413000000, 414000000] := by decide
/-- P2's first step: `SET_FREQ`, `READ_RSSI`, and the result (410000000, -80, none). -/
def scanning (pos : ScanPos) : Scanner :=
  { todo := [410000000#32], mode := .signal, firstHit := false, pos := pos }
theorem test_scanner :
    (scanning .tune).action hostParams hostSide = .submit (.setFreq 410000000#32) ∧
    (scanning .measure).action hostParams hostSide = .submit .readRssi ∧
    (scanning .measure).after hostSide [0x00#8, 0xFF#8, 0xB0#8, 0x50#8] =
      ({ scanning .ask with todo := [] }, hostSide,
        some { frequency := 410000000#32, strength := some (BitVec.ofInt 16 (-80)), packet := none }) := by
  decide
/-- R249 with 90_conflicts.md C3: a transport error gives an empty result, then backoff and `REINIT`; with
`stop_flag` set there is no `REINIT`. -/
theorem test_scanner_recovers :
    (scanning .tune).after hostSide [0x01#8] =
      ({ scanning .backoff with todo := [] }, hostSide, some (.empty 410000000#32)) ∧
    ((scanning .backoff).after hostSide []).1.pos = .recover cfg0 ∧
    ((scanning .backoff).after { hostSide with stopFlag := true } []).1.pos = .ask ∧
    (scanning .ask).action hostParams { hostSide with stopFlag := true } = .finished := by decide
/-- R93, R241: a task's own configuration comes before the controller's, and a task's `INIT` leaves the
controller's alone. -/
theorem test_kept :
    (hostSide.recovery .transmitTask true) = some cfg0 ∧
    ((hostSide.afterInit .transmitTask cfgReset [0x00#8]).recovery .transmitTask true) = some cfgReset ∧
    ((hostSide.afterInit .transmitTask cfgReset [0x00#8]).recovery .controller true) = some cfg0 ∧
    (hostSide.afterInit .controller cfgReset [0x01#8]) = hostSide := by decide
/-- R93, R263: `SET_POLICY` is one write of `POLICY`, and `SET_TIMING` goes on with the next register. -/
theorem test_controlJobs :
    (Job.setPolicy true true).start P0 = (.writing (.writeCtrl 0#8 3#32) [] [], none) ∧
    (ctlAfter hostSide false ((Job.setTiming 1#32 2#32 3#32 4#32).start P0).1 [0x00#8]).1 =
      .writing (.writeCtrl 2#8 2#32) [.writeCtrl 3#8 3#32, .writeCtrl 4#8 4#32] [[0x00#8]] := by decide
/-- R242: `stop()` sets the flag, submits `STOP` on port 2, and reports the join; no task ends before. -/
theorem test_stop_joins :
    ((started.bind (hostStep (.call .stop))).bind (hostStep .controller)).map
      (fun h => (h.side.stopFlag, ctlAction h.params h.side h.ctl.pos, h.tasksEnded)) =
      some (true, .submit .stop, true) ∧
    (ctlAfter hostSide false .joining []).2.2 = some (.stopped false) ∧
    started.map HostSystem.tasksEnded = some false := by decide
/-- P3, steps 5 to 7 (R242, R243): with the receive task's infinite `RECEIVE` in its poll loop, the step of
`stop()` that submits `STOP` sets `stop_req` at once; the `RECEIVE` makes one more read and ends `05`. -/
def pollingForever : Option HostSystem :=
  started.map fun h => { h with
    lmc := { idle with
      tstate := .receiving, owner := some rxPort, outstanding := [false, true, false]
      answers := [.ok (zeros 33)]
      seq := some { client := rxPort, cmd := .receive 0xFFFFFFFF#32, pos := .rxPoll, answer := .ok [] } }
    rx := { pos := .loop, mark := some 0 }, ctl := { pos := .stopping, mark := none }
    side := { h.side with stopFlag := true } }
theorem test_stop_cancels :
    ((pollingForever.bind (hostStep .controller)).map fun h => (h.lmc.stopReq, h.lmc.owner)) =
      some (true, some 1) ∧
    ((((pollingForever.bind (hostStep .controller)).bind (hostStep (.lmc 0))).bind
      (hostStep (.lmc 0))).map fun h => (h.lmc.hist.getLast?, h.lmc.tstate, h.lmc.hist.length)) =
      some (some (.resp 1 [0x05#8]), .idle, 3) := by decide
/-- R237, R236: the transmit task takes the oldest Frame and submits it on port 0, and nowhere else. -/
theorem test_transmitTask :
    (((((started.bind (hostStep (.push [0x41#8]))).bind (hostStep (.push [0x42#8]))).bind
      (hostStep .transmitTask)).bind (hostStep .transmitTask)).map
      fun h => (h.lmc.hist, h.lmc.pending, h.side.outbound)) =
      some ([.submit 0 [0x03#8, 0x01#8, 0x41#8]], [some (.transmit [0x41#8]), none, none],
        [[0x42#8]]) := by decide
/-- R238, R245: a heartbeat longer than `N` and an empty queue capacity are refused. -/
theorem test_hostParams :
    HostParams.wf P0 { hostParams with heartbeat := List.replicate 33 0#8 } = false ∧
    HostParams.wf P0 { hostParams with queueCap := some 0 } = false ∧ hostParams.wf P0 = true := by decide
/-- P3, steps 1 and 4: an empty poll pushes nothing, a Frame is pushed. -/
theorem test_receiveTask :
    pushedFrame [0x00#8, 0x00#8, 0x00#8] = none ∧
    pushedFrame [0x00#8, 0x01#8, 0x02#8, 0x48#8, 0x69#8] = some [0x48#8, 0x69#8] := by decide

/-! ### Witnesses: states and operands that meet the obligations' hypotheses -/

/-- P0 is a well-formed profile (R9), for O12. -/
theorem p0_wellFormed : WellFormedProfile P0 := by
  constructor <;> first
    | decide
    | (intro values h; cases h)

theorem witness_o1 : (Instr.init cfg0).wf P0 = true ∧ (Instr.init cfg0).kind ≠ .transaction := by decide
theorem witness_o1_bounds : (Instr.transmit (zeros 255)).wf P0 = true ∧
    (Instr.decFreq 0xFFFFFF).wf P0 = true ∧ (Instr.reserved 0x18#8 [1#8]).wf P0 = true ∧
    (Instr.illegal [0x07#8, 0#8]).wf P0 = true :=
  ⟨by rw [Instr.wf, zeros_length]; rfl, by decide, by decide, by decide⟩
theorem witness_o3 : ((Instr.spiRead 0x7F#7 1).wf P0 = true ∧ (Instr.spiRead 0x7F#7 1).kind = .transaction) ∧
    (Instr.spiWrite 0#7 []).wf P0 = true ∧ (Instr.spiWrite 0#7 []).kind = .transaction := by decide
theorem witness_o4_reserved : (0x00#8).toNat = 0x00 ∧
    (0x0B ≤ (0x0B#8).toNat ∧ (0x0B#8).toNat ≤ 0x0F) ∧ (0x0B ≤ (0x0F#8).toNat ∧ (0x0F#8).toNat ≤ 0x0F) ∧
    0x18 ≤ (0x18#8).toNat ∧ 0x18 ≤ (0xFF#8).toNat := by decide
theorem witness_o4_length : ((0x01#8).toNat, 14) ∈ [(0x01, 14), (0x02, 1)] ∧
    ((zeros 12).length + 1 ≠ 14) ∧ (zeros 14).length + 1 ≠ 14 := by decide
theorem witness_o4_data : ((0x03#8).toNat = 0x03 ∨ (0x03#8).toNat = 0x17) ∧
    (zeros 1).length ≠ (2#8).toNat ∧ (zeros 255).length ≠ (254#8).toNat :=
  ⟨by decide, by decide, by rw [zeros_length]; decide⟩
theorem witness_o6 : (0 : Nat) < 4 ∧ 3 < 4 := by decide

/-- Client 1 has `GET_STATE` to submit and the schedule lets it. -/
def submitting : State :=
  { State.reset with inbox := [[], [[0x08#8]], []], sched := [.submit 1] }

theorem witness_o7_submit : submitting.sched = .submit 1 :: [] ∧
    submitting.outstanding[1]? = some false ∧ submitting.inbox[1]? = some ([0x08#8] :: []) := by decide
theorem witness_o7_run : { running idle .stop .start (.ok []) with sched := [.run 0] }.sched = .run 0 :: [] ∧
    { running idle .stop .start (.ok []) with sched := [.run 0] }.seq =
      some { client := 0, cmd := .stop, pos := .start, answer := .ok [] } := by decide
theorem witness_o7_word : State.reset.outstanding ≠ [] ∧ State.reset.inbox ≠ [] := by decide

/-- The frequency bounds of P0 and their neighbours, for O8 and O10. -/
theorem witness_o8 : (asking State.reset).turn = .submission 0 ∧
    (P0.fMin ≤ (137000000#32).toNat ∧ (137000000#32).toNat ≤ P0.fMax) ∧
    (P0.fMin ≤ (1020000000#32).toNat ∧ (1020000000#32).toNat ≤ P0.fMax) ∧
    ¬(P0.fMin ≤ (136999999#32).toNat ∧ (136999999#32).toNat ≤ P0.fMax) ∧
    ¬(P0.fMin ≤ (1020000001#32).toNat ∧ (1020000001#32).toNat ≤ P0.fMax) := by decide
theorem witness_o9 : (asking State.reset).turn = .submission 0 := rfl
theorem witness_o10 : 2 ^ P0.fShift < P0.fXtal ∧
    P0.fMax * 2 ^ P0.fShift / P0.fXtal < 256 ^ P0.frfBytes ∧ (P0.fMin ≤ 1020000000 ∧ 1020000000 ≤ P0.fMax) ∧ 0xFF0000 < 256 ^ P0.frfBytes ∧
    P0.fMin ≤ decFreq P0 0xFF0000 ∧ decFreq P0 0xFF0000 ≤ P0.fMax := by decide
theorem witness_o11 : (asking State.reset).turn = .submission 0 ∧ P0.paBits ≤ 8 ∧
    (P0.pMin ≤ (0xFFF7#16).toInt ∧ (0xFFF7#16).toInt ≤ P0.pMax) ∧
    (P0.pMin ≤ (22#16).toInt ∧ (22#16).toInt ≤ P0.pMax) ∧
    ¬(P0.pMin ≤ (0xFFF6#16).toInt ∧ (0xFFF6#16).toInt ≤ P0.pMax) ∧
    ¬(P0.pMin ≤ (23#16).toInt ∧ (23#16).toInt ≤ P0.pMax) := by decide
theorem witness_o12_ok : (asking State.reset).turn = .submission 0 ∧
    (P0.sfMin ≤ (12#8).toNat ∧ (12#8).toNat ≤ P0.sfMax) ∧ ((500#16).toNat, 9) ∈ P0.bwSet ∧
    (8#8).toNat ∈ P0.crSet ∧ ((12#8).toNat, (500#16).toNat, (8#8).toNat) ∉ P0.comboRefused := by decide
theorem witness_o12_bad : ¬((P0.sfMin ≤ (13#8).toNat ∧ (13#8).toNat ≤ P0.sfMax) ∧
    (∃ code, ((125#16).toNat, code) ∈ P0.bwSet) ∧ (5#8).toNat ∈ P0.crSet ∧
    ((13#8).toNat, (125#16).toNat, (5#8).toNat) ∉ P0.comboRefused) := by
  rintro ⟨⟨-, h⟩, -⟩
  exact absurd h (by decide)
theorem witness_o13 : (asking State.reset).turn = .submission 0 ∧
    (P0.preMin ≤ (0#16).toNat ∧ (65535#16).toNat ≤ P0.preMax) ∧
    ¬({ P0 with preMax := 65534 }.preMin ≤ (65535#16).toNat ∧
      (65535#16).toNat ≤ { P0 with preMax := 65534 }.preMax) := by decide
theorem witness_o14 : P0.rssiMap = .linear (-1) 0 ∧
    { P0 with rssiMap := .table [-5, -6] }.rssiMap = .table [-5, -6] ∧
    ([-5, -6] : List Int)[(1#8).toNat]? = some (-6) := by decide
theorem witness_o15 : (asking State.reset).turn = .submission 0 ∧ P0.fifoDepth < (zeros 33).length ∧
    (zeros 32).length ≤ P0.fifoDepth ∧ State.reset.ctrl.policy.getLsbD 0 = true ∧
    (zeros 1 ≠ [] ∧ ∀ b ∈ zeros 1, b = 0x00#8) ∧ ¬(zeros 0 ≠ [] ∧ ∀ b ∈ zeros 0, b = 0x00#8) := by decide
theorem witness_o15_keep :
    { State.reset with ctrl := { ctrlReset0 with policy := 0#32 } }.ctrl.policy.getLsbD 0 = false := by decide
theorem witness_o16 : isCodec (.decPayload [1#8]) = true ∧ (asking State.reset).turn = .submission 0 ∧
    (asking idle).turn = .submission 0 ∧ (asking State.reset).profile = (asking idle).profile ∧
    (asking State.reset).ctrl.policy = (asking idle).ctrl.policy := by decide
theorem witness_o17 : (asking idle).turn = .submission 0 := rfl
theorem witness_o18 : (asking idle).turn = .submission 0 ∧
    ((4#8).toNat, idle.ctrl.tPoll) ∈ [(3, idle.ctrl.tSettle), (4, idle.ctrl.tPoll)] ∧
    (asking idle).ctrl.policy &&& 0xFFFFFFFC#32 = 0#32 ∧ 4 < (5#8).toNat := by decide
theorem witness_o19 : (asking idle).turn = .submission 0 ∧
    { submitting with inbox := [[], [[0x07#8, 0#8]], []] }.turn = .sequencer ∧
    { submitting with inbox := [[], [[0x07#8, 0#8]], []] }.sched = .submit 1 :: [] ∧
    { submitting with inbox := [[], [[0x07#8, 0#8]], []] }.outstanding[1]? = some false ∧
    { submitting with inbox := [[], [[0x07#8, 0#8]], []] }.inbox[1]? = some ([0x07#8, 0#8] :: []) ∧
    decodeFrame P0 [0x07#8, 0#8] = .illegal [0x07#8, 0#8] ∧
    decodeFrame P0 [0x0B#8] = .reserved 0x0B#8 [] := by decide
theorem witness_o20 : Owns (running idle (.writeCtrl 4#8 1#32) .start (.ok [])) 0 (.writeCtrl 4#8 1#32)
      .start (.ok []) ∧ (0#8).toNat = 0 ∧ (1#8).toNat = 1 ∧ (2#8).toNat = 2 ∧ (3#8).toNat = 3 ∧
    ((4#8).toNat = 4 ∧ 1#32 ≠ 0#32) ∧ 4 < (5#8).toNat :=
  ⟨owns_running rfl _ _ _, by decide⟩
theorem witness_o21 : (Owns (running idle .stop .start (.ok [])) 0 .stop .start (.ok []) ∧
      (running idle .stop .start (.ok [])).busOpen = true ∧
      (running idle .stop .start (.ok [])).pinMode = .output) ∧
    (Owns (running State.reset .stop .start (.ok [])) 0 .stop .start (.ok []) ∧
      (running State.reset .stop .start (.ok [])).busOpen = false ∧
      (running State.reset .stop .start (.ok [])).pinMode = .unconfigured) ∧
    Owns (running State.reset .stop .stopPin (.ok [])) 0 .stop .stopPin (.ok []) ∧
    Owns (running State.reset .stop .stopDone (.ok [])) 0 .stop .stopDone (.ok []) :=
  ⟨⟨owns_running rfl _ _ _, rfl, rfl⟩, ⟨owns_running rfl _ _ _, rfl, rfl⟩, owns_running rfl _ _ _,
    owns_running rfl _ _ _⟩
theorem witness_o22 : submitting.turn = .sequencer ∧ submitting.sched = .submit 1 :: [] ∧
    submitting.inbox[1]? = some ([0x08#8] :: []) ∧ submitting.outstanding[1]? = some false ∧
    (decodeFrame P0 [0x08#8]).kind = .immediate ∧ (decodeFrame P0 [0x07#8]).kind = .arbitrated ∧
    { submitting with outstanding := [false, true, false] }.outstanding[1]? = some true := by decide
theorem witness_o23 : (asking idle).turn = .submission 0 ∧ Instr.stop.kind = .arbitrated ∧
    Instr.detect.kind = .arbitrated := by decide

/-- `DETECT` of client 1 and `STOP` of client 2 wait, and the schedule names a step of the LMC. -/
def waiting : State :=
  { State.reset with pending := [none, some .detect, some .stop], outstanding := [false, true, true],
                     sched := [.run 0], hist := [.submit 1 [0x02#8], .submit 2 [0x07#8]] }

theorem witness_o24 : waiting.sched = .run 0 :: [] ∧ waiting.owner = none ∧ waiting.seq = none ∧
    waiting.choose 0 = some 2 ∧ waiting.pending[2]? = some (some .stop) := by decide
theorem witness_o25 : 2 < waiting.profile.ports ∧ waiting.pending[2]? = some (some .stop) ∧
    waiting.choose 7 = some 2 := by decide
theorem witness_o26 :
    { waiting with pending := [none, some .detect, some .readRssi] }.profile.arbPolicy = .roundRobin ∧
    (∀ d : Nat, d < { waiting with pending := [none, some .detect, some .readRssi] }.profile.ports →
      { waiting with pending := [none, some .detect, some .readRssi] }.pending[d]? ≠ some (some .stop)) ∧
    { waiting with pending := [none, some .detect, some .readRssi] }.choose 0 = some 1 := by decide

/-- The invariant of the waiting state, for O27. -/
theorem waiting_inv : Inv waiting := by
  constructor
  case pending_outstanding =>
    intro c i h
    rcases c with _ | _ | _ | c
    · simp [waiting] at h
    · simp only [waiting, List.getElem?_cons_succ, List.getElem?_cons_zero, Option.some.injEq] at h
      subst h; exact ⟨rfl, rfl⟩
    · simp only [waiting, List.getElem?_cons_succ, List.getElem?_cons_zero, Option.some.injEq] at h
      subst h; exact ⟨rfl, rfl⟩
    · simp [waiting] at h
  case answered =>
    intro c
    rcases c with _ | _ | _ | c <;> simp [waiting, submitCount, respCount]
  all_goals first
    | decide
    | (intro q h; cases h)
    | (intro h; exact absurd rfl h)

theorem witness_o27 : waiting.seq = none ∧ waiting.pending[2]? = some (some .stop) ∧
    waiting.sched = .run 0 :: [] := by decide
theorem witness_o28 : Owns (running idle (.transmit (zeros 33)) .start (.ok [])) 0 (.transmit (zeros 33))
      .start (.ok []) ∧ (Instr.transmit (zeros 33)).kind = .arbitrated ∧
    legalAtGrant (.transmit (zeros 33)) (running idle (.transmit (zeros 33)) .start (.ok [])) ∧
    ¬operandsOk P0 (.transmit (zeros 33)) ∧
    ¬legalAtGrant (.transmit [1#8]) (running State.reset (.transmit [1#8]) .start (.ok [])) :=
  ⟨owns_running rfl _ _ _, rfl, rfl,
    show ¬(zeros 33).length ≤ P0.fifoDepth by decide, show ¬TState.uninitialized = .idle by decide⟩

/-- `INIT0`'s operands are accepted under P0. -/
theorem cfg0_ok : operandsOk P0 (.init cfg0) := (cfgOk_iff P0 cfg0).1 (by decide)

theorem witness_o29 : Owns (running State.reset (.init cfg0) .start (.ok [])) 0 (.init cfg0) .start (.ok []) ∧
    legalAtGrant (.init cfg0) (running State.reset (.init cfg0) .start (.ok [])) ∧
    State.reset.busOpen = false ∧
    (legalAtGrant (.init cfg0) (running idle (.init cfg0) .start (.ok [])) ∧ idle.busOpen = true ∧
      idle.pinMode = .output) ∧
    { idle with pinMode := .unconfigured }.pinMode = .unconfigured :=
  ⟨owns_running rfl _ _ _, ⟨by decide, by decide⟩, rfl, ⟨⟨by decide, by decide⟩, rfl, rfl⟩, rfl⟩
theorem witness_o30 (pos : Pos) : Owns (running State.reset (.init cfg0) pos (.ok [])) 0 (.init cfg0) pos
      (.ok []) ∧ (Answer.ok []).isOk = true ∧ State.reset.pinMode = .unconfigured ∧
    (Owns (running idle (.init cfg0) pos (.ok [])) 0 (.init cfg0) pos (.ok []) ∧ idle.pinMode = .output) :=
  ⟨owns_running rfl _ _ _, rfl, rfl, owns_running rfl _ _ _, rfl⟩
theorem witness_o31 (n : Nat) : Owns (running idle (.init cfg0) (.cfgWrite n) (.ok [])) 0 (.init cfg0)
      (.cfgWrite n) (.ok []) ∧ (n = 0 ∨ (Answer.ok []).isOk = true) ∧
    (initFrames P0 cfg0)[0]? = some [0x86#8, 0x6C#8, 0x40#8, 0x00#8] ∧
    (initFrames P0 cfg0)[4]? = some [0xB9#8, 0x12#8] :=
  ⟨owns_running rfl _ _ _, Or.inr rfl, by decide, by decide⟩

/-- Answers of the lengths `INIT0`'s five writes ask for, with one more left over. -/
def initIns : List Frame := [zeros 4, zeros 2, zeros 3, zeros 3, zeros 2]

theorem witness_o32 : initIns.map List.length = (initFrames P0 cfg0).map List.length ∧
    (answering (running State.reset (.init cfg0) .start (.ok []))
        ([.ok [], .ok []] ++ initIns.map Answer.ok ++ [.fail])).answers =
      (if State.reset.busOpen then [] else [.ok [], .ok []]) ++ initIns.map Answer.ok ++ [.fail] ∧
    (answering (running idle (.init cfg0) .start (.ok [])) (initIns.map Answer.ok ++ [])).answers =
      (if idle.busOpen then [] else [.ok [], .ok []]) ++ initIns.map Answer.ok ++ [] := by decide
theorem witness_o33 : Owns (running { State.reset with tstate := .error } (.init cfg0) .start (.ok [])) 0
      (.init cfg0) .start (.ok []) ∧
    legalAtGrant (.init cfg0) (running { State.reset with tstate := .error } (.init cfg0) .start (.ok [])) :=
  ⟨owns_running rfl _ _ _, by decide, by decide⟩
theorem witness_o34 : (Owns (running idle .detect .start (.ok [])) 0 .detect .start (.ok []) ∧
      legalAtGrant .detect (running idle .detect .start (.ok [])) ∧ idle.busOpen = true) ∧
    (Owns (running State.reset .detect .start (.ok [])) 0 .detect .start (.ok []) ∧
      legalAtGrant .detect (running State.reset .detect .start (.ok [])) ∧ State.reset.busOpen = false) ∧
    Owns (running State.reset .detect .clocked (.ok [])) 0 .detect .clocked (.ok []) ∧
    Owns (running State.reset .detect .opened (.ok [])) 0 .detect .opened (.ok []) :=
  ⟨⟨owns_running rfl _ _ _, ⟨rfl, Or.inr rfl⟩, rfl⟩, ⟨owns_running rfl _ _ _, ⟨rfl, Or.inl rfl⟩, rfl⟩,
    owns_running rfl _ _ _, owns_running rfl _ _ _⟩
theorem witness_o35 (v : Byte) : Owns (running idle .detect .version (.ok [0#8, v])) 0 .detect .version
      (.ok [0#8, v]) := owns_running rfl _ _ _
theorem witness_o35_ids : (0x01#8 ≠ 0x00#8 ∧ ∃ lo hi, (lo, hi) ∈ P0.expectedIds ∧ lo ≤ (0x01#8).toNat ∧
      (0x01#8).toNat ≤ hi) ∧
    ¬∃ lo hi, (lo, hi) ∈ { P0 with expectedIds := [(0x12, 0x12)] }.expectedIds ∧
      lo ≤ (0x13#8).toNat ∧ (0x13#8).toNat ≤ hi := by
  refine ⟨⟨by decide, 0x01, 0xFF, by decide⟩, ?_⟩
  rintro ⟨lo, hi, hm, h1, h2⟩
  simp only [List.mem_singleton, Prod.mk.injEq] at hm
  obtain ⟨rfl, rfl⟩ := hm
  exact absurd h2 (by decide)
theorem witness_o36 (pos : Pos) : Owns (running idle (.transmit (zeros 32)) pos (.ok [])) 0
      (.transmit (zeros 32)) pos (.ok []) ∧ idle.tstate = .idle ∧ (zeros 32).length ≤ P0.fifoDepth ∧
    (Answer.ok []).isOk = true :=
  ⟨owns_running rfl _ _ _, rfl, by decide, rfl⟩
theorem witness_o37 : Owns (answering (running idle (.transmit []) .start (.ok []))
      [.ok (zeros 1), .ok (zeros 2)]) 0 (.transmit []) .start (.ok []) ∧
    (zeros 1).length = ([] : Frame).length + 1 ∧ (zeros 2).length = 2 ∧
    (answering (running idle (.transmit []) .start (.ok [])) [.ok (zeros 1), .ok (zeros 2)]).answers =
      .ok (zeros 1) :: .ok (zeros 2) :: [] :=
  ⟨⟨rfl, rfl⟩, rfl, rfl, rfl⟩
theorem witness_o38 (pos : Pos) : Owns (running idle (.receive 0#32) pos (.ok [])) 0 (.receive 0#32) pos
      (.ok []) ∧ idle.tstate = .idle ∧ P0.rxEntry = true ∧ { P0 with rxEntry := false }.rxEntry = false :=
  ⟨owns_running rfl _ _ _, rfl, rfl, rfl⟩
theorem witness_o39 : Owns (running idle (.receive 100#32) .rxJudge (.ok (0#8 :: zeros 32))) 0
      (.receive 100#32) .rxJudge (.ok (0#8 :: zeros 32)) ∧
    (∀ b ∈ zeros 32, b = 0x00#8) ∧ idle.ctrl.policy.getLsbD 1 = false ∧ idle.stopReq = false ∧
    (100#32 ≠ P0.inf ∧ (100#32).toNat ≤ (idle.k + 1) * idle.ctrl.tPoll.toNat) ∧
    ¬(101#32 ≠ P0.inf ∧ (101#32).toNat ≤ (idle.k + 1) * idle.ctrl.tPoll.toNat) ∧
    (∃ b ∈ [0#8, 0x41#8], b ≠ 0x00#8) ∧ { idle with stopReq := true }.stopReq = true :=
  ⟨owns_running rfl _ _ _, by decide, by decide, rfl, by decide, by decide, by decide, rfl⟩
/-- X16: a timeout of 250 with `T_POLL` = 100 makes three reads; a timeout of 0 makes one. -/
theorem witness_o40 : 250#32 ≠ P0.inf ∧ idle.ctrl.tPoll ≠ 0#32 ∧ idle.ctrl.policy.getLsbD 1 = false ∧
    [zeros 33, zeros 33, zeros 33].length =
      max 1 (((250#32).toNat + (idle.ctrl.tPoll.toNat - 1)) / idle.ctrl.tPoll.toNat) ∧
    [zeros 33].length = max 1 (((0#32).toNat + (idle.ctrl.tPoll.toNat - 1)) / idle.ctrl.tPoll.toNat) ∧
    [zeros 2].length = (if P0.rxEntry then 1 else 0) := by decide
theorem witness_o40_state : (Owns (answering (running idle (.receive 0#32) .start (.ok []))
        [.ok (zeros 2), .ok (zeros 33)]) 0 (.receive 0#32) .start (.ok [])) ∧
    zeroRead P0.fifoDepth (zeros 33) ∧
    (answering (running idle (.receive 0#32) .start (.ok [])) [.ok (zeros 2), .ok (zeros 33)]).answers =
      [zeros 2].map Answer.ok ++ [zeros 33].map Answer.ok ++ [] :=
  ⟨⟨rfl, rfl⟩, ⟨0#8, rfl⟩, rfl⟩
theorem witness_o41 : Owns (running { idle with tstate := .receiving, stopReq := true }
      (.receive 0xFFFFFFFF#32) .rxPoll (.ok [])) 0 (.receive 0xFFFFFFFF#32) .rxPoll (.ok []) ∧
    (running { idle with tstate := .receiving, stopReq := true } (.receive 0xFFFFFFFF#32) .rxPoll
      (.ok [])).stopReq = true :=
  ⟨owns_running rfl _ _ _, rfl⟩
/-- O41 at the judgement of a read that brought data: the response carries it. -/
theorem witness_o41_judge : Owns (running { idle with tstate := .receiving, stopReq := true }
      (.receive 0#32) .rxJudge (.ok (0#8 :: 0x41#8 :: zeros 31))) 0 (.receive 0#32) .rxJudge
      (.ok (0#8 :: 0x41#8 :: zeros 31)) ∧
    lastEvent (exec (.receive 0#32) (running { idle with tstate := .receiving, stopReq := true }
      (.receive 0#32) .rxJudge (.ok (0#8 :: 0x41#8 :: zeros 31)))) =
      some (.resp 0 [0x00#8, 0x01#8, 0x01#8, 0x41#8]) :=
  ⟨owns_running rfl _ _ _, by decide⟩
theorem witness_o42 : Owns (running idle (.setFreq 1020000000#32) .start (.ok [])) 0
      (.setFreq 1020000000#32) .start (.ok []) ∧ idle.tstate = .idle ∧
    (P0.fMin ≤ (1020000000#32).toNat ∧ (1020000000#32).toNat ≤ P0.fMax) ∧
    Owns (running idle (.setFreq 1020000000#32) .tuned (.ok (zeros 4))) 0 (.setFreq 1020000000#32) .tuned
      (.ok (zeros 4)) :=
  ⟨owns_running rfl _ _ _, rfl, by decide, owns_running rfl _ _ _⟩
theorem witness_o43 : Owns (running idle .readRssi .start (.ok [])) 0 .readRssi .start (.ok []) ∧
    idle.tstate = .idle ∧
    Owns (running idle .readRssi .rssi (.ok [0#8, 0x50#8])) 0 .readRssi .rssi (.ok [0#8, 0x50#8]) :=
  ⟨owns_running rfl _ _ _, rfl, owns_running rfl _ _ _⟩
theorem witness_o44 : (Owns (running idle (.init cfg0) (.cfgWrite 1) .fail) 0 (.init cfg0) (.cfgWrite 1)
        .fail ∧ readsAnswer (.init cfg0) (.cfgWrite 1)) ∧
    readsAnswer .detect .opened ∧ readsAnswer .detect .version ∧ readsAnswer (.transmit []) .txMode ∧
    readsAnswer (.transmit []) .txSettle ∧ readsAnswer (.receive 0#32) .rxEnter ∧
    readsAnswer (.receive 0#32) .rxJudge ∧ readsAnswer (.setFreq 0#32) .tuned ∧
    readsAnswer .readRssi .rssi ∧
    Owns (running State.reset .detect .clocked .fail) 0 .detect .clocked .fail ∧
    Owns (running State.reset .detect .released .fail) 0 .detect .released .fail :=
  ⟨⟨owns_running rfl _ _ _, Or.inr ⟨0, rfl⟩⟩, Or.inl rfl, Or.inr rfl, Or.inl rfl, Or.inr rfl, Or.inl rfl,
    Or.inr rfl, rfl, rfl, owns_running rfl _ _ _, owns_running rfl _ _ _⟩
theorem witness_o46 : (answering idle [.fail]).answers = .fail :: [] ∧ (zeros 2).length = 2 ∧
    (answering idle [.ok (zeros 2)]).answers = .ok (zeros 2) :: [] := by decide
theorem witness_o47 : 2 < P0.ports := by decide
theorem witness_o48 : 1 ≤ P0.ports ∧ P0.ctrlReset.policy &&& 0xFFFFFFFC#32 = 0#32 ∧
    P0.ctrlReset.tPoll ≠ 0#32 := by decide

/-- The invariant of a running command's state, from what depends on the command. -/
theorem running_inv {s : State} {i : Instr} {pos : Pos} {r : Answer} (hp : s.profile = P0)
    (hrr : s.rr = 2) (hpend : s.pending = [none, none, none]) (hin : s.inbox.length = 3)
    (hturn : s.turn = .sequencer) (hctrl : s.ctrl = ctrlReset0) (hi : i.kind = .arbitrated)
    (hfit : posFits i pos = true) (hquiet : pos = .start → s.tstate.isQuiet = true)
    (hmid : pos ≠ .start → Midway (running s i pos r) { client := 0, cmd := i, pos := pos, answer := r })
    (hradio : RadioInv (running s i pos r)) : Inv (running s i pos r) := by
  constructor
  case turn => exact hturn
  case lengths => simp [running, hp, hpend, hin, P0]
  case rr_lt => simp [running, hp, hrr, P0]
  case lock => rfl
  case owner_outstanding => intro q h; cases h; rfl
  case owner_not_pending => intro q h; cases h; simp [running, hpend]
  case pending_outstanding =>
    intro c j h
    rcases c with _ | _ | _ | c <;> simp [running, hpend] at h
  case pos_fits => intro q h; cases h; exact ⟨hi, hfit⟩
  case quiet => intro h; exact hquiet (h _ rfl)
  case midway => intro q h hpos; cases h; exact hmid hpos
  case open_in_use => exact hradio.open_in_use
  case idle_cfg => exact hradio.idle_cfg
  case stopped_released => exact hradio.stopped_released
  case pin_undriven => exact hradio.pin_undriven
  case policy_reserved => simp only [running, hctrl]; decide
  case tPoll_pos => simp only [running, hctrl]; decide
  case lock_history => rfl
  case answered =>
    intro c
    rcases c with _ | _ | _ | c <;> simp [running, submitCount, respCount]

/-- `TRANSMIT` just granted in `Idle`, for O49, O52 and O55. -/
def transmitting : State :=
  answering (running idle (.transmit [0x41#8]) .start (.ok [])) [.ok (zeros 2)]

theorem transmitting_inv : Inv transmitting := by
  refine Inv.congr (running_inv (s := idle) (i := .transmit [0x41#8]) (pos := .start) (r := .ok []) rfl rfl
    rfl rfl rfl rfl rfl rfl (fun _ => rfl) (fun h => absurd rfl h) ⟨fun _ _ => Or.inl rfl, fun _ _ => Or.inl rfl,
      by decide, by decide⟩) ⟨rfl, rfl, rfl, rfl, rfl, rfl, rfl, rfl⟩ rfl rfl rfl rfl rfl rfl rfl rfl

/-- The write of `TRANSMIT` is a row of R60's table and enters `Transmitting` (R24). -/
theorem witness_o49_o52_o55 : (after (step transmitting)).tstate ≠ transmitting.tstate ∧
    newEvents transmitting (after (step transmitting)) = [.xfer [0x80#8, 0x41#8] (.ok (zeros 2))] ∧
    step transmitting = .next (after (step transmitting)) :=
  ⟨by decide, by decide, rfl⟩

/-- An `INIT` about to end, begun in `Error`, for the second clause of O52. -/
def recovering : State :=
  running { idle with tstate := .error, cfgValid := false } (.init cfg0) (.cfgWrite 5) (.ok [])

theorem recovering_inv : Inv recovering := by
  refine running_inv rfl rfl rfl rfl rfl rfl rfl rfl (fun h => by cases h) (fun _ => ?_)
    ⟨fun _ h => absurd rfl h, fun _ h => absurd rfl h, by decide, by decide⟩
  refine ⟨rfl, rfl, rfl, ⟨?_, ?_⟩, fun _ => ⟨rfl, rfl⟩⟩
  · rintro (h | h) <;> cases h
  · intro h; cases h

theorem witness_o52_error : (after (step recovering)).tstate ≠ recovering.tstate ∧
    recovering.tstate = .error ∧ step recovering = .next (after (step recovering)) :=
  ⟨by decide, rfl, rfl⟩

/-- An `INIT` that sets the clock while the transport is not open yet, for O53. -/
def opening : State :=
  answering (running { State.reset with cfgValid := false } (.init cfg0) .opened (.ok [])) [.ok []]

theorem opening_inv : Inv opening := by
  refine Inv.congr (running_inv (s := State.reset) (i := .init cfg0) (pos := .opened) (r := .ok []) rfl rfl
    rfl rfl rfl rfl rfl rfl (fun h => by cases h) (fun _ => ⟨rfl, rfl, rfl, ⟨fun _ => rfl, fun h => by cases h⟩,
      fun h => by cases h⟩) ⟨fun h _ => absurd rfl h, fun h _ => absurd rfl h, by decide, by decide⟩)
    ⟨rfl, rfl, rfl, rfl, rfl, rfl, rfl, rfl⟩ rfl rfl rfl rfl rfl rfl rfl rfl

theorem witness_o53 : opening.busOpen = false ∧
    newEvents opening (after (step opening)) = [.setClock 0 true] ∧
    step opening = .next (after (step opening)) :=
  ⟨rfl, by decide, rfl⟩

/-- After a `STOP`, the next command just granted, for O54: another `STOP`, or an `INIT`. -/
def stoppedThen (i : Instr) : State :=
  answering (running { State.reset with stopped := true } i .start (.ok [])) [.fail]

theorem stoppedThen_inv {i : Instr} (h : i.kind = .arbitrated) : Inv (stoppedThen i) := by
  refine Inv.congr (running_inv (s := { State.reset with stopped := true }) (i := i) (pos := .start)
    (r := .ok []) rfl rfl rfl rfl rfl rfl h (posFits_start h) (fun _ => rfl) (fun h => absurd rfl h)
    ⟨fun h _ => absurd rfl h, fun h _ => absurd rfl h, fun _ => ⟨rfl, rfl⟩, fun _ => rfl⟩)
    ⟨rfl, rfl, rfl, rfl, rfl, rfl, rfl, rfl⟩ rfl rfl rfl rfl rfl rfl rfl rfl

theorem witness_o54 : (stoppedThen .stop).stopped = true ∧
    newEvents (stoppedThen .stop) (after (step (stoppedThen .stop))) = [.resp 0 [0x00#8]] ∧
    (after (step (stoppedThen .stop))).stopped = true ∧
    newEvents (stoppedThen (.init cfg0)) (after (step (stoppedThen (.init cfg0)))) =
      [.openBus 0 0 false] ∧
    (after (step (stoppedThen (.init cfg0)))).stopped = false := by decide

/-- Every step answers, so O51 and O56 speak of every state; here one that changes `CTRL`, and one that
changes `bus_open`. -/
theorem witness_o51_o56 :
    (after (step (running idle (.writeCtrl 3#8 500#32) .start (.ok [])))).ctrl ≠ idle.ctrl ∧
    (after (step (running idle .stop .start (.ok [])))).busOpen ≠ idle.busOpen := by decide
theorem witness_o56_latches :
    (after (step (running idle (.setFreq 137000000#32) .tuned (.ok [])))).cfg ≠ idle.cfg ∧
    (after (step (running idle .detect .version (.ok [0#8, 0x12#8])))).devValid ≠ idle.devValid ∧
    (after (step (running { idle with busOpen := false } .stop .stopPin (.ok [])))).pinMode ≠
      idle.pinMode := by decide
theorem witness_o57 : Owns (running idle (.receive 0xFFFFFFFE#32) .start (.ok [])) 0
      (.receive 0xFFFFFFFE#32) .start (.ok []) ∧ (Instr.receive 0xFFFFFFFE#32).kind = .arbitrated ∧
    0xFFFFFFFE#32 ≠ P0.inf ∧ idle.ctrl.tPoll ≠ 0#32 :=
  ⟨owns_running rfl _ _ _, rfl, by decide, by decide⟩

/-- A history with two grants and an owner's event, for O58. -/
def shared : State :=
  { State.reset with hist := [.submit 0 [0x07#8], .submit 1 [0x07#8], .grant 0, .close, .resp 0 [0x00#8],
                              .grant 1, .resp 1 [0x00#8]] }

theorem shared_inv : Inv shared := by
  constructor
  case pending_outstanding =>
    intro c i h
    rcases c with _ | _ | _ | c <;> simp [shared, State.reset, State.resetOf, P0] at h
  case answered =>
    intro c
    rcases c with _ | _ | _ | c <;> simp [shared, State.reset, State.resetOf, P0, submitCount, respCount]
  all_goals first
    | decide
    | (intro q h; cases h)
    | (intro h; exact absurd rfl h)

theorem witness_o58 : shared.hist = [.submit 0 [0x07#8], .submit 1 [0x07#8]] ++ .grant 0 ::
      ([.close, .resp 0 [0x00#8]] ++ .grant 1 :: [.resp 1 [0x00#8]]) ∧
    Event.close.isOwners = true := by decide
theorem witness_o59 : 0 < P0.fXtal ∧
    (P0.fXtal ≤ 62 * 2 ^ P0.fShift ∧ P0.fMin ≤ 137000000 ∧ 137000000 ≤ 1020000000 ∧ 1020000000 ≤ P0.fMax) ∧
    ¬(P0.fXtal ≤ 61 * 2 ^ P0.fShift ∧ P0.fMin ≤ 137000000 ∧ 137000000 ≤ 1020000000 ∧
      1020000000 ≤ P0.fMax) := by decide

/-- O60: `TRANSMIT` just granted in `Idle`, and the state after two `STOP`s. -/
theorem witness_o60 : Inv transmitting ∧ transmitting.tstate = .idle ∧
    (∀ q cfg, transmitting.seq = some q → q.cmd = .init cfg → q.pos = .start) ∧ Inv shared ∧
    shared.outstanding[2]? = some false :=
  ⟨transmitting_inv, rfl, (fun q cfg h _ => by cases h; rfl), shared_inv, rfl⟩

end Sys2Proof.Tests
end

section
/-! The byte order of R12: one byte of a big-endian sequence. Its length and the value read back are
`be_length` and `fromBe_be`. -/

namespace Sys2Proof.Machine

/-- The most significant byte comes first, so byte `i` of `k` has `k - 1 - i` bytes after it (R12). -/
theorem be_getElem? {k i : Nat} (v : Nat) (hi : i < k) :
    (be k v)[i]? = some (BitVec.ofNat 8 (v >>> (8 * (k - 1 - i)))) := by
  induction k generalizing i with
  | zero => exact absurd hi (Nat.not_lt_zero i)
  | succ k ih =>
    cases i with
    | zero => simp [be]
    | succ i =>
      have hbytesAfter : k + 1 - 1 - (i + 1) = k - 1 - i := by omega
      rw [be, List.getElem?_cons_succ, ih (Nat.lt_of_succ_lt_succ hi), hbytesAfter]

/-- Settles O6, by induction on the width for the single bytes. -/
theorem bigEndianBytes : Obligations.BigEndianBytes := by
  unfold Obligations.BigEndianBytes
  exact fun k v => ⟨be_length k v, fun _ hi => be_getElem? v hi, fromBe_be k v⟩

end Sys2Proof.Machine
end

section
/-! The invariant of Safety.lean at reset and through a step, and what it says of one state (R47, R48,
R204); `WRITE_CTRL` after grant (R173). -/

namespace Sys2Proof.Machine

variable {s : State} {q : Seq}

/-! ### Every step keeps the invariant -/

/-- A step of the owner from a state that meets the invariant runs the body of its command (R194). -/
theorem exec_ownTurn (h : Inv s) (hq : s.seq = some q) :
    exec q.cmd s.popMove.ownTurn = .next (body q s.popMove.ownTurn) :=
  exec_owner (by simp) (by simpa using hq) (h.pos_fits q hq).1

/-- Settles O49, by the four shapes of a step. -/
theorem stepKeepsInv : Obligations.StepKeepsInv := by
  unfold Obligations.StepKeepsInv
  intro s t h hstep
  have hpop := popMove_inv h
  rcases step_cases hstep with rfl | ⟨c, i, u, hsubmit, hexec⟩ | ⟨pick, -, rfl⟩ | ⟨q, hq, hexec⟩
  · exact hpop
  · exact submit_inv hpop hsubmit hexec
  · exact grant_inv hpop pick
  · rw [exec_ownTurn h hq] at hexec
    cases hexec
    exact body_inv (ownTurn_inv hpop) (by simpa using hq)

/-! ### Reset -/

/-- Settles O47: each port's entry is one of a list of equal entries, and the rest is the definition. -/
theorem resetValues : Obligations.ResetValues := by
  unfold Obligations.ResetValues
  have hport {α : Type} (a : α) (n c : Nat) (hc : c < n) : (List.replicate n a)[c]? = some a := by
    simp [hc]
  exact ⟨fun p => ⟨rfl, rfl, rfl, rfl, rfl, rfl, rfl, rfl, rfl, rfl, hport none p.ports, rfl,
    hport false p.ports, rfl, rfl⟩, rfl, rfl, rfl⟩

/-- No port of a machine right after reset has a pending command. -/
theorem resetOf_pending (p : Profile) (c : Nat) (i : Instr) :
    (State.resetOf p).pending[c]? ≠ some (some i) := by
  simp [State.resetOf, List.getElem?_replicate]

/-- No port of a machine right after reset is occupied. -/
theorem resetOf_outstanding (p : Profile) (c : Nat) :
    (State.resetOf p).outstanding[c]? ≠ some true := by
  simp [State.resetOf, List.getElem?_replicate]

/-- No command runs, the history is empty and the radio is untouched, so the clauses left are those about
the ports, `POLICY` and `T_POLL`. -/
theorem resetOf_inv {p : Profile} (hports : 1 ≤ p.ports)
    (hpolicy : p.ctrlReset.policy &&& 0xFFFFFFFC#32 = 0#32) (hpoll : p.ctrlReset.tPoll ≠ 0#32) :
    Inv (State.resetOf p) where
  turn := rfl
  lengths := by simp [State.resetOf]
  rr_lt := by simp only [State.resetOf]; omega
  lock := rfl
  owner_outstanding := nofun
  owner_not_pending := nofun
  pending_outstanding c i hpending := absurd hpending (resetOf_pending p c i)
  pos_fits := nofun
  quiet _ := rfl
  midway := nofun
  open_in_use h := absurd rfl h
  idle_cfg h := absurd rfl h
  stopped_released := nofun
  pin_undriven _ := rfl
  policy_reserved := hpolicy
  tPoll_pos := hpoll
  lock_history := rfl
  answered c := by rw [if_neg (resetOf_outstanding p c)]; rfl

/-- Settles O48; P0 meets the three conditions. -/
theorem resetKeepsInv : Obligations.ResetKeepsInv := by
  unfold Obligations.ResetKeepsInv
  exact ⟨fun _ => resetOf_inv, resetOf_inv (p := P0) (by decide) (by decide) (by decide)⟩

/-! ### What holds past a command's checks, command by command -/

theorem Inv.midway_init (h : Inv s) (hq : s.seq = some q) {cfg : RadioConfig}
    (hcmd : q.cmd = .init cfg) (hpos : q.pos ≠ .start) :
    s.stopped = false ∧ s.cfgValid = false ∧ s.tstate.isQuiet = true ∧ Opening s q ∧
      (q.pos.isPulse = true → s.busOpen = true ∧ s.pinMode = .output) := by
  simpa only [Midway, hcmd] using h.midway q hq hpos

theorem Inv.midway_detect (h : Inv s) (hq : s.seq = some q) (hcmd : q.cmd = .detect)
    (hpos : q.pos ≠ .start) :
    s.stopped = false ∧ (s.tstate = .uninitialized ∨ s.tstate = .idle) ∧ Opening s q ∧
      (q.pos = .version → s.busOpen = true) := by
  simpa only [Midway, hcmd] using h.midway q hq hpos

theorem Inv.midway_transmit (h : Inv s) (hq : s.seq = some q) {data : Frame}
    (hcmd : q.cmd = .transmit data) (hpos : q.pos ≠ .start) : s.tstate = .transmitting := by
  simpa only [Midway, hcmd] using h.midway q hq hpos

theorem Inv.midway_receive (h : Inv s) (hq : s.seq = some q) {timeout : Word}
    (hcmd : q.cmd = .receive timeout) (hpos : q.pos ≠ .start) : s.tstate = .receiving := by
  simpa only [Midway, hcmd] using h.midway q hq hpos

theorem Inv.midway_setFreq (h : Inv s) (hq : s.seq = some q) {freq : Word}
    (hcmd : q.cmd = .setFreq freq) (hpos : q.pos ≠ .start) : s.tstate = .idle := by
  simpa only [Midway, hcmd] using h.midway q hq hpos

theorem Inv.midway_readRssi (h : Inv s) (hq : s.seq = some q) (hcmd : q.cmd = .readRssi)
    (hpos : q.pos ≠ .start) : s.tstate = .idle := by
  simpa only [Midway, hcmd] using h.midway q hq hpos

theorem Inv.midway_stop (h : Inv s) (hq : s.seq = some q) (hcmd : q.cmd = .stop)
    (hpos : q.pos ≠ .start) :
    s.tstate.isQuiet = true ∧ s.busOpen = false ∧
      (q.pos = .stopDone → s.pinMode = .unconfigured) := by
  simpa only [Midway, hcmd] using h.midway q hq hpos

/-! ### What the invariant says of one state -/

/-- A state that is not quiet belongs to a running `TRANSMIT` or `RECEIVE` (R48, R204). -/
theorem Inv.command_of_busy (h : Inv s) (hbusy : s.tstate.isQuiet = false) :
    ∃ q, s.seq = some q ∧ ((∃ data, q.cmd = .transmit data ∧ s.tstate = .transmitting) ∨
      ∃ timeout, q.cmd = .receive timeout ∧ s.tstate = .receiving) := by
  have hpast : ∃ q, s.seq = some q ∧ q.pos ≠ .start := by
    by_contra hno
    push Not at hno
    rw [h.quiet hno] at hbusy
    cases hbusy
  obtain ⟨q, hq, hpos⟩ := hpast
  have hmid := h.midway q hq hpos
  refine ⟨q, hq, ?_⟩
  cases hcmd : q.cmd <;> simp only [Midway, hcmd] at hmid
  case transmit data => exact .inl ⟨data, rfl, hmid⟩
  case receive timeout => exact .inr ⟨timeout, rfl, hmid⟩
  case init cfg => obtain ⟨-, -, hquiet, -⟩ := hmid; rw [hbusy] at hquiet; cases hquiet
  case detect =>
    obtain ⟨-, hts | hts, -⟩ := hmid <;> rw [hts] at hbusy <;> cases hbusy
  case setFreq freq => rw [hmid] at hbusy; cases hbusy
  case readRssi => rw [hmid] at hbusy; cases hbusy
  case stop => rw [hbusy] at hmid; cases hmid.1

theorem Inv.transmit_of_transmitting (h : Inv s) (ht : s.tstate = .transmitting) :
    ∃ q data, s.seq = some q ∧ q.cmd = .transmit data := by
  obtain ⟨q, hq, ⟨data, hcmd, -⟩ | ⟨-, -, hts⟩⟩ := h.command_of_busy (by rw [ht]; rfl)
  · exact ⟨q, data, hq, hcmd⟩
  · rw [ht] at hts; cases hts

theorem Inv.receive_of_receiving (h : Inv s) (ht : s.tstate = .receiving) :
    ∃ q timeout, s.seq = some q ∧ q.cmd = .receive timeout := by
  obtain ⟨q, hq, ⟨-, -, hts⟩ | ⟨timeout, hcmd, -⟩⟩ := h.command_of_busy (by rw [ht]; rfl)
  · rw [ht] at hts; cases hts
  · exact ⟨q, timeout, hq, hcmd⟩

/-- Nothing waits for a free port, and its client does not hold the lock (R48). -/
theorem Inv.free_port (h : Inv s) {c : Nat} (hfree : s.outstanding[c]? = some false) :
    s.pending[c]? = some none ∧ s.owner ≠ some c := by
  obtain ⟨hout, hpend, -⟩ := h.lengths
  constructor
  · have hc : c < s.pending.length := by
      rw [hpend, ← hout]
      exact (List.getElem?_eq_some_iff.1 hfree).1
    have hnone : s.pending[c] = none := by
      cases hentry : s.pending[c] with
      | none => rfl
      | some i =>
        have hocc := (h.pending_outstanding c i (by rw [List.getElem?_eq_getElem hc, hentry])).1
        rw [hfree] at hocc
        cases hocc
    rw [List.getElem?_eq_getElem hc, hnone]
  · intro howner
    rw [h.lock, Option.map_eq_some_iff] at howner
    obtain ⟨q, hq, rfl⟩ := howner
    rw [h.owner_outstanding q hq] at hfree
    cases hfree

/-- Settles O60, clause by clause from the invariant. -/
theorem stateInvariants : Obligations.StateInvariants := by
  unfold Obligations.StateInvariants
  intro s h
  refine ⟨?_, h.transmit_of_transmitting, h.receive_of_receiving, h.stopped_released, ?_,
    fun _ => h.free_port⟩
  · rw [h.lock, Option.map_eq_none_iff]
  · intro hidle hstart
    rcases h.idle_cfg (by rw [hidle]; decide) (by rw [hidle]; decide) with
      hvalid | ⟨q, cfg, hq, hcmd, hpos⟩
    · exact hvalid
    · exact absurd (hstart q cfg hq hcmd) hpos

/-! ### WRITE_CTRL -/

/-- The mask of `POLICY` keeps bits 0 and 1 (R30). -/
theorem getLsbD_and_three (v : Word) (n : Nat) :
    (v &&& 0x00000003#32).getLsbD n = (v.getLsbD n && decide (n < 2)) := by
  have hbits : (0x00000003#32).getLsbD n = decide (n < 2) := by
    rw [BitVec.getLsbD_ofNat, show 0x00000003 = 2 ^ 2 - 1 from rfl, Nat.testBit_two_pow_sub_one,
      ← Bool.decide_and]
    exact decide_eq_decide.2 (by omega)
  rw [BitVec.getLsbD_and, hbits]

/-- An accepted `WRITE_CTRL` writes the control file and ends with `00` (R173). -/
theorem exec_writeCtrl_some {c : Nat} {idx : Byte} {v : Word} {pos : Pos} {r : Answer} {x : Ctrl}
    (h : Owns s c (.writeCtrl idx v) pos r) (hx : ctrlWrite s.ctrl idx v = some x) :
    exec (.writeCtrl idx v) s = .next ({ s with ctrl := x }.ended c [0x00#8]) := by
  rw [exec_owns h rfl]
  simp only [body, writeCtrlBody, hx, finish_eq, Status.code]

/-- A rejected `WRITE_CTRL` ends with `02` and writes nothing (R35, R36). -/
theorem exec_writeCtrl_none {c : Nat} {idx : Byte} {v : Word} {pos : Pos} {r : Answer}
    (h : Owns s c (.writeCtrl idx v) pos r) (hx : ctrlWrite s.ctrl idx v = none) :
    exec (.writeCtrl idx v) s = .next (s.ended c [0x02#8]) := by
  rw [exec_owns h rfl]
  simp only [body, writeCtrlBody, hx, badParameter_eq]

/-- A write of a reserved index, or of 0 to `T_POLL`, is rejected (R35, R36). -/
theorem ctrlWrite_none (x : Ctrl) {idx : Byte} {v : Word}
    (h : 4 < idx.toNat ∨ (idx.toNat = 4 ∧ v = 0#32)) : ctrlWrite x idx v = none := by
  unfold ctrlWrite
  rcases h with hidx | ⟨hidx, hv⟩
  · split
    case h_6 => rfl
    all_goals omega
  · simp only [hidx, if_pos hv]

/-- Settles O20, register by register of the control file. -/
theorem writeCtrlResult : Obligations.WriteCtrlResult := by
  unfold Obligations.WriteCtrlResult
  intro s c idx v pos r h
  refine ⟨fun hidx => ⟨v &&& 0x00000003#32, getLsbD_and_three v, exec_writeCtrl_some h ?_⟩,
    fun hidx => exec_writeCtrl_some h ?_, fun hidx => exec_writeCtrl_some h ?_,
    fun hidx => exec_writeCtrl_some h ?_, fun hidx hv => exec_writeCtrl_some h ?_,
    fun hbad => exec_writeCtrl_none h (ctrlWrite_none _ hbad)⟩
  all_goals simp only [ctrlWrite, hidx]
  exact if_neg hv

end Sys2Proof.Machine
end

section
/-! What a step does to the device: the fields whose writers the spec names, and the events a step
records. One table says it for every command, and each body is shown once to follow the table. -/

namespace Sys2Proof.Machine

/-! ### The device and the table of effects -/

/-- The part of the state that only named commands write: the state without the arbiter, the clients,
the history and the running command's record. -/
structure Device where
  profile  : Profile
  tstate   : TState
  cfg      : RadioConfig
  cfgValid : Bool
  busOpen  : Bool
  pinMode  : PinMode
  pinLevel : PinLevel
  ctrl     : Ctrl
  deviceId : Byte
  devValid : Bool
  stopped  : Bool

/-- The device of a state. -/
def State.device (s : State) : Device :=
  { profile := s.profile, tstate := s.tstate, cfg := s.cfg, cfgValid := s.cfgValid,
    busOpen := s.busOpen, pinMode := s.pinMode, pinLevel := s.pinLevel, ctrl := s.ctrl,
    deviceId := s.deviceId, devValid := s.devValid, stopped := s.stopped }

@[simp] theorem device_fields (s : State) :
    s.device.profile = s.profile ∧ s.device.tstate = s.tstate ∧ s.device.cfg = s.cfg ∧
    s.device.cfgValid = s.cfgValid ∧ s.device.busOpen = s.busOpen ∧
    s.device.pinMode = s.pinMode ∧ s.device.pinLevel = s.pinLevel ∧ s.device.ctrl = s.ctrl ∧
    s.device.deviceId = s.deviceId ∧ s.device.devValid = s.devValid ∧
    s.device.stopped = s.stopped :=
  ⟨rfl, rfl, rfl, rfl, rfl, rfl, rfl, rfl, rfl, rfl, rfl⟩

/-- When the running command may issue a transaction that changes nothing of the device. The last row
is for an instruction that is no arbitrated command, which no reachable state runs (log entry 12). -/
def MayTransfer (q : Seq) (d : Device) : Prop :=
  match q.cmd with
  | .init _ => q.pos.isPulse = true
  | .detect => d.busOpen = true ∨ (q.pos = .clocked ∧ q.answer.isOk = true)
  | .transmit _ => q.pos ≠ .start
  | .receive _ => q.pos ≠ .start
  | .setFreq _ => d.tstate = .idle
  | .readRssi => d.tstate = .idle
  | i => i.kind ≠ .arbitrated

/-- No row keeps what is no arbitrated command from a transaction. -/
theorem mayTransfer_of_kind {q : Seq} (h : q.cmd.kind ≠ .arbitrated) (d : Device) :
    MayTransfer q d := by
  cases hcmd : q.cmd <;> rw [hcmd] at h <;> simp only [MayTransfer, hcmd]
  case init | detect | transmit | receive | setFreq | readRssi => exact absurd rfl h
  all_goals exact h

/-- The commands that a transport failure ends with `tstate` as the only field written (R216). `DETECT`
clears `dev_valid` too and has a row of its own. -/
def failsPlainly : Instr → Bool
  | .init _ => true
  | .transmit _ => true
  | .receive _ => true
  | .setFreq _ => true
  | .readRssi => true
  | _ => false

/-- The commands that open the transport (R131). -/
def opensTransport (i : Instr) : Prop := (∃ cfg, i = .init cfg) ∨ i = .detect

/-- The table of effects: a step of the running command `q` may take the device from `d` to the second
index and record the events of the third. -/
inductive Effect (q : Seq) (d : Device) : Device → List Event → Prop
  /-- The position is none of the command's own. -/
  | rests : Effect q d d []
  /-- A refusal, or an end that writes nothing. -/
  | answers (f : Frame) : Effect q d d [.resp q.client f]
  | waits (kind : WaitKind) (ms : Word) : Effect q d d [.wait kind ms]
  | transfers {out : Frame} {r : Answer} (hmay : MayTransfer q d) : Effect q d d [.xfer out r]
  /-- The first transaction of `TRANSMIT` (R138). -/
  | entersTransmit {data out : Frame} {r : Answer} (hcmd : q.cmd = .transmit data)
      (hidle : d.tstate = .idle) : Effect q d { d with tstate := .transmitting } [.xfer out r]
  /-- The first transaction of `RECEIVE` (R139). -/
  | entersReceive {timeout : Word} {out : Frame} {r : Answer} (hcmd : q.cmd = .receive timeout)
      (hidle : d.tstate = .idle) : Effect q d { d with tstate := .receiving } [.xfer out r]
  | endsTransmit {data : Frame} (hcmd : q.cmd = .transmit data) (hpos : q.pos ≠ .start) :
      Effect q d { d with tstate := .idle } [.resp q.client [0x00#8]]
  | endsReceive {timeout : Word} {st : Byte} {data : Frame} (hcmd : q.cmd = .receive timeout)
      (hpos : q.pos ≠ .start) (hst : st = 0x00#8 ∨ st = 0x05#8) :
      Effect q d { d with tstate := .idle } [.resp q.client (st :: data)]
  /-- `bus_fail()` (R132). -/
  | fails (hcmd : failsPlainly q.cmd = true) (hpos : q.pos ≠ .start) :
      Effect q d { d with tstate := .error } [.resp q.client [0x01#8]]
  /-- A `DETECT` that ends in `Error` (R137, R220). -/
  | detectFails {f : Frame} (hcmd : q.cmd = .detect) (hpos : q.pos ≠ .start)
      (hf : f = [0x01#8] ∨ ∃ v, f = [0x04#8, v]) :
      Effect q d { d with tstate := .error, devValid := false } [.resp q.client f]
  | detects {v : Byte} {f : Frame} (hcmd : q.cmd = .detect) :
      Effect q d { d with deviceId := v, devValid := true } [.resp q.client f]
  | initEnds {cfg : RadioConfig} (hcmd : q.cmd = .init cfg) (hpos : q.pos ≠ .start) :
      Effect q d { d with cfg := cfg, cfgValid := true, tstate := .idle } [.resp q.client [0x00#8]]
  | retunes {freq : Word} {f : Frame} (hcmd : q.cmd = .setFreq freq) :
      Effect q d { d with cfg := { d.cfg with freq := freq } } [.resp q.client f]
  | writesCtrl {idx : Byte} {value : Word} {x : Ctrl} {f : Frame} (hcmd : q.cmd = .writeCtrl idx value) :
      Effect q d { d with ctrl := x } [.resp q.client f]
  /-- The first primitive of an `INIT` past its checks (R133). -/
  | initBegins {cfg : RadioConfig} {mode : PinMode} {level : PinLevel} {e : Event}
      (hcmd : q.cmd = .init cfg) (hpos : q.pos = .start) (hok : cfgOk d.profile cfg = true)
      (he : e.isXfer = false) :
      Effect q d { d with stopped := false, cfgValid := false, pinMode := mode, pinLevel := level } [e]
  /-- A primitive of the reset pulse on the pin (R134). -/
  | pulses {cfg : RadioConfig} {mode : PinMode} {level : PinLevel} {e : Event}
      (hcmd : q.cmd = .init cfg) (hpos : q.pos ≠ .start) (he : e.isXfer = false) :
      Effect q d { d with pinMode := mode, pinLevel := level } [e]
  /-- `Open` by `DETECT`; `INIT` begins with it (R131, R137). -/
  | opens {busId devId : Nat} {ok : Bool} (hcmd : q.cmd = .detect)
      (hrunning : d.stopped = false) : Effect q d d [.openBus busId devId ok]
  | setsClock {hz : Nat} {ok : Bool} (hcmd : opensTransport q.cmd) (hpos : q.pos ≠ .start) :
      Effect q d { d with busOpen := d.busOpen || ok } [.setClock hz ok]
  | closes (hcmd : opensTransport q.cmd ∨ q.cmd = .stop) :
      Effect q d { d with busOpen := false } [.close]
  | cleansUp (hcmd : q.cmd = .stop) (hpin : d.pinMode = .output) :
      Effect q d { d with pinMode := .unconfigured, pinLevel := .undriven } [.pinCleanup]
  | stops (hcmd : q.cmd = .stop) :
      Effect q d { d with tstate := if d.tstate = .idle then .uninitialized else d.tstate,
                          stopped := true } [.resp q.client [0x00#8]]

/-- The step from `s` to `t` is one the table allows the running command `q`. -/
def HasEffect (q : Seq) (s t : State) : Prop := Effect q s.device t.device (newEvents s t)

/-- The step from `s` to `t` leaves the device alone, as a submission and a grant do. -/
def LeavesDevice (s t : State) : Prop :=
  t.device = s.device ∧ ∀ e ∈ newEvents s t, e.touchesRadio = false

variable {s t u : State} {q : Seq} {ev : List Event}

theorem newEvents_of_hist (h : t.hist = s.hist ++ ev) : newEvents s t = ev := by
  simp [newEvents, h]

theorem HasEffect.of_hist (h : t.hist = s.hist ++ ev) (he : Effect q s.device t.device ev) :
    HasEffect q s t := by
  rw [HasEffect, newEvents_of_hist h]; exact he

theorem HasEffect.of_device {d : Device} (hd : t.device = d) (h : t.hist = s.hist ++ ev)
    (he : Effect q s.device d ev) : HasEffect q s t :=
  .of_hist h (hd.symm ▸ he)

theorem HasEffect.rest (q : Seq) (s : State) : HasEffect q s s := .of_hist (by simp) .rests

theorem HasEffect.finish (q : Seq) (s : State) (st : Status) (data : Frame) :
    HasEffect q s (s.finish q.client st data) :=
  .of_device (by simp [State.device]) rfl (.answers _)

theorem HasEffect.wait (q : Seq) (s : State) (kind : WaitKind) (ms : Word) (pos : Pos) :
    HasEffect q s ((s.wait kind ms).goto pos) :=
  .of_device (by simp [State.device]) rfl (.waits kind ms)

theorem HasEffect.transfer (hmay : MayTransfer q s.device) (out : Frame) (pos : Pos) :
    HasEffect q s ((s.transfer out).goto pos) :=
  .of_device (by simp [State.device]) rfl (.transfers hmay)

theorem HasEffect.setClock (hcmd : opensTransport q.cmd) (hpos : q.pos ≠ .start) (pos : Pos) :
    HasEffect q s (s.setClock.goto pos) :=
  .of_device (d := { s.device with busOpen := s.busOpen || (s.nextAnswer 0).isOk })
    (by simp [State.device]) rfl (.setsClock hcmd hpos)

theorem HasEffect.busFail (hcmd : failsPlainly q.cmd = true) (hpos : q.pos ≠ .start) :
    HasEffect q s (s.busFail q.client) :=
  .of_hist rfl (.fails hcmd hpos)

theorem LeavesDevice.of_hist (h : t.hist = s.hist ++ ev) (hd : t.device = s.device)
    (hev : ∀ e ∈ ev, e.touchesRadio = false) : LeavesDevice s t :=
  ⟨hd, by rw [newEvents_of_hist h]; exact hev⟩

/-! ### The bodies follow the table -/

/-- The reset pulse begins with one event of the pin and writes the pin only (R134). -/
theorem beginReset_pulse (s : State) : ∃ mode level e, e.isXfer = false ∧
    s.beginReset.hist = s.hist ++ [e] ∧
    s.beginReset.device = { s.device with pinMode := mode, pinLevel := level } := by
  unfold State.beginReset
  split
  · exact ⟨_, _, _, rfl, rfl, rfl⟩
  · exact ⟨_, _, _, rfl, rfl, rfl⟩

theorem initStart_effect {cfg : RadioConfig} (hcmd : q.cmd = .init cfg) (hpos : q.pos = .start) :
    HasEffect q s (initStart cfg q s) := by
  unfold initStart
  split
  · exact .finish q s _ _
  split
  · exact .finish q s _ _
  rename_i hcfg
  have hok : cfgOk s.device.profile cfg = true := eq_true_of_ne_false hcfg
  split
  · obtain ⟨mode, level, e, he, hhist, hdevice⟩ :=
      beginReset_pulse { s with stopped := false, cfgValid := false }
    exact .of_hist hhist (hdevice ▸ .initBegins hcmd hpos hok he)
  · exact .of_hist rfl (.initBegins hcmd hpos hok rfl)

theorem initWrite_effect {cfg : RadioConfig} {n : Nat} (hcmd : q.cmd = .init cfg)
    (hpos : q.pos = .cfgWrite n) : HasEffect q s (initWrite cfg n q s) := by
  unfold initWrite
  split
  · exact .transfer (by simp [MayTransfer, hcmd, hpos, Pos.isPulse]) _ _
  · exact .of_hist rfl (.initEnds hcmd (by simp [hpos]))

theorem initBody_effect {cfg : RadioConfig} (hcmd : q.cmd = .init cfg) :
    HasEffect q s (initBody cfg q s) := by
  have hopens : opensTransport q.cmd := .inl ⟨cfg, hcmd⟩
  have hfails : q.pos ≠ .start → HasEffect q s (s.busFail q.client) :=
    .busFail (by rw [hcmd]; rfl)
  unfold initBody
  split <;> rename_i hpos
  · exact initStart_effect hcmd hpos
  · split
    · exact .setClock hopens (by simp [hpos]) _
    · exact hfails (by simp [hpos])
  · split
    · obtain ⟨mode, level, e, he, hhist, hdevice⟩ := beginReset_pulse s
      exact .of_hist hhist (hdevice ▸ .pulses hcmd (by simp [hpos]) he)
    · exact .of_hist rfl (.closes (.inl hopens))
  · exact hfails (by simp [hpos])
  · exact .of_hist rfl (.pulses hcmd (by simp [hpos]) rfl)
  · exact .wait q s _ _ _
  · exact .of_hist rfl (.pulses hcmd (by simp [hpos]) rfl)
  · exact .wait q s _ _ _
  · split
    · exact initWrite_effect hcmd hpos
    · exact hfails (by simp [hpos])
  · exact .rest q s

theorem detectFail_effect (hcmd : q.cmd = .detect) (hpos : q.pos ≠ .start) :
    HasEffect q s (detectFail q s) :=
  .of_hist rfl (.detectFails hcmd hpos (.inl rfl))

theorem detectJudge_effect (v : Byte) (hcmd : q.cmd = .detect) (hpos : q.pos ≠ .start) :
    HasEffect q s (detectJudge v q s) := by
  unfold detectJudge
  split
  · exact .of_hist rfl (.detectFails hcmd hpos (.inr ⟨v, rfl⟩))
  · exact .of_hist rfl (.detects hcmd)

theorem detectBody_effect (hcmd : q.cmd = .detect) : HasEffect q s (detectBody q s) := by
  have hread : s.busOpen = true ∨ (q.pos = .clocked ∧ q.answer.isOk = true) →
      HasEffect q s (detectRead s) :=
    fun hmay => .transfer (by simpa [MayTransfer, hcmd] using hmay) _ _
  unfold detectBody
  split <;> rename_i hpos
  · split
    · exact .finish q s _ _
    rename_i hlegal
    split
    · rename_i hopen; exact hread (.inl hopen)
    · exact .of_device (by simp [State.device]) rfl
        (.opens hcmd (eq_false_of_ne_true fun hs => hlegal (.inl hs)))
  · split
    · exact .setClock (.inr hcmd) (by simp [hpos]) _
    · exact detectFail_effect hcmd (by simp [hpos])
  · split
    · rename_i hok; exact hread (.inr ⟨hpos, hok⟩)
    · exact .of_hist rfl (.closes (.inl (.inr hcmd)))
  · exact detectFail_effect hcmd (by simp [hpos])
  · split
    · exact detectJudge_effect _ hcmd (by simp [hpos])
    · exact detectFail_effect hcmd (by simp [hpos])
  · exact .rest q s

theorem transmitBody_effect {data : Frame} (hcmd : q.cmd = .transmit data) :
    HasEffect q s (transmitBody data q s) := by
  have hsends : q.pos ≠ .start → MayTransfer q s.device := by simp [MayTransfer, hcmd]
  have hfails : q.pos ≠ .start → HasEffect q s (s.busFail q.client) :=
    .busFail (by rw [hcmd]; rfl)
  unfold transmitBody
  split <;> rename_i hpos
  · split
    · exact .finish q s _ _
    rename_i hidle
    split
    · exact .finish q s _ _
    · exact .of_hist rfl (.entersTransmit hcmd (not_not.1 hidle))
  · split
    · exact .transfer (hsends (by simp [hpos])) _ _
    · exact hfails (by simp [hpos])
  · split
    · exact .wait q s _ _ _
    · exact hfails (by simp [hpos])
  · exact .of_hist rfl (.endsTransmit hcmd (by simp [hpos]))
  · exact .rest q s

theorem receiveRead_effect {timeout : Word} (k : Nat) (hcmd : q.cmd = .receive timeout)
    (hpos : q.pos ≠ .start) : HasEffect q s (receiveRead { s with k := k }) :=
  have hmay : MayTransfer q s.device := by simpa [MayTransfer, hcmd] using hpos
  .of_device (by simp [receiveRead, State.device]) rfl (.transfers hmay)

theorem receiveJudge_effect {timeout : Word} (r : Frame) (hcmd : q.cmd = .receive timeout)
    (hpos : q.pos ≠ .start) : HasEffect q s (receiveJudge timeout r q s) := by
  unfold receiveJudge
  split
  · exact .of_hist rfl (.endsReceive hcmd hpos (.inl rfl))
  split
  · exact .of_hist rfl (.endsReceive hcmd hpos (.inr rfl))
  split
  · exact .of_hist rfl (.endsReceive hcmd hpos (.inl rfl))
  · exact .wait q s _ _ _

theorem receiveBody_effect {timeout : Word} (hcmd : q.cmd = .receive timeout) :
    HasEffect q s (receiveBody timeout q s) := by
  have hfails : q.pos ≠ .start → HasEffect q s (s.busFail q.client) :=
    .busFail (by rw [hcmd]; rfl)
  unfold receiveBody
  split <;> rename_i hpos
  · split
    · exact .finish q s _ _
    rename_i hidle
    split
    · exact .of_hist rfl (.entersReceive hcmd (not_not.1 hidle))
    · exact .of_hist rfl (.entersReceive hcmd (not_not.1 hidle))
  · split
    · exact receiveRead_effect 0 hcmd (by simp [hpos])
    · exact hfails (by simp [hpos])
  · exact receiveRead_effect s.k hcmd (by simp [hpos])
  · split
    · exact receiveJudge_effect (s := { s with k := s.k + 1 }) _ hcmd (by simp [hpos])
    · exact hfails (by simp [hpos])
  · exact .rest q s

theorem setFreqBody_effect {freq : Word} (hcmd : q.cmd = .setFreq freq) :
    HasEffect q s (setFreqBody freq q s) := by
  unfold setFreqBody
  split <;> rename_i hpos
  · split
    · exact .finish q s _ _
    rename_i hidle
    split
    · exact .finish q s _ _
    · exact .transfer (by simpa [MayTransfer, hcmd] using not_not.1 hidle) _ _
  · split
    · exact .of_hist rfl (.retunes hcmd)
    · exact .busFail (by rw [hcmd]; rfl) (by simp [hpos])
  · exact .rest q s

theorem readRssiBody_effect (hcmd : q.cmd = .readRssi) : HasEffect q s (readRssiBody q s) := by
  unfold readRssiBody
  split <;> rename_i hpos
  · split
    · exact .finish q s _ _
    · rename_i hidle
      exact .transfer (by simpa [MayTransfer, hcmd] using not_not.1 hidle) _ _
  · split
    · exact .finish q s _ _
    · exact .busFail (by rw [hcmd]; rfl) (by simp [hpos])
  · exact .rest q s

theorem stopEnd_effect (hcmd : q.cmd = .stop) : HasEffect q s (stopEnd q s) :=
  .of_hist rfl (.stops hcmd)

theorem stopRelease_effect (hcmd : q.cmd = .stop) : HasEffect q s (stopRelease q s) := by
  unfold stopRelease
  split
  · rename_i hpin; exact .of_hist rfl (.cleansUp hcmd hpin)
  · exact stopEnd_effect hcmd

theorem stopBody_effect (hcmd : q.cmd = .stop) : HasEffect q s (stopBody q s) := by
  unfold stopBody
  split
  · split
    · exact .of_hist rfl (.closes (.inr hcmd))
    · exact stopRelease_effect hcmd
  · exact stopRelease_effect hcmd
  · exact stopEnd_effect hcmd
  · exact .rest q s

theorem writeCtrlBody_effect {idx : Byte} {value : Word} (hcmd : q.cmd = .writeCtrl idx value) :
    HasEffect q s (writeCtrlBody idx value q s) := by
  unfold writeCtrlBody
  split
  · exact .of_hist rfl (.writesCtrl hcmd)
  · exact .finish q s _ _

/-- Every body follows the table. -/
theorem body_effect (q : Seq) (s : State) : HasEffect q s (body q s) := by
  cases hcmd : q.cmd with
  | init cfg => simpa only [body, hcmd] using initBody_effect hcmd
  | detect => simpa only [body, hcmd] using detectBody_effect hcmd
  | transmit data => simpa only [body, hcmd] using transmitBody_effect hcmd
  | receive timeout => simpa only [body, hcmd] using receiveBody_effect hcmd
  | setFreq freq => simpa only [body, hcmd] using setFreqBody_effect hcmd
  | readRssi => simpa only [body, hcmd] using readRssiBody_effect hcmd
  | stop => simpa only [body, hcmd] using stopBody_effect hcmd
  | writeCtrl idx value => simpa only [body, hcmd] using writeCtrlBody_effect hcmd
  | _ => simpa only [body, hcmd] using .rest q s

end Sys2Proof.Machine
end

section
/-! The claims about every step (R24, R27, R38, R48, R202, R268), each read off the table of effects. -/

namespace Sys2Proof.Machine

variable {s t u : State} {q : Seq} {d d' : Device} {ev : List Event} {e : Event}

/-! ### Every step follows the table or leaves the device alone -/

/-- A submission leaves the device alone, and so does the answer of an immediate command (R191, R192). -/
theorem submit_leavesDevice {c : Nat} {i : Instr} (hsubmit : s.beginSubmit c = some (i, u))
    (hexec : exec i u = .next t) : LeavesDevice s t := by
  obtain ⟨f, rest, -, -, hi, rfl⟩ := beginSubmit_cases hsubmit
  cases hkind : i.kind with
  | arbitrated =>
    rw [exec_accept rfl hkind] at hexec
    cases hexec
    exact .of_hist (ev := [.submit c f]) (by simp) (by simp [State.device])
      (by simp [Event.touchesRadio])
  | immediate =>
    rw [exec_immediate rfl hkind] at hexec
    cases hexec
    exact .of_hist (ev := [.submit c f, .resp c _]) (by simp; rfl) (by simp [State.device])
      (by simp [Event.touchesRadio])
  | transaction => exact absurd (hi ▸ hkind) (decodeFrame_kind _ _)

/-- A grant leaves the device alone (R194). -/
theorem grant_leavesDevice (s : State) (pick : Nat) : LeavesDevice s (s.grant pick) := by
  rcases grant_cases s pick with hgrant | ⟨c, i, -, -, -, hgrant⟩
  · rw [hgrant]
    exact .of_hist (ev := []) (by simp) rfl (by simp)
  · rw [hgrant]
    exact .of_hist (ev := [.grant c]) (by simp) (by simp [State.device]) (by simp [Event.touchesRadio])

/-- A step of the owner follows the table, in any state (R194). -/
theorem exec_owner_effect (hturn : s.turn = .sequencer) (hq : s.seq = some q)
    (hexec : exec q.cmd s = .next t) : HasEffect q s t := by
  by_cases hkind : q.cmd.kind = .arbitrated
  · rw [exec_owner hturn hq hkind] at hexec
    cases hexec
    exact body_effect q s
  · rcases exec_owner_cases hturn hq hexec with rfl | rfl | ⟨out, rfl⟩
    · exact .rest q t
    · exact body_effect q s
    · exact .of_device (by simp [State.device]) rfl (.transfers (mayTransfer_of_kind hkind s.device))

/-- Every step leaves the device alone or is one the table allows the running command. -/
theorem step_effect (hstep : step s = .next t) :
    LeavesDevice s t ∨ ∃ q, s.seq = some q ∧ HasEffect q s t := by
  rcases step_cases hstep with rfl | ⟨c, i, u, hsubmit, hexec⟩ | ⟨pick, -, rfl⟩ | ⟨q, hq, hexec⟩
  · exact .inl (.of_hist (ev := []) (by simp) rfl (by simp))
  · exact .inl (submit_leavesDevice (s := s.popMove) hsubmit hexec)
  · exact .inl (grant_leavesDevice s.popMove pick)
  · exact .inr ⟨q, hq, exec_owner_effect (s := s.popMove.ownTurn) rfl hq hexec⟩

/-! ### Transactions -/

/-- In `Idle`, `Transmitting` and `Receiving` a command other than `STOP` finds the transport open. -/
theorem Inv.open_of_used (h : Inv s) (hq : s.seq = some q) (hcmd : q.cmd ≠ .stop)
    (hused : s.tstate = .idle ∨ s.tstate = .transmitting ∨ s.tstate = .receiving) :
    s.busOpen = true := by
  have hne : s.tstate ≠ .uninitialized ∧ s.tstate ≠ .error := by
    rcases hused with hts | hts | hts <;> simp [hts]
  rcases h.open_in_use hne.1 hne.2 with hopen | ⟨q', hq', hstop⟩
  · exact hopen
  · rw [hq] at hq'; cases hq'; exact absurd hstop hcmd

/-- A command that may issue a transaction has the transport open (R27). -/
theorem Inv.open_of_mayTransfer (h : Inv s) (hq : s.seq = some q) (hmay : MayTransfer q s.device) :
    s.busOpen = true := by
  cases hcmd : q.cmd <;> simp only [MayTransfer, hcmd] at hmay
  case init cfg =>
    have hpos : q.pos ≠ .start := by intro hpos; simp [hpos, Pos.isPulse] at hmay
    obtain ⟨-, -, -, -, hpulse⟩ := h.midway_init hq hcmd hpos
    exact (hpulse hmay).1
  case detect =>
    rcases hmay with hopen | ⟨hpos, hok⟩
    · exact hopen
    · obtain ⟨-, -, ⟨-, hclocked⟩, -⟩ := h.midway_detect hq hcmd (by simp [hpos])
      exact (hclocked hpos).trans hok
  case transmit data =>
    exact h.open_of_used hq (by simp [hcmd]) (.inr (.inl (h.midway_transmit hq hcmd hmay)))
  case receive timeout =>
    exact h.open_of_used hq (by simp [hcmd]) (.inr (.inr (h.midway_receive hq hcmd hmay)))
  case setFreq freq => exact h.open_of_used hq (by simp [hcmd]) (.inl hmay)
  case readRssi => exact h.open_of_used hq (by simp [hcmd]) (.inl hmay)
  all_goals exact absurd (hcmd ▸ (h.pos_fits q hq).1) hmay

/-- The running command issues a transaction only while the transport is open (R27). -/
theorem Effect.open_of_xfer (heff : Effect q s.device d' ev) (h : Inv s) (hq : s.seq = some q)
    (he : e ∈ ev) (hxfer : e.isXfer = true) : s.busOpen = true := by
  cases heff with
  | transfers hmay => exact h.open_of_mayTransfer hq hmay
  | entersTransmit hcmd hidle => exact h.open_of_used hq (by simp [hcmd]) (.inl hidle)
  | entersReceive hcmd hidle => exact h.open_of_used hq (by simp [hcmd]) (.inl hidle)
  | _ => simp_all [Event.isXfer]

/-- What does not touch the radio is no transaction. -/
theorem isXfer_of_not_touchesRadio (he : e.touchesRadio = false) : e.isXfer = false := by
  cases e with
  | xfer out r => cases he
  | _ => rfl

/-- Settles O53: the only rows of the table with a transaction have the transport open. -/
theorem noTransferWhileClosed : Obligations.NoTransferWhileClosed := by
  unfold Obligations.NoTransferWhileClosed
  intro s t h hstep hclosed e he
  rcases step_effect hstep with ⟨-, hquiet⟩ | ⟨q, hq, heff⟩
  · exact isXfer_of_not_touchesRadio (hquiet e he)
  · refine eq_false_of_ne_true fun hxfer => ?_
    rw [heff.open_of_xfer h hq he hxfer] at hclosed
    cases hclosed

/-! ### After STOP -/

/-- An `INIT` or a `DETECT` past its checks runs only while `stopped` is 0 (R38). -/
theorem Inv.running_of_midway (h : Inv s) (hq : s.seq = some q) (hcmd : opensTransport q.cmd)
    (hpos : q.pos ≠ .start) : s.stopped = false := by
  rcases hcmd with ⟨cfg, hcmd⟩ | hcmd
  · exact (h.midway_init hq hcmd hpos).1
  · exact (h.midway_detect hq hcmd hpos).1

/-- After `STOP` the running command leaves the radio alone, but for an `INIT` past its checks (R202). -/
theorem Effect.quiet_of_stopped (heff : Effect q s.device d' ev) (h : Inv s) (hq : s.seq = some q)
    (hstopped : s.stopped = true) :
    ((∀ e ∈ ev, e.touchesRadio = false) ∧ d'.stopped = true) ∨
      (∃ cfg, q.cmd = .init cfg ∧ q.pos = .start ∧ operandsOk s.profile (.init cfg) ∧
        d'.stopped = false) := by
  obtain ⟨hclosed, hreleased⟩ := h.stopped_released hstopped
  have hnoxfer : ∀ e ∈ ev, e.isXfer = false := fun e he => eq_false_of_ne_true fun hxfer => by
    rw [heff.open_of_xfer h hq he hxfer] at hclosed
    cases hclosed
  have hnotopening : opensTransport q.cmd → q.pos = .start := fun hcmd => by
    by_contra hpos
    rw [h.running_of_midway hq hcmd hpos] at hstopped
    cases hstopped
  cases heff with
  | initBegins hcmd hpos hok => exact .inr ⟨_, hcmd, hpos, (cfgOk_iff _ _).1 hok, rfl⟩
  | pulses hcmd hpos => exact absurd (hnotopening (.inl ⟨_, hcmd⟩)) hpos
  | setsClock hcmd hpos => exact absurd (hnotopening hcmd) hpos
  | opens hcmd hrunning => exact absurd (hstopped.symm.trans hrunning) (by simp)
  | cleansUp hcmd hpin => exact absurd (hpin.symm.trans hreleased) (by simp)
  | stops hcmd => exact .inl ⟨by simp [Event.touchesRadio], rfl⟩
  | transfers hmay => exact absurd (hnoxfer _ (List.mem_singleton_self _)) (by simp [Event.isXfer])
  | entersTransmit hcmd hidle =>
    exact absurd (hnoxfer _ (List.mem_singleton_self _)) (by simp [Event.isXfer])
  | entersReceive hcmd hidle =>
    exact absurd (hnoxfer _ (List.mem_singleton_self _)) (by simp [Event.isXfer])
  | _ => exact .inl ⟨by simp [Event.touchesRadio], hstopped⟩

/-- Settles O54: the rows of the table that touch the radio need an open transport, a configured pin or
`stopped` at 0, but for the first primitive of `INIT`. -/
theorem quietAfterStop : Obligations.QuietAfterStop := by
  unfold Obligations.QuietAfterStop
  intro s t h hstep hstopped
  rcases step_effect hstep with ⟨hdevice, hquiet⟩ | ⟨q, hq, heff⟩
  · exact .inl ⟨hquiet, (congrArg Device.stopped hdevice).trans hstopped⟩
  · rcases heff.quiet_of_stopped h hq hstopped with hquiet | ⟨cfg, hcmd, hpos, hok, hrunning⟩
    · exact .inl hquiet
    · exact .inr ⟨q, cfg, hq, hcmd, hpos, hok, hrunning⟩

/-! ### Who writes what -/

theorem Effect.writer_of_ctrl (heff : Effect q d d' ev) (hne : d'.ctrl ≠ d.ctrl) :
    ∃ idx v, q.cmd = .writeCtrl idx v := by
  cases heff with
  | writesCtrl hcmd => exact ⟨_, _, hcmd⟩
  | _ => exact absurd rfl hne

theorem Effect.writer_of_cfg (heff : Effect q d d' ev) (hne : d'.cfg ≠ d.cfg) :
    (∃ cfg, q.cmd = .init cfg ∧ d'.cfg = cfg ∧ d'.cfgValid = true) ∨
      ∃ f, q.cmd = .setFreq f ∧ d'.cfg = { d.cfg with freq := f } := by
  cases heff with
  | initEnds hcmd => exact .inl ⟨_, hcmd, rfl, rfl⟩
  | retunes hcmd => exact .inr ⟨_, hcmd, rfl⟩
  | _ => exact absurd rfl hne

theorem Effect.writer_of_identity (heff : Effect q d d' ev)
    (hne : d'.deviceId ≠ d.deviceId ∨ d'.devValid ≠ d.devValid) : q.cmd = .detect := by
  cases heff with
  | detectFails hcmd => exact hcmd
  | detects hcmd => exact hcmd
  | _ => simp at hne

theorem Effect.writer_of_pin (heff : Effect q d d' ev)
    (hne : d'.stopped ≠ d.stopped ∨ d'.pinMode ≠ d.pinMode ∨ d'.pinLevel ≠ d.pinLevel) :
    (∃ cfg, q.cmd = .init cfg) ∨ q.cmd = .stop := by
  cases heff with
  | initBegins hcmd => exact .inl ⟨_, hcmd⟩
  | pulses hcmd => exact .inl ⟨_, hcmd⟩
  | cleansUp hcmd => exact .inr hcmd
  | stops hcmd => exact .inr hcmd
  | _ => simp at hne

theorem Effect.writer_of_busOpen (heff : Effect q d d' ev) (hne : d'.busOpen ≠ d.busOpen) :
    (∃ cfg, q.cmd = .init cfg) ∨ q.cmd = .detect ∨ q.cmd = .stop := by
  cases heff with
  | setsClock hcmd => exact hcmd.imp_right .inl
  | closes hcmd => exact or_assoc.1 hcmd
  | _ => exact absurd rfl hne

theorem Effect.profile_eq (heff : Effect q d d' ev) : d'.profile = d.profile := by
  cases heff <;> rfl

/-- Settles O56, field by field of the device. -/
theorem onlyTheirCommandsWrite : Obligations.OnlyTheirCommandsWrite := by
  unfold Obligations.OnlyTheirCommandsWrite
  intro s t hstep
  rcases step_effect hstep with ⟨hdevice, -⟩ | ⟨q, hq, heff⟩
  · have hsame {α : Type} (field : Device → α) : field t.device = field s.device :=
      congrArg field hdevice
    exact ⟨fun hne => absurd (hsame Device.ctrl) hne, fun hne => absurd (hsame Device.cfg) hne,
      fun hne => (hne.elim (· (hsame Device.deviceId)) (· (hsame Device.devValid))).elim,
      fun hne => (hne.elim (· (hsame Device.stopped))
        (·.elim (· (hsame Device.pinMode)) (· (hsame Device.pinLevel)))).elim,
      fun hne => absurd (hsame Device.busOpen) hne, hsame Device.profile⟩
  · refine ⟨fun hne => ?_, fun hne => ⟨q, hq, heff.writer_of_cfg hne⟩,
      fun hne => ⟨q, hq, heff.writer_of_identity hne⟩, fun hne => ⟨q, hq, heff.writer_of_pin hne⟩,
      fun hne => ⟨q, hq, heff.writer_of_busOpen hne⟩, heff.profile_eq⟩
    obtain ⟨idx, v, hcmd⟩ := heff.writer_of_ctrl hne
    exact ⟨q, idx, v, hq, hcmd⟩

/-! ### The transition table of TransceiverState -/

/-- A transport failure changes `tstate` as R24's table says (R132, R216). -/
theorem Inv.fails_row (h : Inv s) (hq : s.seq = some q) (hcmd : failsPlainly q.cmd = true)
    (hpos : q.pos ≠ .start) (hne : s.tstate ≠ .error) (c : Nat) :
    tstateRow q.cmd s.tstate .error (.resp c [0x01#8]) := by
  cases hc : q.cmd <;> rw [hc] at hcmd
  case init cfg =>
    obtain ⟨-, -, hquiet, -⟩ := h.midway_init hq hc hpos
    refine .inr ⟨rfl, ?_, c, rfl⟩
    cases hts : s.tstate <;> simp_all [TState.isQuiet]
  case transmit data => exact .inr (.inr ⟨h.midway_transmit hq hc hpos, rfl, c, rfl⟩)
  case receive timeout => exact .inr (.inr ⟨h.midway_receive hq hc hpos, rfl, c, rfl⟩)
  case setFreq freq => exact ⟨h.midway_setFreq hq hc hpos, rfl, c, rfl⟩
  case readRssi => exact ⟨h.midway_readRssi hq hc hpos, rfl, c, rfl⟩
  all_goals cases hcmd

/-- The end of `STOP` changes `tstate` only from `Idle` (R171). -/
theorem stop_row {a b : TState} (hb : b = if a = .idle then .uninitialized else a) (hne : b ≠ a)
    (c : Nat) : tstateRow .stop a b (.resp c [0x00#8]) := by
  by_cases ha : a = .idle
  · exact ⟨ha, hb.trans (if_pos ha), c, rfl⟩
  · exact absurd (hb.trans (if_neg ha)) hne

/-- A row of the table of effects that changes `tstate` is a row of R24's table. -/
theorem Effect.tstateRow_of_ne (heff : Effect q s.device d' ev) (h : Inv s) (hq : s.seq = some q)
    (hne : d'.tstate ≠ s.tstate) : ∃ e, ev = [e] ∧ tstateRow q.cmd s.tstate d'.tstate e := by
  cases heff with
  | entersTransmit hcmd hidle => exact ⟨_, rfl, by rw [hcmd]; exact .inl ⟨hidle, rfl, rfl⟩⟩
  | entersReceive hcmd hidle => exact ⟨_, rfl, by rw [hcmd]; exact .inl ⟨hidle, rfl, rfl⟩⟩
  | endsTransmit hcmd hpos =>
    exact ⟨_, rfl, by rw [hcmd]; exact .inr (.inl ⟨h.midway_transmit hq hcmd hpos, rfl, _, rfl⟩)⟩
  | endsReceive hcmd hpos hst =>
    exact ⟨_, rfl, by
      rw [hcmd]; exact .inr (.inl ⟨h.midway_receive hq hcmd hpos, rfl, _, _, _, rfl, hst⟩)⟩
  | fails hcmd hpos => exact ⟨_, rfl, h.fails_row hq hcmd hpos hne.symm _⟩
  | detectFails hcmd hpos hf =>
    obtain ⟨-, hts, -⟩ := h.midway_detect hq hcmd hpos
    refine ⟨_, rfl, ?_⟩
    rw [hcmd]
    refine ⟨rfl, hts, ?_⟩
    rcases hf with rfl | ⟨v, rfl⟩
    · exact .inl ⟨_, rfl⟩
    · exact .inr ⟨_, v, rfl⟩
  | initEnds hcmd hpos =>
    obtain ⟨-, -, hquiet, -⟩ := h.midway_init hq hcmd hpos
    refine ⟨_, rfl, ?_⟩
    rw [hcmd]
    refine .inl ⟨rfl, ?_, _, rfl⟩
    cases hts : s.tstate <;> simp_all [TState.isQuiet]
  | stops hcmd => exact ⟨_, rfl, by rw [hcmd]; exact stop_row rfl hne _⟩
  | _ => exact absurd rfl hne

/-- Only the end of `INIT` leaves `Error` (R226). -/
theorem Effect.idle_of_error_left (heff : Effect q s.device d' ev) (h : Inv s) (hq : s.seq = some q)
    (herror : s.tstate = .error) (hne : d'.tstate ≠ s.tstate) :
    d'.tstate = .idle ∧ d'.cfgValid = true := by
  cases heff with
  | initEnds hcmd hpos => exact ⟨rfl, rfl⟩
  | entersTransmit hcmd hidle => exact absurd (herror.symm.trans hidle) (by simp)
  | entersReceive hcmd hidle => exact absurd (herror.symm.trans hidle) (by simp)
  | endsTransmit hcmd hpos =>
    exact absurd (herror.symm.trans (h.midway_transmit hq hcmd hpos)) (by simp)
  | endsReceive hcmd hpos hst =>
    exact absurd (herror.symm.trans (h.midway_receive hq hcmd hpos)) (by simp)
  | fails hcmd hpos => exact absurd herror.symm hne
  | detectFails hcmd hpos hf => exact absurd herror.symm hne
  | stops hcmd => simp [herror] at hne
  | _ => exact absurd rfl hne

/-- Settles O52: a step that leaves the device alone changes no `tstate`, and each row of the table of
effects that changes it is a row of R24's. -/
theorem tstateTable : Obligations.TstateTable := by
  unfold Obligations.TstateTable
  intro s t h hstep hne
  rcases step_effect hstep with ⟨hdevice, -⟩ | ⟨q, hq, heff⟩
  · exact absurd (congrArg Device.tstate hdevice) hne
  · obtain ⟨e, hevents, hrow⟩ := heff.tstateRow_of_ne h hq hne
    exact ⟨⟨q, e, hq, hevents, hrow⟩, fun herror => heff.idle_of_error_left h hq herror hne⟩

end Sys2Proof.Machine
end

section
/-! The bus: its two transactions (R53, R54), the environment's answers (R52, R57), the table of
transactions (R60), and what one step adds to the history (R52, R64, R192, R198). -/

namespace Sys2Proof.Machine

variable {s t u : State} {q : Seq} {e : Event}

/-! ### Answers and transactions -/

/-- An answer to a call that carries `n` bytes: `fail`, or `ok` with as many bytes (R52). -/
def Answer.Fits (n : Nat) (r : Answer) : Prop := r = .fail ∨ ∃ bs : Frame, bs.length = n ∧ r = .ok bs

theorem freeAnswer_fits (d n : Nat) : (freeAnswer d n).Fits n := by
  unfold freeAnswer
  split
  · exact .inr ⟨freeBytes d n, by simp [freeBytes], rfl⟩
  · exact .inl rfl

theorem nextAnswer_fits (s : State) (n : Nat) : (s.nextAnswer n).Fits n := by
  unfold State.nextAnswer
  split
  · exact freeAnswer_fits _ _
  · exact .inl rfl
  · exact .inr ⟨_, fitBytes_length _ _ _, rfl⟩

/-- Settles O46: a script of the right length is answered as it stands. -/
theorem oracleAnswers : Obligations.OracleAnswers := by
  unfold Obligations.OracleAnswers
  exact fun s n => ⟨nextAnswer_fits s n, fun _ hfail => nextAnswer_fail hfail n,
    fun _ _ hlen hok => nextAnswer_ok hok hlen⟩

/-- Setting bit 7 of a register address adds 128 to it (R87). -/
theorem writeByte_eq (a : BitVec 7) :
    0x80#8 ||| BitVec.ofNat 8 a.toNat = BitVec.ofNat 8 (128 + a.toNat) := by
  revert a; decide

/-- Bit 7 of a register address is clear already (R87). -/
theorem readByte_eq (a : BitVec 7) : BitVec.ofNat 8 a.toNat &&& 0x7F#8 = BitVec.ofNat 8 a.toNat := by
  revert a; decide

/-- Settles O45: each is one `transfer`, of the bytes R53 and R54 give. -/
theorem spiTransactions : Obligations.SpiTransactions := by
  unfold Obligations.SpiTransactions
  refine fun s a => ⟨fun data => ⟨writeBytes a.toNat data, ?_, rfl⟩,
    fun n => ⟨readBytes s.profile a.toNat n, ?_, rfl⟩⟩
  · rw [writeBytes, writeByte_eq]
  · rw [readBytes, readByte_eq]

/-! ### The bodies follow the table of transactions -/

/-- A transaction is a row of R60's table for command `i` and its answer fits; other events are free. -/
def Event.InTable (p : Profile) (i : Instr) : Event → Prop
  | .xfer out r => xferRow p i out ∧ r.Fits out.length
  | _ => True

theorem inTable_of_not_xfer (p : Profile) (i : Instr) (he : e.isXfer = false) : e.InTable p i := by
  cases e with
  | xfer out r => cases he
  | _ => trivial

/-- From `s` to `t` the running command records nothing or one event, which the table allows. -/
def Records (q : Seq) (s t : State) : Prop :=
  t.hist = s.hist ∨ ∃ e, t.hist = s.hist ++ [e] ∧ e.InTable s.profile q.cmd

theorem Records.nothing (h : t.hist = s.hist) : Records q s t := .inl h

/-- An event that is no transaction needs no row. -/
theorem Records.plain (h : t.hist = s.hist ++ [e]) (he : e.isXfer = false) : Records q s t :=
  .inr ⟨e, h, inTable_of_not_xfer _ _ he⟩

/-- A transaction needs its row; the oracle sees to the answer. `u` is `s` but for the fields that the
body wrote first. -/
theorem Records.transfer {out : Frame} {pos : Pos} (hrow : xferRow s.profile q.cmd out)
    (hu : u.hist = s.hist := by rfl) : Records q s ((u.transfer out).goto pos) :=
  .inr ⟨.xfer out (u.nextAnswer out.length), by simp [hu], hrow, nextAnswer_fits u out.length⟩

/-- A response is no transaction. -/
theorem Records.finish (c : Nat) (st : Status) (data : Frame) (hu : u.hist = s.hist := by rfl) :
    Records q s (u.finish c st data) :=
  .plain (e := .resp c (st.code :: data)) (by simp [hu]) rfl

theorem writeBytes_isWriteTo (a : Nat) {n : Nat} {bs : Frame} (hlen : bs.length = n) :
    isWriteTo a n (writeBytes a bs) := ⟨bs, rfl, hlen⟩

theorem encFreq_length (p : Profile) (f : Nat) : (encFreq p f).length = p.frfBytes := be_length _ _

/-- Every write of `cfg_writes` is a row of `INIT`'s (R60, R118). -/
theorem cfgWrites_row {p : Profile} {cfg : RadioConfig} {w : Nat × Frame} (hw : w ∈ cfgWrites p cfg) :
    xferRow p (.init cfg) (writeBytes w.1 w.2) := by
  simp only [cfgWrites, List.mem_cons, List.not_mem_nil, or_false] at hw
  rcases hw with rfl | rfl | rfl | rfl | rfl
  · exact .inl (writeBytes_isWriteTo _ (encFreq_length _ _))
  · exact .inr (.inl (writeBytes_isWriteTo _ rfl))
  · exact .inr (.inr (.inl (writeBytes_isWriteTo _ rfl)))
  · exact .inr (.inr (.inr (.inl (writeBytes_isWriteTo _ (be_length _ _)))))
  · exact .inr (.inr (.inr (.inr (writeBytes_isWriteTo _ rfl))))

/-- The reset pulse begins with an event of the pin (R134). -/
theorem beginReset_records (hu : u.hist = s.hist) : Records q s u.beginReset := by
  obtain ⟨-, -, e, he, hhist, -⟩ := beginReset_pulse u
  exact .plain (by rw [hhist, hu]) he

theorem initStart_records (cfg : RadioConfig) : Records q s (initStart cfg q s) := by
  unfold initStart
  split
  · exact .finish _ _ _
  split
  · exact .finish _ _ _
  split
  · exact beginReset_records rfl
  · exact .plain rfl rfl

theorem initWrite_records {cfg : RadioConfig} (n : Nat) (hcmd : q.cmd = .init cfg) :
    Records q s (initWrite cfg n q s) := by
  unfold initWrite
  split
  · rename_i w hw
    exact .transfer (hcmd ▸ cfgWrites_row (List.mem_of_getElem? hw))
  · exact .finish _ _ _

theorem initBody_records {cfg : RadioConfig} (hcmd : q.cmd = .init cfg) :
    Records q s (initBody cfg q s) := by
  unfold initBody
  split
  · exact initStart_records cfg
  · split
    · exact .plain rfl rfl
    · exact .finish _ _ _
  · split
    · exact beginReset_records rfl
    · exact .plain rfl rfl
  · exact .finish _ _ _
  · exact .plain rfl rfl
  · exact .plain rfl rfl
  · exact .plain rfl rfl
  · exact .plain rfl rfl
  · split
    · exact initWrite_records _ hcmd
    · exact .finish _ _ _
  · exact .nothing rfl

theorem detectRead_records (hcmd : q.cmd = .detect) : Records q s (detectRead s) :=
  .transfer (by rw [hcmd]; rfl)

theorem detectBody_records (hcmd : q.cmd = .detect) : Records q s (detectBody q s) := by
  have hfail : Records q s (detectFail q s) := .finish _ _ _
  unfold detectBody
  split
  · split
    · exact .finish _ _ _
    split
    · exact detectRead_records hcmd
    · exact .plain rfl rfl
  · split
    · exact .plain rfl rfl
    · exact hfail
  · split
    · exact detectRead_records hcmd
    · exact .plain rfl rfl
  · exact hfail
  · split
    · unfold detectJudge
      split
      · exact .finish _ _ _
      · exact .finish _ _ _
    · exact hfail
  · exact .nothing rfl

theorem transmitBody_records {data : Frame} (hcmd : q.cmd = .transmit data) :
    Records q s (transmitBody data q s) := by
  unfold transmitBody
  split
  · split
    · exact .finish _ _ _
    split
    · exact .finish _ _ _
    · rename_i hfits
      have hrow : xferRow s.profile q.cmd (writeBytes s.profile.regFifo data) := by
        rw [hcmd]
        exact .inl ⟨data.length, Nat.le_of_not_lt hfits, writeBytes_isWriteTo _ rfl⟩
      exact .transfer hrow
  · split
    · exact .transfer (by rw [hcmd]; exact .inr rfl)
    · exact .finish _ _ _
  · split
    · exact .plain rfl rfl
    · exact .finish _ _ _
  · exact .finish _ _ _
  · exact .nothing rfl

/-- A read of the whole FIFO depth is `RECEIVE`'s row, from a state `u` that shares the history and the
profile (R139). -/
theorem receiveRead_records {timeout : Word} (hcmd : q.cmd = .receive timeout)
    (hu : u.hist = s.hist := by rfl) (hp : u.profile = s.profile := by rfl) :
    Records q s (receiveRead u) :=
  .transfer (by rw [hcmd, hp]; exact .inr rfl) hu

theorem receiveJudge_records (timeout : Word) (r : Frame) (hu : u.hist = s.hist) :
    Records q s (receiveJudge timeout r q u) := by
  unfold receiveJudge
  split
  · exact .finish _ _ _ hu
  split
  · exact .finish _ _ _ hu
  split
  · exact .finish _ _ _ hu
  · exact .plain (e := .wait .poll u.ctrl.tPoll) (by simp [hu]) rfl

theorem receiveBody_records {timeout : Word} (hcmd : q.cmd = .receive timeout) :
    Records q s (receiveBody timeout q s) := by
  unfold receiveBody
  split
  · split
    · exact .finish _ _ _
    split
    · rename_i hentry
      exact .transfer (by rw [hcmd]; exact .inl ⟨hentry, rfl⟩)
    · exact receiveRead_records hcmd
  · split
    · exact receiveRead_records hcmd
    · exact .finish _ _ _
  · exact receiveRead_records hcmd
  · split
    · exact receiveJudge_records timeout _ rfl
    · exact .finish _ _ _
  · exact .nothing rfl

theorem setFreqBody_records {freq : Word} (hcmd : q.cmd = .setFreq freq) :
    Records q s (setFreqBody freq q s) := by
  unfold setFreqBody
  split
  · split
    · exact .finish _ _ _
    split
    · exact .finish _ _ _
    · exact .transfer (by rw [hcmd]; exact writeBytes_isWriteTo _ (encFreq_length _ _))
  · split
    · exact .finish _ _ _
    · exact .finish _ _ _
  · exact .nothing rfl

theorem readRssiBody_records (hcmd : q.cmd = .readRssi) : Records q s (readRssiBody q s) := by
  unfold readRssiBody
  split
  · split
    · exact .finish _ _ _
    · exact .transfer (by rw [hcmd]; rfl)
  · split
    · exact .finish _ _ _
    · exact .finish _ _ _
  · exact .nothing rfl

theorem stopRelease_records : Records q s (stopRelease q s) := by
  unfold stopRelease
  split
  · exact .plain rfl rfl
  · exact .finish _ _ _

theorem stopBody_records : Records q s (stopBody q s) := by
  unfold stopBody
  split
  · split
    · exact .plain rfl rfl
    · exact stopRelease_records
  · exact stopRelease_records
  · exact .finish _ _ _
  · exact .nothing rfl

theorem writeCtrlBody_records (idx : Byte) (value : Word) :
    Records q s (writeCtrlBody idx value q s) := by
  unfold writeCtrlBody
  split
  · exact .finish _ _ _
  · exact .finish _ _ _

/-- Every body records at most one event, and a transaction only by the table. -/
theorem body_records (q : Seq) (s : State) : Records q s (body q s) := by
  cases hcmd : q.cmd with
  | init cfg => simpa only [body, hcmd] using initBody_records hcmd
  | detect => simpa only [body, hcmd] using detectBody_records hcmd
  | transmit data => simpa only [body, hcmd] using transmitBody_records hcmd
  | receive timeout => simpa only [body, hcmd] using receiveBody_records hcmd
  | setFreq freq => simpa only [body, hcmd] using setFreqBody_records hcmd
  | readRssi => simpa only [body, hcmd] using readRssiBody_records hcmd
  | stop => simpa only [body, hcmd] using stopBody_records
  | writeCtrl idx value => simpa only [body, hcmd] using writeCtrlBody_records idx value
  | _ => simpa only [body, hcmd] using .nothing rfl

/-! ### What one step adds to the history -/

/-- What a step may add to the history, under profile `p`, when `seq` says which command runs. -/
inductive Recorded (p : Profile) (seq : Option Seq) : List Event → Prop
  /-- A move passed over, a grant to nobody, or a position none of the command's own. -/
  | nothing : Recorded p seq []
  /-- An arbitrated command is submitted (R191). -/
  | submitted (c : Nat) (f : Frame) : Recorded p seq [.submit c f]
  /-- An immediate command is submitted and answered in the same step (R192). -/
  | answered (c : Nat) (f g : Frame) : Recorded p seq [.submit c f, .resp c g]
  | granted (c : Nat) : Recorded p seq [.grant c]
  /-- A step of the running command; only an arbitrated one has rows in the table. -/
  | owned (q : Seq) (e : Event) (hq : seq = some q)
      (hrow : q.cmd.kind = .arbitrated → e.InTable p q.cmd) : Recorded p seq [e]

variable {p : Profile} {seq : Option Seq} {ev : List Event}

/-- From `s` to `t` the history grows by what a step may add. -/
def Grows (s t : State) : Prop := ∃ ev, t.hist = s.hist ++ ev ∧ Recorded s.profile s.seq ev

theorem submit_grows {c : Nat} {i : Instr} (hsubmit : s.beginSubmit c = some (i, u))
    (hexec : exec i u = .next t) : Grows s t := by
  obtain ⟨f, rest, -, -, hi, rfl⟩ := beginSubmit_cases hsubmit
  cases hkind : i.kind with
  | arbitrated =>
    rw [exec_accept rfl hkind] at hexec
    cases hexec
    exact ⟨_, rfl, .submitted c f⟩
  | immediate =>
    rw [exec_immediate rfl hkind] at hexec
    cases hexec
    exact ⟨_, by simp; rfl, .answered c f _⟩
  | transaction => exact absurd (hi ▸ hkind) (decodeFrame_kind _ _)

theorem grant_grows (s : State) (pick : Nat) : Grows s (s.grant pick) := by
  rcases grant_cases s pick with hgrant | ⟨c, i, -, -, -, hgrant⟩
  · exact ⟨[], by simp [hgrant], .nothing⟩
  · exact ⟨_, by rw [hgrant]; rfl, .granted c⟩

theorem Records.grows (h : Records q s t) (hq : s.seq = some q) : Grows s t := by
  rcases h with hsame | ⟨e, hhist, hrow⟩
  · exact ⟨[], by simp [hsame], .nothing⟩
  · exact ⟨[e], hhist, .owned q e hq fun _ => hrow⟩

/-- The owner's step, in any state: also where an instruction runs that is no arbitrated command, which
no reachable state does. -/
theorem owner_grows (hturn : s.turn = .sequencer) (hq : s.seq = some q)
    (hexec : exec q.cmd s = .next t) : Grows s t := by
  by_cases hkind : q.cmd.kind = .arbitrated
  · rw [exec_owner hturn hq hkind] at hexec
    cases hexec
    exact (body_records q s).grows hq
  · rcases exec_owner_cases hturn hq hexec with rfl | rfl | ⟨out, rfl⟩
    · exact ⟨[], by simp, .nothing⟩
    · exact (body_records q s).grows hq
    · exact ⟨_, rfl, .owned q _ hq fun harb => absurd harb hkind⟩

/-- Every step records what its shape allows. -/
theorem step_grows (hstep : step s = .next t) : Grows s t := by
  rcases step_cases hstep with rfl | ⟨c, i, u, hsubmit, hexec⟩ | ⟨pick, -, rfl⟩ | ⟨q, hq, hexec⟩
  · exact ⟨[], by simp, .nothing⟩
  · exact submit_grows (s := s.popMove) hsubmit hexec
  · exact grant_grows s.popMove pick
  · exact owner_grows (s := s.popMove.ownTurn) rfl hq hexec

theorem Recorded.shape (h : Recorded p seq ev) :
    ev = [] ∨ (∃ e, ev = [e]) ∨ ∃ c f g, ev = [.submit c f, .resp c g] := by
  cases h with
  | nothing => exact .inl rfl
  | answered c f g => exact .inr (.inr ⟨c, f, g, rfl⟩)
  | _ => exact .inr (.inl ⟨_, rfl⟩)

/-- Only the running command records an event of the transport, the pin or a wait (R198). -/
theorem Recorded.seq_of_owners (h : Recorded p seq ev) (he : e ∈ ev) (howners : e.isOwners = true) :
    ∃ q, seq = some q := by
  cases h with
  | nothing => cases he
  | submitted c f => cases List.mem_singleton.1 he; cases howners
  | answered c f g =>
    rcases List.mem_pair.1 he with rfl | rfl
    · cases howners
    · cases howners
  | granted c => cases List.mem_singleton.1 he; cases howners
  | owned q e' hq hrow => exact ⟨q, hq⟩

/-- A transaction is a row of the table for the running command, when that is an arbitrated one. -/
theorem Recorded.row_of_xfer {out : Frame} {r : Answer} (h : Recorded p seq ev) (hxfer : .xfer out r ∈ ev)
    (harb : ∀ q, seq = some q → q.cmd.kind = .arbitrated) :
    (∃ q, seq = some q ∧ xferRow p q.cmd out) ∧ r.Fits out.length := by
  cases h with
  | owned q e hq hrow =>
    cases List.mem_singleton.1 hxfer
    obtain ⟨hinTable, hfits⟩ := hrow (harb q hq)
    exact ⟨⟨q, hq, hinTable⟩, hfits⟩
  | _ => simp at hxfer

/-- Settles O51, from what each shape of a step records. -/
theorem historyGrows : Obligations.HistoryGrows := by
  unfold Obligations.HistoryGrows
  intro s t hstep
  obtain ⟨ev, hhist, hrecorded⟩ := step_grows hstep
  rw [newEvents_of_hist hhist]
  exact ⟨hhist, hrecorded.shape, fun _ => hrecorded.seq_of_owners⟩

/-- Settles O55: only the running command issues a transaction, and its body follows the table. -/
theorem transactionTable : Obligations.TransactionTable := by
  unfold Obligations.TransactionTable
  intro s t h hstep out r hxfer
  obtain ⟨ev, hhist, hrecorded⟩ := step_grows hstep
  rw [newEvents_of_hist hhist] at hxfer
  exact hrecorded.row_of_xfer hxfer fun q hq => (h.pos_fits q hq).1

end Sys2Proof.Machine
end

section
/-! Frames and commands: the decoder's equations and the two round trips (R71 to R76, R81, R82, R87 to
R91). The first round trip is assembled from the family `RoundTrip`, one lemma per constructor. -/

namespace Sys2Proof.Machine

variable {p : Profile} {op second : Byte} {rest f : Frame} {n : Nat}

/-! ### Decoding what was encoded -/

/-- Every instruction is given back from its frame by the decoder of its own format (R87, R91). -/
theorem roundTrip : ∀ i : Instr, Laws.RoundTrip.Statement i
  | .init cfg => Laws.RoundTrip.init cfg
  | .detect => Laws.RoundTrip.detect
  | .transmit data => Laws.RoundTrip.transmit data
  | .receive timeout => Laws.RoundTrip.receive timeout
  | .setFreq freq => Laws.RoundTrip.setFreq freq
  | .readRssi => Laws.RoundTrip.readRssi
  | .stop => Laws.RoundTrip.stop
  | .getState => Laws.RoundTrip.getState
  | .writeCtrl idx value => Laws.RoundTrip.writeCtrl idx value
  | .readCtrl idx => Laws.RoundTrip.readCtrl idx
  | .encFreq freq => Laws.RoundTrip.encFreq freq
  | .decFreq reg => Laws.RoundTrip.decFreq reg
  | .encPower power => Laws.RoundTrip.encPower power
  | .encMod sf bw cr => Laws.RoundTrip.encMod sf bw cr
  | .encPreamble preamble => Laws.RoundTrip.encPreamble preamble
  | .encSync sync => Laws.RoundTrip.encSync sync
  | .decRssi raw => Laws.RoundTrip.decRssi raw
  | .decPayload data => Laws.RoundTrip.decPayload data
  | .reserved op rest => Laws.RoundTrip.reserved op rest
  | .illegal frame => Laws.RoundTrip.illegal frame
  | .spiWrite addr data => Laws.RoundTrip.spiWrite addr data
  | .spiRead addr n => Laws.RoundTrip.spiRead addr n

/-- Settles O1, constructor by constructor. -/
theorem decodeEncodeCommands : Obligations.DecodeEncodeCommands := by
  unfold Obligations.DecodeEncodeCommands
  exact fun p i hwf hkind => (roundTrip i p hwf).1 hkind

/-- Settles O3: the transactions are the two constructors of format S. -/
theorem decodeEncodeSpi : Obligations.DecodeEncodeSpi := by
  unfold Obligations.DecodeEncodeSpi
  exact fun p i hwf hkind => (roundTrip i p hwf).2 hkind

/-- Settles O5, word by word. -/
theorem wordsDecodeRight : Obligations.WordsDecodeRight := by
  unfold Obligations.WordsDecodeRight
  decide

/-! ### The frames of the length table -/

/-- Only the reserved opcodes have no length (R71, R81). -/
theorem frameLength_eq_none_iff :
    frameLength p op second = none ↔
      op.toNat = 0x00 ∨ (0x0B ≤ op.toNat ∧ op.toNat ≤ 0x0F) ∨ 0x18 ≤ op.toNat := by
  unfold frameLength
  split
  case h_19 =>
    simp only [imp_false, true_iff] at *
    omega
  all_goals
    rename_i hop
    simp [hop]

/-- The assigned opcodes whose frames have one length (R73). -/
theorem frameLength_of_fixed
    (h : (op.toNat, n) ∈ [(0x01, 14), (0x02, 1), (0x04, 5), (0x05, 5), (0x06, 1), (0x07, 1), (0x08, 1),
      (0x09, 6), (0x0A, 2), (0x10, 5), (0x11, 1 + p.frfBytes), (0x12, 3), (0x13, 5), (0x14, 3),
      (0x15, 2), (0x16, 2)]) : frameLength p op second = some n := by
  simp only [List.mem_cons, List.not_mem_nil, or_false, Prod.mk.injEq] at h
  rcases h with h | h | h | h | h | h | h | h | h | h | h | h | h | h | h | h
  all_goals
    obtain ⟨hop, rfl⟩ := h
    simp only [frameLength, hop]

/-- The two opcodes whose second byte counts the data (R74). -/
theorem frameLength_of_counted (hop : op.toNat = 0x03 ∨ op.toNat = 0x17) :
    frameLength p op second = some (2 + second.toNat) := by
  rcases hop with hop | hop
  · simp only [frameLength, hop]
  · simp only [frameLength, hop]

/-! ### The decoder's equations -/

theorem decodeFrame_of_reserved (h : frameLength p op (rest.headD 0#8) = none) :
    decodeFrame p (op :: rest) = .reserved op rest := by
  simp only [decodeFrame, h]

theorem decodeFrame_of_wrongLength (h : frameLength p op (rest.headD 0#8) = some n)
    (hlen : rest.length + 1 ≠ n) : decodeFrame p (op :: rest) = .illegal (op :: rest) := by
  simp only [decodeFrame, h]
  exact if_neg hlen

theorem decodeFrame_of_length (h : frameLength p op (rest.headD 0#8) = some (rest.length + 1)) :
    decodeFrame p (op :: rest) = decodeCommand p op (op :: rest) := by
  simp only [decodeFrame, h]
  exact if_pos rfl

/-- Settles O4, from the length table and the decoder's equations. -/
theorem framesThatSpellNoCommand : Obligations.FramesThatSpellNoCommand := by
  unfold Obligations.FramesThatSpellNoCommand
  refine fun p => ⟨rfl, fun op rest hop => decodeFrame_of_reserved (frameLength_eq_none_iff.2 hop),
    fun op rest n hmem hlen => decodeFrame_of_wrongLength (frameLength_of_fixed hmem) hlen,
    fun op hop => ⟨?_, fun len data hlen => ?_⟩⟩
  · exact decodeFrame_of_wrongLength (frameLength_of_counted hop) (by simp)
  · refine decodeFrame_of_wrongLength (frameLength_of_counted hop) ?_
    simp only [List.length_cons, List.headD_cons]
    omega

/-! ### Writing back the operands that were read -/

variable {i j m : Nat}

/-- The operands are what follows the opcode. -/
theorem bytesAt_one_eq_tail (hlen : f.length = 1 + n) : bytesAt f 1 n = f.tail := by
  rw [bytesAt, List.drop_one]
  exact List.take_of_length_le (by rw [List.length_tail]; omega)

/-- Neighbouring operands together. -/
theorem bytesAt_append_bytesAt (hj : j = i + m) :
    bytesAt f i m ++ bytesAt f j n = bytesAt f i (m + n) := by
  rw [hj, bytesAt, bytesAt, bytesAt, List.take_add, List.drop_drop]

theorem bytesAt_length (hfits : i + n ≤ f.length) : (bytesAt f i n).length = n := by
  simp only [bytesAt, List.length_take, List.length_drop]
  omega

theorem singleton_u8At (hfits : i + 1 ≤ f.length) : [u8At f i] = bytesAt f i 1 := by
  have hi : i < f.length := hfits
  rw [u8At, bytesAt, List.drop_eq_getElem_cons hi, List.getD_eq_getElem _ _ hi]
  rfl

theorem be2_u16At (hfits : i + 2 ≤ f.length) : be 2 (u16At f i).toNat = bytesAt f i 2 :=
  be2_ofNat_fromBe (bytesAt_length hfits)

theorem be4_u32At (hfits : i + 4 ≤ f.length) : be 4 (u32At f i).toNat = bytesAt f i 4 :=
  be4_ofNat_fromBe (bytesAt_length hfits)

/-- A command without operands. -/
theorem no_operands (hlen : f.length = 1) : [] = f.tail := by
  rw [← bytesAt_one_eq_tail (n := 0) hlen]
  rfl

/-- A command with one `u8` operand. -/
theorem byte_operand (hlen : f.length = 2) : [u8At f 1] = f.tail := by
  rw [singleton_u8At hlen.ge, bytesAt_one_eq_tail hlen]

/-- A command with one `u16` or `s16` operand. -/
theorem half_operand (hlen : f.length = 3) : be 2 (u16At f 1).toNat = f.tail := by
  rw [be2_u16At hlen.ge, bytesAt_one_eq_tail hlen]

/-- A command with one `u32` operand. -/
theorem word_operand (hlen : f.length = 5) : be 4 (u32At f 1).toNat = f.tail := by
  rw [be4_u32At hlen.ge, bytesAt_one_eq_tail hlen]

/-- `DEC_FREQ`, whose operand is as wide as the profile's frequency register. -/
theorem register_operand (hlen : f.length = 1 + n) : be n (fromBe (bytesAt f 1 n)) = f.tail := by
  rw [be_fromBe (bytesAt_length hlen.ge), bytesAt_one_eq_tail hlen]

/-- `WRITE_CTRL`. -/
theorem writeCtrl_operands (hlen : f.length = 6) :
    u8At f 1 :: be 4 (u32At f 2).toNat = f.tail := by
  rw [← List.singleton_append, singleton_u8At (by omega), be4_u32At (by omega),
    bytesAt_append_bytesAt rfl, bytesAt_one_eq_tail hlen]

/-- `ENC_MOD`. -/
theorem encMod_operands (hlen : f.length = 5) :
    u8At f 1 :: (be 2 (u16At f 2).toNat ++ [u8At f 4]) = f.tail := by
  rw [← List.singleton_append, singleton_u8At (by omega), be2_u16At (by omega),
    singleton_u8At (by omega)]
  iterate 2 rw [bytesAt_append_bytesAt rfl]
  exact bytesAt_one_eq_tail hlen

/-- `INIT` (R75). -/
theorem init_operands (hlen : f.length = 14) :
    be 4 (u32At f 1).toNat ++ be 2 (u16At f 5).toNat ++ [u8At f 7] ++ be 2 (u16At f 8).toNat ++
      [u8At f 10] ++ [u8At f 11] ++ be 2 (u16At f 12).toNat = f.tail := by
  rw [be4_u32At (by omega), be2_u16At (by omega), singleton_u8At (by omega), be2_u16At (by omega),
    singleton_u8At (by omega), singleton_u8At (by omega), be2_u16At (by omega)]
  iterate 6 rw [bytesAt_append_bytesAt rfl]
  exact bytesAt_one_eq_tail hlen

/-- `TRANSMIT` and `DEC_PAYLOAD`: the count byte and as many bytes as it says (R74). -/
theorem counted_operands (hlen : f.length = 2 + (u8At f 1).toNat) :
    BitVec.ofNat 8 (bytesAt f 2 (u8At f 1).toNat).length :: bytesAt f 2 (u8At f 1).toNat = f.tail := by
  rw [bytesAt_length hlen.ge, BitVec.ofNat_toNat, BitVec.setWidth_eq, ← List.singleton_append,
    singleton_u8At (by omega), bytesAt_append_bytesAt rfl]
  exact bytesAt_one_eq_tail (by omega)

/-- The byte the length table looks at is the frame's second. -/
theorem u8At_one_cons : u8At (op :: rest) 1 = rest.headD 0#8 := by
  cases rest with
  | nil => rfl
  | cons second data => rfl

/-! ### Encoding what was decoded -/

/-- A command read from a frame of its exact length is well formed: an operand of varying width fits the
width it was read from. -/
theorem decodeCommand_wf (hlen : frameLength p op second = some n) :
    (decodeCommand p op f).wf p = true := by
  have hcounted : (bytesAt f 2 (u8At f 1).toNat).length < 256 :=
    lt_of_le_of_lt (List.length_take_le _ _) (u8At f 1).isLt
  have hreg : fromBe (bytesAt f 1 p.frfBytes) < 256 ^ p.frfBytes :=
    lt_of_lt_of_le (fromBe_lt _) (Nat.pow_le_pow_right (by decide) (List.length_take_le _ _))
  -- the cases are the opcodes of R71, in its order
  unfold decodeCommand
  split
  case h_3 | h_18 => exact decide_eq_true hcounted
  case h_12 => exact decide_eq_true hreg
  case h_19 =>
    have hnone : frameLength p op second = none := by
      simp only [imp_false] at *
      exact frameLength_eq_none_iff.2 (by omega)
    rw [hnone] at hlen
    cases hlen
  all_goals rfl

theorem byte_eq_ofNat {v : Nat} (h : op.toNat = v) : op = BitVec.ofNat 8 v := by
  rw [← h, BitVec.ofNat_toNat, BitVec.setWidth_eq]

/-- The frame of a command read from a frame of its exact length is that frame (R71, R73, R74). -/
theorem encode_decodeCommand (hlen : frameLength p op (rest.headD 0#8) = some (rest.length + 1)) :
    encode p (decodeCommand p op (op :: rest)) = op :: rest := by
  rw [← u8At_one_cons (op := op)] at hlen
  unfold frameLength at hlen
  -- the cases are the rows of the length table (R73), in its order
  split at hlen
  case h_19 => cases hlen
  all_goals
    rename_i hop
    have hlength : (op :: rest).length = _ := (Option.some.inj hlen).symm
    obtain rfl := byte_eq_ofNat hop
    refine congrArg (List.cons _) ?_
  case h_1 => exact init_operands hlength
  case h_2 | h_6 | h_7 | h_8 => exact no_operands hlength
  case h_3 | h_18 => exact counted_operands hlength
  case h_4 | h_5 | h_11 => exact word_operand hlength
  case h_9 => exact writeCtrl_operands hlength
  case h_10 | h_16 | h_17 => exact byte_operand hlength
  case h_12 => exact register_operand hlength
  case h_13 | h_15 => exact half_operand hlength
  case h_14 => exact encMod_operands hlength

/-- Settles O2, by the three ways the decoder answers a frame with an opcode: a reserved opcode, the
length of a command, a wrong length. -/
theorem encodeDecodeCommands : Obligations.EncodeDecodeCommands := by
  unfold Obligations.EncodeDecodeCommands
  intro p f
  suffices hback : (decodeFrame p f).wf p = true ∧ encode p (decodeFrame p f) = f from
    ⟨hback.1, decodeFrame_kind p f, hback.2⟩
  match f with
  | [] => exact ⟨rfl, rfl⟩
  | op :: rest =>
    cases hlen : frameLength p op (rest.headD 0#8) with
    | none =>
      rw [decodeFrame_of_reserved hlen]
      exact ⟨by rw [Instr.wf, hlen]; rfl, rfl⟩
    | some n =>
      by_cases hn : rest.length + 1 = n
      · subst hn
        rw [decodeFrame_of_length hlen]
        exact ⟨decodeCommand_wf hlen, encode_decodeCommand hlen⟩
      · rw [decodeFrame_of_wrongLength hlen hn]
        exact ⟨by rw [Instr.wf, hlen]; exact decide_eq_true hn, rfl⟩

end Sys2Proof.Machine
end

section
/-! Submissions: what a step runs (R191, R194), the acceptance of an arbitrated command (R80, R193) and
the answer to an illegal frame (R175, R223). -/

namespace Sys2Proof.Machine

variable {s : State} {c : Nat} {f : Frame} {fs : List Frame} {ms : List Move}

/-- A submission that the schedule names and the port allows runs the decoded command (R191). -/
theorem step_submit (hsched : s.sched = .submit c :: ms) (hfree : s.outstanding[c]? = some false)
    (hinbox : s.inbox[c]? = some (f :: fs)) :
    step s = exec (decodeFrame s.profile f) (s.popMove.takeFrame c f fs) := by
  have hmove : s.nextMove = .submit c := by rw [State.nextMove, hsched]
  have hbegin : s.popMove.beginSubmit c =
      some (decodeFrame s.profile f, s.popMove.takeFrame c f fs) := by
    simp [State.beginSubmit, hfree, hinbox]
  simp only [step, hmove, hbegin]

/-- A step of the LMC that the schedule names runs the owner's command (R194). -/
theorem step_run {pick : Nat} {q : Seq} (hsched : s.sched = .run pick :: ms) (hq : s.seq = some q) :
    step s = exec q.cmd s.popMove.ownTurn := by
  have hmove : s.nextMove = .run pick := by rw [State.nextMove, hsched]
  have hseq : s.popMove.seq = some q := hq
  simp only [step, hmove, hseq]

/-- A loaded word is what port 0 submits next, and taking it leaves what was loaded over (log entry 10). -/
theorem step_withFetchWord (nbits w : Nat) (hports : s.outstanding ≠ []) (hclients : s.inbox ≠ []) :
    step (s.withFetchWord nbits w) =
      exec (decodeFrame s.profile (tableFrame s.profile nbits w))
        { s with hist := s.hist ++ [.submit 0 (tableFrame s.profile nbits w)],
                 outstanding := s.outstanding.set 0 true, turn := .submission 0 } := by
  obtain ⟨busy, ports, hout⟩ := List.exists_cons_of_ne_nil hports
  obtain ⟨fs, clients, hin⟩ := List.exists_cons_of_ne_nil hclients
  have hfree : (s.withFetchWord nbits w).outstanding[0]? = some false := by
    simp [State.withFetchWord, State.loadFrame, hout]
  have hinbox : (s.withFetchWord nbits w).inbox[0]? = some (tableFrame s.profile nbits w :: fs) := by
    simp [State.withFetchWord, State.loadFrame, hin]
  rw [step_submit rfl hfree hinbox]
  simp [State.withFetchWord, State.loadFrame, State.takeFrame, State.emit, State.popMove, hout, hin]

/-- Settles O7, one lemma for each way a step comes to run an instruction. -/
theorem stepRunsDecoded : Obligations.StepRunsDecoded := by
  unfold Obligations.StepRunsDecoded
  refine ⟨fun s c f fs m hsched hfree hinbox => ?_, fun s pick m q hsched hq => ?_,
    fun s nbits w hports hclients => step_withFetchWord nbits w hports hclients⟩
  · rw [step_submit hsched hfree hinbox]
    simp only [State.takeFrame, State.emit, State.popMove, hsched, List.tail_cons]
  · rw [step_run hsched hq]
    simp only [State.ownTurn, State.popMove, hsched, List.tail_cons]

/-- Settles O23: it is what `exec` of an arbitrated command does in its submission. -/
theorem acceptanceOnly : Obligations.AcceptanceOnly := by
  unfold Obligations.AcceptanceOnly
  exact fun s c i hturn hkind => exec_accept hturn hkind

/-- The answer to a frame that spells no command (R175). -/
theorem exec_of_noCommand {i : Instr} (hturn : s.turn = .submission c)
    (hi : i = .illegal f ∨ ∃ op rest, i = .reserved op rest) :
    exec i s = .next (s.replied c [0x06#8]) := by
  obtain rfl | ⟨op, rest, rfl⟩ := hi
  · exact exec_replied hturn rfl
  · exact exec_replied hturn rfl

/-- A submission that is answered at once leaves the port free again, so it only takes the frame and
records both events (R191, R192). -/
theorem replied_takeFrame {t : State} {g : Frame} (hturn : t.turn = .sequencer)
    (hfree : t.outstanding[c]? = some false) :
    (t.takeFrame c f fs).replied c g =
      { t with inbox := t.inbox.set c fs, hist := t.hist ++ [.submit c f, .resp c g] } := by
  simp [State.replied, State.takeFrame, State.emit, set_set_of_free hfree, ← hturn]

/-- Settles O19, for both names of an illegal frame. -/
theorem illegalFrameResult : Obligations.IllegalFrameResult := by
  unfold Obligations.IllegalFrameResult
  refine ⟨fun s c op rest hturn => exec_of_noCommand (f := []) hturn (.inr ⟨op, rest, rfl⟩),
    fun s c f hturn => exec_of_noCommand hturn (.inl rfl),
    fun s c f fs m hturn hsched hfree hinbox hdecode => ?_⟩
  rw [step_submit hsched hfree hinbox, exec_of_noCommand rfl hdecode,
    replied_takeFrame (t := s.popMove) hturn hfree]
  simp only [State.popMove, hsched, List.tail_cons]

end Sys2Proof.Machine
end

section
/-! The Register Codec (40_codec.md): the answer of each codec command, and the laws of its functions that
the answers rest on. -/

namespace Sys2Proof.Machine

variable {s t : State} {c : Nat} {i : Instr} {p : Profile}

/-! ### Commands with a range check -/

/-- A command that checks its operands responds with its data when they are accepted and with
`INVALID_PARAMETER` when they are not (R100, R217). -/
theorem exec_checked {okay : Bool} {data : Frame} {accepted : Prop} (hturn : s.turn = .submission c)
    (hkind : i.kind = .immediate) (hanswer : answerOf i s = checked okay data)
    (hokay : okay = true ↔ accepted) :
    (accepted → exec i s = .next (s.replied c (0x00#8 :: data))) ∧
      (¬accepted → exec i s = .next (s.replied c [0x02#8])) := by
  rw [exec_replied hturn hkind, hanswer]
  constructor
  · intro h
    rw [hokay.2 h]; rfl
  · intro h
    rw [Bool.eq_false_iff.2 (mt hokay.1 h)]; rfl

/-! ### What a codec command reads and answers -/

/-- A codec command runs whole in its submission (R80, R100). -/
theorem kind_of_isCodec (h : isCodec i = true) : i.kind = .immediate := by
  cases i with
  | encFreq | decFreq | encPower | encMod | encPreamble | encSync | decRssi | decPayload => rfl
  | _ => cases h

/-- Its answer depends on the profile alone, and for `DEC_PAYLOAD` on `POLICY` (R100). -/
theorem answerOf_congr (h : isCodec i = true) (hprofile : s.profile = t.profile)
    (hpolicy : (∃ data, i = .decPayload data) → s.ctrl.policy = t.ctrl.policy) :
    answerOf i s = answerOf i t := by
  cases i with
  | decPayload data => simp only [answerOf, hprofile, hpolicy ⟨data, rfl⟩]
  | encFreq | decFreq | encPower | encMod | encPreamble | encSync | decRssi =>
    simp only [answerOf, hprofile]
  | _ => cases h

/-- A codec command without a check is one whose check always holds. -/
theorem answerOf_eq_checked (h : isCodec i = true) :
    ∃ okay data, answerOf i s = checked okay data := by
  cases i with
  | decFreq | encSync | decRssi => exact ⟨true, _, rfl⟩
  | encFreq | encPower | encMod | encPreamble | decPayload => exact ⟨_, _, rfl⟩
  | _ => cases h

/-- Settles O16: both answers are the same, and an answer is data or `INVALID_PARAMETER`. -/
theorem codecIsPure : Obligations.CodecIsPure := by
  unfold Obligations.CodecIsPure
  intro s t c d i hcodec hs ht hprofile hpolicy
  have hkind := kind_of_isCodec hcodec
  have hsame := answerOf_congr hcodec hprofile hpolicy
  refine ⟨_, exec_replied hs hkind, by rw [hsame]; exact exec_replied ht hkind, ?_⟩
  obtain ⟨okay, data, hanswer⟩ := answerOf_eq_checked (s := s) hcodec
  rw [hanswer]
  cases okay with
  | true => exact .inr ⟨data, rfl⟩
  | false => exact .inl rfl

/-! ### Frequency -/

/-- Settles O8: the check is `freq_ok`. -/
theorem encFreqResult : Obligations.EncFreqResult := by
  unfold Obligations.EncFreqResult
  exact fun s c freq hturn => exec_checked hturn rfl rfl decide_eq_true_iff

/-- `dec_freq` is the least frequency not below the register value (R103). -/
theorem decFreq_le_iff {r f : Nat} : decFreq p r ≤ f ↔ r * p.fXtal ≤ f * 2 ^ p.fShift := by
  obtain ⟨hge, hlt⟩ := decFreq_spec p r
  constructor
  · exact fun h => hge.trans (Nat.mul_le_mul_right _ h)
  · intro h
    have hnext : decFreq p r * 2 ^ p.fShift < (f + 1) * 2 ^ p.fShift := by
      rw [Nat.succ_mul]; omega
    exact Nat.lt_succ_iff.1 (Nat.lt_of_mul_lt_mul_right hnext)

/-- Settles O9: `decFreq_le_iff` gives both bounds. -/
theorem decFreqResult : Obligations.DecFreqResult := by
  unfold Obligations.DecFreqResult
  exact fun s c reg hturn => ⟨decFreq s.profile reg, exec_replied hturn rfl,
    decFreq_le_iff.1 le_rfl, fun _ => decFreq_le_iff.2⟩

/-- `dec_freq` and the register value of `enc_freq` are adjoint: a frequency is not below the decoded
register exactly when its own register is not below that one. -/
theorem decFreq_le_iff_le_freqReg (hpos : 0 < p.fXtal) {r f : Nat} :
    decFreq p r ≤ f ↔ r ≤ freqReg p f := by
  rw [decFreq_le_iff, freqReg, Nat.le_div_iff_mul_le hpos]

/-- A frequency lies less than one register step above its register value (R101). -/
theorem lt_freqReg_succ (hpos : 0 < p.fXtal) (f : Nat) :
    f * 2 ^ p.fShift < freqReg p f * p.fXtal + p.fXtal := by
  rw [← Nat.succ_mul, mul_comm (freqReg p f).succ]
  exact Nat.lt_mul_div_succ _ hpos

/-- With `FSTEP > 1`, rounding a register value up to a frequency does not reach the next register value
(R104). -/
theorem freqReg_decFreq (hstep : 2 ^ p.fShift < p.fXtal) (r : Nat) :
    freqReg p (decFreq p r) = r := by
  have hpos : 0 < p.fXtal := Nat.zero_lt_of_lt hstep
  refine Nat.le_antisymm ?_ ((decFreq_le_iff_le_freqReg hpos).1 le_rfl)
  have hlt := (decFreq_spec p r).2
  rw [freqReg, ← Nat.lt_succ_iff, Nat.div_lt_iff_lt_mul hpos, Nat.succ_mul]
  omega

/-- Reading an encoded frequency of the range back gives its register value (R9, R102). -/
theorem fromBe_encFreq (hfits : p.fMax * 2 ^ p.fShift / p.fXtal < 256 ^ p.frfBytes) {f : Nat}
    (hf : f ≤ p.fMax) : fromBe (encFreq p f) = freqReg p f := by
  have hle : freqReg p f ≤ p.fMax * 2 ^ p.fShift / p.fXtal :=
    Nat.div_le_div_right (Nat.mul_le_mul_right _ hf)
  rw [encFreq, fromBe_be, Nat.mod_eq_of_lt (hle.trans_lt hfits)]

/-- Settles O10, from the adjunction and `freqReg_decFreq`. -/
theorem frequencyRoundTrip : Obligations.FrequencyRoundTrip := by
  unfold Obligations.FrequencyRoundTrip
  intro p hstep hfits
  have hpos : 0 < p.fXtal := Nat.zero_lt_of_lt hstep
  refine ⟨fun f ⟨_, hf⟩ => ?_, fun r _ _ => by rw [encFreq, freqReg_decFreq hstep]⟩
  rw [fromBe_encFreq hfits hf]
  refine ⟨(decFreq_le_iff_le_freqReg hpos).2 le_rfl, ?_,
    by rw [encFreq, freqReg_decFreq hstep, encFreq]⟩
  have habove := (decFreq_spec p (freqReg p f)).1
  have hbelow := lt_freqReg_succ hpos f
  rw [Nat.sub_mul]
  omega

/-! ### Power -/

/-- The byte of `enc_power` is the power modulo `2^PA_BITS` (R105). -/
theorem encPower_toNat (hbits : p.paBits ≤ 8) (v : Int) :
    ((encPower p v).toNat : Int) = v % 2 ^ p.paBits := by
  have hmod : (0 : Int) < 2 ^ p.paBits := by positivity
  have hnonneg := Int.emod_nonneg v hmod.ne'
  have hlt := Int.emod_lt_of_pos v hmod
  have hle : (2 : Int) ^ p.paBits ≤ 2 ^ 8 := pow_le_pow_right₀ (by norm_num) hbits
  rw [encPower, BitVec.toNat_ofNat, Nat.mod_eq_of_lt (by omega), Int.toNat_of_nonneg hnonneg]

/-- Settles O11: the check is `power_ok`. -/
theorem encPowerResult : Obligations.EncPowerResult := by
  unfold Obligations.EncPowerResult
  intro s c power hturn hbits
  obtain ⟨hok, hbad⟩ := exec_checked (i := .encPower power) hturn rfl rfl decide_eq_true_iff
  exact ⟨fun h => ⟨_, hok h, encPower_toNat hbits _⟩, hbad⟩

/-! ### Modulation -/

/-- A bandwidth has a code exactly when it is a key of `BW_SET` (R109). -/
theorem bwCode_isSome_iff {bw : Nat} : (bwCode p bw).isSome = true ↔ ∃ code, (bw, code) ∈ p.bwSet := by
  simp [bwCode, List.find?_isSome]

/-- `mod_ok` as its four checks (R108). -/
theorem modOk_iff {sf bw cr : Nat} : modOk p sf bw cr = true ↔
    (p.sfMin ≤ sf ∧ sf ≤ p.sfMax) ∧ (∃ code, (bw, code) ∈ p.bwSet) ∧ cr ∈ p.crSet ∧
      (sf, bw, cr) ∉ p.comboRefused := by
  simp only [modOk, comboOk, Bool.and_eq_true, bwCode_isSome_iff, decide_eq_true_eq,
    Bool.not_eq_true', List.contains_eq_mem, decide_eq_false_iff_not, and_assoc]

/-- Under a well-formed profile a bandwidth has the code it is listed with (R109). -/
theorem bwCode_of_mem (hwf : WellFormedProfile p) {bw code : Nat} (hmem : (bw, code) ∈ p.bwSet) :
    bwCode p bw = some code := by
  rw [bwCode, find_key hwf.bwKeys_nodup hmem, Option.map_some]

/-- The two fields of `cfg1` do not overlap (R107). -/
theorem cfg1_toNat {code d : Nat} (hcode : code < 16) (hd : d < 8) :
    ((BitVec.ofNat 8 code <<< 4) ||| (BitVec.ofNat 8 d <<< 1)).toNat = 16 * code + 2 * d := by
  have hlow : d <<< 1 < 2 ^ 4 := by rw [Nat.shiftLeft_eq]; omega
  have hcode8 : (BitVec.ofNat 8 code <<< 4).toNat = code <<< 4 := by
    simp only [BitVec.toNat_shiftLeft, BitVec.toNat_ofNat, Nat.shiftLeft_eq]; omega
  have hd8 : (BitVec.ofNat 8 d <<< 1).toNat = d <<< 1 := by
    simp only [BitVec.toNat_shiftLeft, BitVec.toNat_ofNat, Nat.shiftLeft_eq]; omega
  rw [BitVec.toNat_or, hcode8, hd8, ← Nat.shiftLeft_add_eq_or_of_lt hlow, Nat.shiftLeft_eq,
    Nat.shiftLeft_eq]
  omega

/-- The spreading factor is the high half of `cfg2` (R107). -/
theorem cfg2_toNat {sf : Nat} (hsf : sf ≤ 15) : (BitVec.ofNat 8 sf <<< 4).toNat = 16 * sf := by
  simp only [BitVec.toNat_shiftLeft, BitVec.toNat_ofNat, Nat.shiftLeft_eq]; omega

/-- Settles O12: the check is `mod_ok`, and a well-formed profile bounds each field. -/
theorem encModResult : Obligations.EncModResult := by
  unfold Obligations.EncModResult
  intro s c sf bw cr hturn hwf
  obtain ⟨hok, hbad⟩ := exec_checked (i := .encMod sf bw cr) hturn rfl rfl modOk_iff
  refine ⟨fun code hsf hbw hcr hcombo => ⟨_, _, hok ⟨hsf, ⟨code, hbw⟩, hcr, hcombo⟩, ?_, ?_⟩, hbad⟩
  · rw [bwCode_of_mem hwf hbw, Option.getD_some]
    exact cfg1_toNat (hwf.bwCodes_lt _ hbw) (Nat.lt_succ_iff.2 (hwf.crSet_range _ hcr).2)
  · exact cfg2_toNat (hsf.2.trans hwf.sfMax_le)

/-! ### Preamble, sync word and signal strength -/

/-- Settles O13: the preamble is checked, the sync word is not. -/
theorem encPreambleAndSyncResults : Obligations.EncPreambleAndSyncResults := by
  unfold Obligations.EncPreambleAndSyncResults
  exact fun s c hturn => ⟨fun n => exec_checked hturn rfl rfl decide_eq_true_iff,
    fun w => exec_replied hturn rfl⟩

/-- `DEC_RSSI` responds with the two's complement of the mapped byte (R113). -/
theorem exec_decRssi (hturn : s.turn = .submission c) (raw : Byte) :
    exec (.decRssi raw) s = .next (s.replied c (0x00#8 :: beInt16 (rssiOf s.profile.rssiMap raw))) :=
  exec_replied hturn rfl

/-- Settles O14, for each form of `RSSI_MAP`. -/
theorem decRssiResult : Obligations.DecRssiResult := by
  unfold Obligations.DecRssiResult
  intro s c raw hturn
  refine ⟨fun scale offset hmap => ?_, fun values v hmap hv => ?_⟩
  · rw [exec_decRssi hturn, hmap]; rfl
  · have hvalue : rssiOf (.table values) raw = v := by
      rw [rssiOf, List.getD_eq_getElem?_getD, hv, Option.getD_some]
    rw [exec_decRssi hturn, hmap, hvalue]; rfl

/-! ### Payload -/

/-- `all_zero` (R116). -/
theorem allZero_iff {raw : Frame} : allZero raw = true ↔ raw ≠ [] ∧ ∀ b ∈ raw, b = 0x00#8 := by
  simp [allZero]

/-- Without `STRIP` the Frame is the input (R115). -/
theorem decPayload_keep {raw : Frame} {policy : Word} (h : policy.getLsbD 0 = false) :
    (decPayload raw policy).2 = raw := if_neg (ne_true_of_eq_false h)

/-- Under `STRIP` it is the stripped input (R115). -/
theorem decPayload_strip {raw : Frame} {policy : Word} (h : policy.getLsbD 0 = true) :
    (decPayload raw policy).2 = strip0 raw := if_pos h

/-- Settles O15: `strip0_spec` says what is stripped, `all_zero` decides the flags. -/
theorem decPayloadResult : Obligations.DecPayloadResult := by
  unfold Obligations.DecPayloadResult
  intro s c raw hturn
  obtain ⟨hok, hbad⟩ := exec_checked (i := .decPayload raw) hturn rfl rfl decide_eq_true_iff
  refine ⟨fun h => hbad (Nat.not_le.2 h), fun h =>
    ⟨rxFlags true (allZero raw), (decPayload raw s.ctrl.policy).2, hok h, decPayload_keep,
      fun hstrip => ?_, fun hzero => ?_, fun hdata => ?_⟩⟩
  · rw [decPayload_strip hstrip]
    exact strip0_spec raw
  · rw [allZero_iff.2 hzero]; rfl
  · rw [Bool.eq_false_iff.2 (mt allZero_iff.1 hdata)]; rfl

end Sys2Proof.Machine
end

section
/-! The configuration writes of `INIT` and its end (R118, R133, R135). -/

namespace Sys2Proof.Machine

variable {s : State} {c n : Nat} {cfg : RadioConfig} {r : Answer} {q : Seq}

/-- The frames `INIT` sends are the writes of `cfg_writes` in their order (R53, R118). -/
theorem initFrames_eq (p : Profile) (cfg : RadioConfig) :
    initFrames p cfg = (cfgWrites p cfg).map fun w => writeBytes w.1 w.2 := rfl

/-- `INIT` before write `n`, the write before it answered `ok`. -/
theorem exec_init_cfgWrite (h : Owns s c (.init cfg) (.cfgWrite n) r) (hr : n = 0 ∨ r.isOk = true) :
    exec (.init cfg) s = .next
      (initWrite cfg n { client := c, cmd := .init cfg, pos := .cfgWrite n, answer := r } s) := by
  rw [exec_owns h rfl]
  simp only [body, initBody, if_pos hr]

/-- A write of the list is sent as it stands (R135). -/
theorem initWrite_of_frame {out : Frame} (hq : s.seq = some q)
    (hout : (initFrames s.profile cfg)[n]? = some out) :
    initWrite cfg n q s = s.sent q.client q.cmd (.cfgWrite (n + 1)) out := by
  rw [initFrames_eq, List.getElem?_map, Option.map_eq_some_iff] at hout
  obtain ⟨w, hw, rfl⟩ := hout
  simp only [initWrite, hw, spiWrite_eq, transfer_goto hq]

/-- Settles O31: the list has a frame for each of the five writes, and after them the command is done. -/
theorem initWritesAndEnds : Obligations.InitWritesAndEnds := by
  unfold Obligations.InitWritesAndEnds
  intro s c cfg n r h hr
  rw [exec_init_cfgWrite h hr]
  refine ⟨fun out hout => by rw [initWrite_of_frame h.2 hout], ?_⟩
  rintro rfl
  rfl

end Sys2Proof.Machine
end

section
/-! The Transceiver commands primitive by primitive (41_transceiver.md): the checks after grant, the rule
of each position, and the transport failures (R130 to R143, R216 to R225). -/

namespace Sys2Proof.Machine

variable {s : State} {c : Nat} {cfg : RadioConfig} {data : Frame} {timeout freq : Word} {r : Answer}
  {i : Instr} {pos : Pos}

/-! ### The checks after grant -/

theorem cfgOk_eq_false (h : ¬operandsOk s.profile (.init cfg)) : cfgOk s.profile cfg = false :=
  Bool.eq_false_iff.2 fun hok => h ((cfgOk_iff _ _).1 hok)

theorem freqOk_iff (p : Profile) (freq : Word) :
    freqOk p freq.toNat = true ↔ operandsOk p (.setFreq freq) := decide_eq_true_iff

theorem freqOk_eq_false (h : ¬operandsOk s.profile (.setFreq freq)) :
    freqOk s.profile freq.toNat = false :=
  Bool.eq_false_iff.2 fun hok => h ((freqOk_iff _ _).1 hok)

/-- A command granted in a state that is not legal for it responds `03` and does nothing else (R219). -/
theorem exec_badState (h : Owns s c i .start r) (hk : i.kind = .arbitrated)
    (hstate : ¬legalAtGrant i s) : exec i s = .next (s.ended c [0x03#8]) := by
  rw [exec_owns h hk, ← badState_eq]
  cases i with
  | init cfg =>
    have hbusy : s.tstate = .transmitting ∨ s.tstate = .receiving :=
      of_not_not fun hquiet => hstate (not_or.1 hquiet)
    simp only [body, initBody, initStart, if_pos hbusy]
  | detect =>
    have hrefused : s.stopped = true ∨ ¬(s.tstate = .uninitialized ∨ s.tstate = .idle) := by
      rw [← Bool.not_eq_false]
      exact not_and_or.1 hstate
    simp only [body, detectBody, if_pos hrefused]
  | transmit data =>
    have hbusy : s.tstate ≠ .idle := hstate
    simp only [body, transmitBody, if_pos hbusy]
  | receive timeout =>
    have hbusy : s.tstate ≠ .idle := hstate
    simp only [body, receiveBody, if_pos hbusy]
  | setFreq freq =>
    have hbusy : s.tstate ≠ .idle := hstate
    simp only [body, setFreqBody, if_pos hbusy]
  | readRssi =>
    have hbusy : s.tstate ≠ .idle := hstate
    simp only [body, readRssiBody, if_pos hbusy]
  | stop | writeCtrl => exact absurd trivial hstate
  | _ => cases hk

/-- A command granted in a legal state with an operand out of range responds `02` and does nothing else
(R217). -/
theorem exec_badParameter (h : Owns s c i .start r) (hk : i.kind = .arbitrated)
    (hstate : legalAtGrant i s) (hoperands : ¬operandsOk s.profile i) :
    exec i s = .next (s.ended c [0x02#8]) := by
  cases i with
  | init cfg =>
    have hquiet : ¬(s.tstate = .transmitting ∨ s.tstate = .receiving) := not_or.2 hstate
    rw [exec_owns h rfl, ← badParameter_eq]
    simp only [body, initBody, initStart, if_neg hquiet, if_pos (cfgOk_eq_false hoperands)]
  | transmit data =>
    have hidle : ¬s.tstate ≠ .idle := not_not.2 hstate
    have hlong : s.profile.fifoDepth < data.length := Nat.lt_of_not_le hoperands
    rw [exec_owns h rfl, ← badParameter_eq]
    simp only [body, transmitBody, if_neg hidle, if_pos hlong]
  | setFreq freq =>
    have hidle : ¬s.tstate ≠ .idle := not_not.2 hstate
    rw [exec_owns h rfl, ← badParameter_eq]
    simp only [body, setFreqBody, if_neg hidle, if_pos (freqOk_eq_false hoperands)]
  | writeCtrl idx value =>
    refine exec_writeCtrl_none h (ctrlWrite_none s.ctrl ?_)
    simp only [operandsOk, not_and_or, Classical.not_imp, not_not, Nat.not_le] at hoperands
    exact hoperands
  | detect | receive | readRssi | stop => exact absurd trivial hoperands
  | _ => cases hk

/-- Settles O28: the two refusals are the two checks of each command, in their order. -/
theorem checksComeFirst : Obligations.ChecksComeFirst := by
  unfold Obligations.ChecksComeFirst
  exact fun s c i r h hk => ⟨exec_badState h hk, exec_badParameter h hk⟩

/-! ### INIT -/

/-- Past its checks `INIT` clears `stopped` and `cfg_valid`, and opens the transport or begins the pulse
(R133). -/
theorem exec_init_start (h : Owns s c (.init cfg) .start r) (hstate : legalAtGrant (.init cfg) s)
    (hoperands : operandsOk s.profile (.init cfg)) :
    exec (.init cfg) s = .next (
      if s.busOpen then { s with stopped := false, cfgValid := false }.beginReset
      else { s with stopped := false, cfgValid := false }.openTransport.goto .opened) := by
  have hquiet : ¬(s.tstate = .transmitting ∨ s.tstate = .receiving) := not_or.2 hstate
  have hok : cfgOk s.profile cfg = true := (cfgOk_iff _ _).2 hoperands
  rw [exec_owns h rfl]
  simp only [body, initBody, initStart, if_neg hquiet, hok, Bool.true_eq_false, if_false]

/-- Settles O29: the cases are the transport open or not, and the pin an output or not. -/
theorem initBegins : Obligations.InitBegins := by
  unfold Obligations.InitBegins
  intro s c cfg r h hstate hoperands
  rw [exec_init_start h hstate hoperands]
  refine ⟨fun hclosed => ?_, fun hopen hpin => ?_, fun hopen hpin => ?_⟩
  · rw [if_neg (by simp [hclosed]),
      openTransport_goto (s := { s with stopped := false, cfgValid := false }) h.2]
    rfl
  · rw [if_pos hopen,
      beginReset_unconfigured (s := { s with stopped := false, cfgValid := false }) h.2 hpin]
  · rw [if_pos hopen,
      beginReset_output (s := { s with stopped := false, cfgValid := false }) h.2 hpin]

theorem exec_init_opened (h : Owns s c (.init cfg) .opened r) (hr : r.isOk = true) :
    exec (.init cfg) s =
      .next ({ s with busOpen := s.busOpen || (s.nextAnswer 0).isOk }.called c (.init cfg) .clocked
        (s.nextAnswer 0) (.setClock s.profile.spiHz (s.nextAnswer 0).isOk)) := by
  rw [exec_owns h rfl]
  simp only [body, initBody, if_pos hr, setClock_goto h.2]

theorem exec_init_clocked (h : Owns s c (.init cfg) .clocked r) (hr : r.isOk = true) :
    exec (.init cfg) s = .next s.beginReset := by
  rw [exec_owns h rfl]
  simp only [body, initBody, if_pos hr]

theorem exec_init_pinLow (h : Owns s c (.init cfg) .pinLow r) :
    exec (.init cfg) s =
      .next ({ s with pinLevel := .low }.performed c (.init cfg) .holdLow r (.pinWrite false)) := by
  rw [exec_owns h rfl]
  simp only [body, initBody, pinWrite_goto h.2]
  rfl

theorem exec_init_holdLow (h : Owns s c (.init cfg) .holdLow r) :
    exec (.init cfg) s =
      .next (s.performed c (.init cfg) .pinHigh r (.wait .rstLow s.ctrl.tRstLow)) := by
  rw [exec_owns h rfl]
  simp only [body, initBody, wait_goto h.2]

theorem exec_init_pinHigh (h : Owns s c (.init cfg) .pinHigh r) :
    exec (.init cfg) s =
      .next ({ s with pinLevel := .high }.performed c (.init cfg) .holdHigh r (.pinWrite true)) := by
  rw [exec_owns h rfl]
  simp only [body, initBody, pinWrite_goto h.2]
  rfl

theorem exec_init_holdHigh (h : Owns s c (.init cfg) .holdHigh r) :
    exec (.init cfg) s =
      .next (s.performed c (.init cfg) (.cfgWrite 0) r (.wait .rstHigh s.ctrl.tRstHigh)) := by
  rw [exec_owns h rfl]
  simp only [body, initBody, wait_goto h.2]

/-- Settles O30, position by position. -/
theorem initResetPulse : Obligations.InitResetPulse := by
  unfold Obligations.InitResetPulse
  refine fun s c cfg r => ⟨exec_init_opened, fun h hr hpin => ?_, ?_, exec_init_holdLow,
    exec_init_pinHigh, exec_init_holdHigh⟩
  · rw [exec_init_clocked h hr, beginReset_unconfigured h.2 hpin]
  · rintro (⟨h, hr, hpin⟩ | h)
    · rw [exec_init_clocked h hr, beginReset_output h.2 hpin]
    · exact exec_init_pinLow h

/-! ### DETECT -/

theorem detectRead_eq {q : Seq} (hq : s.seq = some q) :
    detectRead s = s.sent q.client q.cmd .version (readBytes s.profile s.profile.regVersion 1) := by
  simp only [detectRead, spiRead_eq, transfer_goto hq]

/-- Past its check `DETECT` opens the transport or reads the version at once (R131, R137). -/
theorem exec_detect_start (h : Owns s c .detect .start r) (hstate : legalAtGrant .detect s) :
    exec .detect s =
      .next (if s.busOpen then detectRead s else s.openTransport.goto .opened) := by
  obtain ⟨hrunning, hquiet⟩ := hstate
  have hlegal : ¬(s.stopped = true ∨ ¬(s.tstate = .uninitialized ∨ s.tstate = .idle)) := by
    simp [hrunning, hquiet]
  rw [exec_owns h rfl]
  simp only [body, detectBody, if_neg hlegal]

/-- Settles O34: the two ways to the read are the open transport and the clock just set. -/
theorem detectReads : Obligations.DetectReads := by
  unfold Obligations.DetectReads
  refine fun s c r => ⟨?_, fun h hstate hclosed => ?_, fun h hr => ?_⟩
  · rintro (⟨h, hstate, hopen⟩ | ⟨h, hr⟩)
    · rw [exec_detect_start h hstate, if_pos hopen, detectRead_eq h.2]
      rfl
    · rw [exec_owns h rfl]
      simp only [body, detectBody, if_pos hr, detectRead_eq h.2]
      rfl
  · rw [exec_detect_start h hstate, if_neg (by simp [hclosed]), openTransport_goto h.2]
  · rw [exec_owns h rfl]
    simp only [body, detectBody, if_pos hr, setClock_goto h.2]

/-- Settles O35: the model's judgement is the two conditions on the version byte. -/
theorem detectJudges : Obligations.DetectJudges := by
  unfold Obligations.DetectJudges
  intro s c x v h
  have hjudge : exec .detect s = .next (detectJudge v
      { client := c, cmd := .detect, pos := .version, answer := .ok [x, v] } s) := exec_owns h rfl
  rw [hjudge]
  simp only [← expectedId_iff, Bool.not_eq_true]
  constructor
  · intro hv hexpected
    have hkept : ¬(v = 0x00#8 ∨ expectedId s.profile v = false) := by simp [hv, hexpected]
    rw [detectJudge, if_neg hkept]
    rfl
  · intro hunexpected
    rw [detectJudge, if_pos hunexpected]
    rfl

/-! ### TRANSMIT -/

theorem exec_transmit_start (h : Owns s c (.transmit data) .start r) (hidle : s.tstate = .idle)
    (hfits : data.length ≤ s.profile.fifoDepth) :
    exec (.transmit data) s = .next ({ s with tstate := .transmitting }.sent c (.transmit data) .txMode
      (writeBytes s.profile.regFifo data)) := by
  rw [exec_owns h rfl]
  simp only [body, transmitBody, ne_eq, if_neg (not_not.2 hidle), if_neg (Nat.not_lt.2 hfits),
    spiWrite_eq, transfer_goto (s := { s with tstate := .transmitting }) h.2]

theorem exec_transmit_txMode (h : Owns s c (.transmit data) .txMode r) (hr : r.isOk = true) :
    exec (.transmit data) s = .next (s.sent c (.transmit data) .txSettle
      (writeBytes s.profile.regOpmode [s.profile.opmodeTx])) := by
  rw [exec_owns h rfl]
  simp only [body, transmitBody, if_pos hr, spiWrite_eq, transfer_goto h.2]

theorem exec_transmit_txSettle (h : Owns s c (.transmit data) .txSettle r) (hr : r.isOk = true) :
    exec (.transmit data) s =
      .next (s.performed c (.transmit data) .txDone r (.wait .settle s.ctrl.tSettle)) := by
  rw [exec_owns h rfl]
  simp only [body, transmitBody, if_pos hr, wait_goto h.2]

theorem exec_transmit_txDone (h : Owns s c (.transmit data) .txDone r) :
    exec (.transmit data) s = .next ({ s with tstate := .idle }.ended c [0x00#8]) := exec_owns h rfl

/-- Settles O36, position by position. -/
theorem transmitPrimitives : Obligations.TransmitPrimitives := by
  unfold Obligations.TransmitPrimitives
  exact fun s c data r => ⟨exec_transmit_start, exec_transmit_txMode, exec_transmit_txSettle,
    exec_transmit_txDone⟩

/-! ### RECEIVE -/

/-- The bytes of a FIFO read: the address, then a dummy byte for each place of the FIFO (R54, R139). -/
def fifoReadBytes (p : Profile) : Frame := readBytes p p.regFifo p.fifoDepth

theorem fifoReadBytes_eq (p : Profile) : fifoReadBytes p =
    (BitVec.ofNat 8 p.regFifo &&& 0x7F#8) :: List.replicate p.fifoDepth p.dummy := rfl

theorem receiveRead_eq {q : Seq} (hq : s.seq = some q) :
    receiveRead s = s.sent q.client q.cmd .rxJudge (fifoReadBytes s.profile) := by
  simp only [receiveRead, spiRead_eq, transfer_goto hq, fifoReadBytes]

theorem exec_receive_entry (h : Owns s c (.receive timeout) .start r) (hidle : s.tstate = .idle)
    (hentry : s.profile.rxEntry = true) :
    exec (.receive timeout) s = .next ({ s with tstate := .receiving }.sent c (.receive timeout)
      .rxEnter (writeBytes s.profile.regOpmode [s.profile.opmodeRx])) := by
  rw [exec_owns h rfl]
  simp only [body, receiveBody, ne_eq, if_neg (not_not.2 hidle), if_pos hentry, spiWrite_eq,
    transfer_goto (s := { s with tstate := .receiving }) h.2]

theorem exec_receive_noEntry (h : Owns s c (.receive timeout) .start r) (hidle : s.tstate = .idle)
    (hentry : s.profile.rxEntry = false) :
    exec (.receive timeout) s = .next ({ s with tstate := .receiving, k := 0 }.sent c
      (.receive timeout) .rxJudge (fifoReadBytes s.profile)) := by
  have hnone : ¬s.profile.rxEntry = true := by simp [hentry]
  rw [exec_owns h rfl]
  simp only [body, receiveBody, ne_eq, if_neg (not_not.2 hidle), if_neg hnone,
    receiveRead_eq (s := { s with tstate := .receiving, k := 0 }) h.2]

theorem exec_receive_rxEnter (h : Owns s c (.receive timeout) .rxEnter r) (hr : r.isOk = true) :
    exec (.receive timeout) s = .next ({ s with k := 0 }.sent c (.receive timeout) .rxJudge
      (fifoReadBytes s.profile)) := by
  rw [exec_owns h rfl]
  simp only [body, receiveBody, if_pos hr, receiveRead_eq (s := { s with k := 0 }) h.2]

theorem exec_receive_rxPoll (h : Owns s c (.receive timeout) .rxPoll r) :
    exec (.receive timeout) s =
      .next (s.sent c (.receive timeout) .rxJudge (fifoReadBytes s.profile)) := by
  rw [exec_owns h rfl]
  simp only [body, receiveBody, receiveRead_eq h.2]

/-- Settles O38, position by position. -/
theorem receiveBegins : Obligations.ReceiveBegins := by
  unfold Obligations.ReceiveBegins
  exact fun s c timeout r => ⟨exec_receive_entry, exec_receive_noEntry, exec_receive_rxEnter,
    exec_receive_rxPoll⟩

/-- The response to a `RECEIVE` whose last read was data (R86, R115, R139). -/
theorem exec_receive_data (h : Owns s c (.receive timeout) .rxJudge r) (hr : r.isOk = true)
    (hdata : isData r.data s.ctrl.policy = true) :
    exec (.receive timeout) s = .next ({ s with k := s.k + 1, tstate := .idle }.ended c
      (0x00#8 :: payloadData (decPayload r.data s.ctrl.policy))) := by
  rw [exec_owns h rfl]
  simp only [body, receiveBody, if_pos hr, receiveJudge, if_pos hdata, finish_eq, Status.code]

theorem exec_receive_cancelled (h : Owns s c (.receive timeout) .rxJudge r) (hr : r.isOk = true)
    (hdata : isData r.data s.ctrl.policy = false) (hstop : s.stopReq = true) :
    exec (.receive timeout) s =
      .next ({ s with k := s.k + 1, tstate := .idle }.ended c [0x05#8]) := by
  have hempty : ¬isData r.data s.ctrl.policy = true := by simp [hdata]
  rw [exec_owns h rfl]
  simp only [body, receiveBody, if_pos hr, receiveJudge, if_neg hempty, if_pos hstop, finish_eq,
    Status.code]

/-- What follows an empty read with no stop: the end at the timeout, the poll wait before it (R139). -/
theorem exec_receive_empty (h : Owns s c (.receive timeout) .rxJudge r) (hr : r.isOk = true)
    (hdata : isData r.data s.ctrl.policy = false) (hstop : s.stopReq = false) :
    exec (.receive timeout) s = .next (
      if timeout ≠ s.profile.inf ∧ timeout.toNat ≤ (s.k + 1) * s.ctrl.tPoll.toNat then
        { s with k := s.k + 1, tstate := .idle }.ended c [0x00#8, 0x00#8, 0x00#8]
      else { s with k := s.k + 1 }.performed c (.receive timeout) .rxPoll r
        (.wait .poll s.ctrl.tPoll)) := by
  have hempty : ¬isData r.data s.ctrl.policy = true := by simp [hdata]
  have hrunning : ¬s.stopReq = true := by simp [hstop]
  rw [exec_owns h rfl]
  simp only [body, receiveBody, if_pos hr, receiveJudge, if_neg hempty, if_neg hrunning, finish_eq,
    Status.code, wait_goto (s := { s with k := s.k + 1 }) h.2]

/-- An all-zero read is data only under `ZERO_AS_DATA` (R116). -/
theorem isData_of_zeros {raw : Frame} {policy : Word} (hzeros : ∀ b ∈ raw, b = 0x00#8)
    (hpolicy : policy.getLsbD 1 = false) : isData raw policy = false := by
  rw [Bool.eq_false_iff, ne_eq, isData_iff]
  rintro (⟨b, hb, hne⟩ | hset)
  · exact hne (hzeros b hb)
  · rw [hpolicy] at hset
    cases hset

/-- Settles O39: the order is that of the four rules of a judgement. -/
theorem receiveJudges : Obligations.ReceiveJudges := by
  unfold Obligations.ReceiveJudges
  refine fun s c timeout x raw h => ⟨fun hdata => ?_, fun hzeros hpolicy => ?_⟩
  · exact exec_receive_data h rfl ((isData_iff _ _).2 hdata)
  · have hempty : isData raw s.ctrl.policy = false := isData_of_zeros hzeros hpolicy
    refine ⟨exec_receive_cancelled h rfl hempty, fun hstop => ?_⟩
    rw [exec_receive_empty h rfl hempty hstop]
    exact ⟨fun htimeout => by rw [if_pos htimeout], fun htimeout => by rw [if_neg htimeout]⟩

/-! ### SET_FREQ and READ_RSSI -/

/-- Settles O42, position by position. -/
theorem setFreqResult : Obligations.SetFreqResult := by
  unfold Obligations.SetFreqResult
  refine fun s c freq r => ⟨fun h hidle hrange => ?_, fun h hr => ?_⟩
  · have hok : freqOk s.profile freq.toNat = true := (freqOk_iff _ _).2 hrange
    rw [exec_owns h rfl]
    simp only [body, setFreqBody, ne_eq, if_neg (not_not.2 hidle), hok, Bool.true_eq_false, if_false,
      spiWrite_eq, transfer_goto h.2]
    rfl
  · rw [exec_owns h rfl]
    simp only [body, setFreqBody, if_pos hr, finish_eq, Status.code]

/-- Settles O43, position by position. -/
theorem readRssiResult : Obligations.ReadRssiResult := by
  unfold Obligations.ReadRssiResult
  refine fun s c r => ⟨fun h hidle => ?_, ?_⟩
  · rw [exec_owns h rfl]
    simp only [body, readRssiBody, ne_eq, if_neg (not_not.2 hidle), spiRead_eq, transfer_goto h.2]
    rfl
  · rintro x raw rfl h
    exact exec_owns h rfl

/-! ### Transport failures -/

/-- `bus_fail()` is the end of every command but `DETECT`, which clears `dev_valid` besides (R137, R216). -/
theorem busFail_eq_failed (hi : i ≠ .detect) : s.busFail c = (s.failed i).ended c [0x01#8] := by
  simp [busFail_eq, State.failed, hi]

theorem detectFail_eq (s : State) (q : Seq) :
    detectFail q s = (s.failed .detect).ended q.client [0x01#8] := by
  simp [detectFail, busFail_eq, State.failed]

/-- Every position that reads the answer of a transport call takes `fail` to the end in `Error` (R132). -/
theorem exec_of_fail (h : Owns s c i pos .fail) (hreads : readsAnswer i pos) :
    exec i s = .next ((s.failed i).ended c [0x01#8]) := by
  have hfail : ¬Answer.fail.isOk = true := Bool.false_ne_true
  cases i with
  | init cfg =>
    rw [exec_owns h rfl, ← busFail_eq_failed Instr.noConfusion]
    rcases hreads with rfl | ⟨n, rfl⟩
    · simp only [body, initBody, if_neg hfail]
    · simp only [body, initBody, if_neg (not_or.2 ⟨Nat.succ_ne_zero n, hfail⟩)]
  | detect =>
    rw [exec_owns h rfl]
    rcases hreads with rfl | rfl <;> simp only [body, detectBody, if_neg hfail, detectFail_eq]
  | transmit data =>
    rw [exec_owns h rfl, ← busFail_eq_failed Instr.noConfusion]
    rcases hreads with rfl | rfl <;> simp only [body, transmitBody, if_neg hfail]
  | receive timeout =>
    rw [exec_owns h rfl, ← busFail_eq_failed Instr.noConfusion]
    rcases hreads with rfl | rfl <;> simp only [body, receiveBody, if_neg hfail]
  | setFreq freq =>
    rw [exec_owns h rfl, ← busFail_eq_failed Instr.noConfusion]
    cases hreads
    simp only [body, setFreqBody, if_neg hfail]
  | readRssi =>
    rw [exec_owns h rfl, ← busFail_eq_failed Instr.noConfusion]
    cases hreads
    simp only [body, readRssiBody, if_neg hfail]
  | _ => cases hreads

/-- A failed clock set closes the handle before it ends the command (R131). -/
theorem exec_clocked_fail (h : Owns s c i .clocked .fail) (hi : opensTransport i) :
    exec i s = .next ({ s with busOpen := false }.performed c i .released .fail .close) := by
  have hfail : ¬Answer.fail.isOk = true := Bool.false_ne_true
  rcases hi with ⟨cfg, rfl⟩ | rfl <;> rw [exec_owns h rfl]
  · simp only [body, initBody, if_neg hfail, closeTransport_goto h.2]
  · simp only [body, detectBody, if_neg hfail, closeTransport_goto h.2]

theorem exec_released (h : Owns s c i .released r) (hi : opensTransport i) :
    exec i s = .next ((s.failed i).ended c [0x01#8]) := by
  rcases hi with ⟨cfg, rfl⟩ | rfl <;> rw [exec_owns h rfl]
  · rw [← busFail_eq_failed Instr.noConfusion]
    rfl
  · simp only [body, detectBody, detectFail_eq]

/-- Settles O44, from the three rules of a failure. -/
theorem transportFailure : Obligations.TransportFailure := by
  unfold Obligations.TransportFailure
  refine fun s c i pos r h => ⟨?_, fun hi => ⟨?_, ?_⟩⟩
  · rintro hreads rfl
    exact exec_of_fail h hreads
  · rintro rfl rfl
    exact exec_clocked_fail h hi
  · rintro rfl
    exact exec_released h hi

end Sys2Proof.Machine
end

section
/-! Whole runs of the owner alone, assembled from the rules of the positions: `TRANSMIT`, and `INIT` with
a transport that answers `ok` and with one that answers freely (R131 to R138, R216). -/

namespace Sys2Proof.Machine

variable {s t u v : State} {c n : Nat} {cfg : RadioConfig} {data out b : Frame} {r : Answer} {i : Instr}
  {pos pos' : Pos} {rest : List Answer} {outs ins : List Frame} {e : Event}

/-! ### Runs of the owner -/

/-- The owner alone takes `s` to `t` in some number of steps. -/
def RunsTo (s t : State) : Prop := ∃ n, ownerRun n s = .next t

theorem RunsTo.of_eq (h : s = t) : RunsTo s t := ⟨0, by rw [ownerRun, h]⟩

/-- One more step before a run. -/
theorem RunsTo.step (h : Owns s c i pos r) (he : exec i s = .next t) (hrun : RunsTo t u) : RunsTo s u :=
  hrun.imp' (· + 1) fun _ ho => ownerRun_cons h he ho

theorem ownerRun_add {m : Nat} (hst : ownerRun m s = .next t) (n : Nat) :
    ownerRun (m + n) s = ownerRun n t := by
  induction m generalizing s with
  | zero => cases hst; rw [Nat.zero_add]
  | succ m ih =>
    rw [ownerRun] at hst
    rw [Nat.succ_add]
    cases hstep : ownerStep s with
    | next v => rw [hstep] at hst; rw [ownerRun_succ hstep, ih hst]
    | fault f => rw [hstep] at hst; cases hst
    | refused f => rw [hstep] at hst; cases hst

theorem RunsTo.trans (hst : RunsTo s t) (htu : RunsTo t u) : RunsTo s u := by
  obtain ⟨m, hm⟩ := hst
  obtain ⟨n, hn⟩ := htu
  exact ⟨m + n, by rw [ownerRun_add hm, hn]⟩

/-- The step that ends a command, the last of its run. -/
theorem RunsTo.last (h : Owns s c i pos r) (he : exec i s = .next t) (htu : t = u) : RunsTo s u :=
  .step h he (.of_eq htu)

/-- A step that records an event, then the run of the command from its next position. -/
theorem RunsTo.perform (h : Owns s c i pos r) (he : exec i s = .next (u.performed c i pos' r e))
    (hrun : Owns (u.performed c i pos' r e) c i pos' r → RunsTo (u.performed c i pos' r e) t)
    (hturn : u.turn = s.turn := by rfl) : RunsTo s t :=
  .step h he (hrun (owns_performed (hturn.trans h.1) e))

/-- A call of the transport, then the run of the command with its answer. -/
theorem RunsTo.call {r' : Answer} (h : Owns s c i pos r)
    (he : exec i s = .next (u.called c i pos' r' e))
    (hrun : Owns (u.called c i pos' r' e) c i pos' r' → RunsTo (u.called c i pos' r' e) t)
    (hturn : u.turn = s.turn := by rfl) : RunsTo s t :=
  .step h he (hrun (owns_called (hturn.trans h.1) e))

/-- A transaction with a scripted answer of the right length is answered with it (R52, log entry 4). -/
theorem sent_of_script (hans : s.answers = .ok b :: rest) (hlen : b.length = out.length) :
    s.sent c i pos out = s.called c i pos (.ok b) (.xfer out (.ok b)) := by
  rw [State.sent, nextAnswer_ok hans hlen]

/-- A call without bytes is answered with a scripted `ok` (R69). -/
theorem nextAnswer_ok_zero (hans : s.answers = .ok [] :: rest) : s.nextAnswer 0 = .ok [] :=
  nextAnswer_ok hans List.length_nil

/-- A transaction that the script answers `ok`, then the run of the command with this answer. -/
theorem RunsTo.send (h : Owns s c i pos r) (he : exec i s = .next (u.sent c i pos' out))
    (hans : u.answers = .ok b :: rest) (hlen : b.length = out.length)
    (hrun : Owns (u.called c i pos' (.ok b) (.xfer out (.ok b))) c i pos' (.ok b) →
      RunsTo (u.called c i pos' (.ok b) (.xfer out (.ok b))) t)
    (hturn : u.turn = s.turn := by rfl) : RunsTo s t :=
  .call h (by rw [he, sent_of_script hans hlen]) hrun hturn

/-- Settles O37: two writes, the settle wait and the end. -/
theorem transmitRun : Obligations.TransmitRun := by
  unfold Obligations.TransmitRun
  intro s c data r b1 b2 rest h hidle hfits hlen1 hlen2 hans
  have hans2 : s.answers.tail = .ok b2 :: rest := by rw [hans]; rfl
  refine RunsTo.send h (exec_transmit_start h hidle hfits) hans hlen1 fun h1 => ?_
  refine .send h1 (exec_transmit_txMode h1 rfl) hans2 hlen2 fun h2 => ?_
  refine .perform h2 (exec_transmit_txSettle h2 rfl) fun h3 => ?_
  refine .last h3 (exec_transmit_txDone h3) ?_
  simp [State.ended, State.performed, State.called, hans, hidle, writeBytes]

/-! ### A successful INIT -/

/-- `s` once `INIT` has opened the transport, if need be, with answers `ok`; `pos` is where the reset
pulse finds it. -/
def State.initOpened (s : State) (c : Nat) (cfg : RadioConfig) (pos : Pos) (r : Answer)
    (rest : List Answer) : State :=
  { s with
    stopped := false, cfgValid := false, busOpen := true, answers := rest
    draws := s.draws + (openEvents s).length, hist := s.hist ++ openEvents s
    seq := some { client := c, cmd := .init cfg, pos := pos, answer := r } }

/-- `s` after the reset pulse of `INIT` (R134). -/
def State.pulsed (s : State) (c : Nat) (cfg : RadioConfig) (r : Answer) : State :=
  { s with
    pinMode := .output, pinLevel := .high, hist := s.hist ++ pulseEvents s
    seq := some { client := c, cmd := .init cfg, pos := .cfgWrite 0, answer := r } }

/-- A clock set that the script answers `ok` opens the transport (R131). -/
theorem exec_init_opened_of_script (h : Owns s c (.init cfg) .opened r) (hr : r.isOk = true)
    (hans : s.answers = .ok [] :: rest) :
    exec (.init cfg) s = .next ({ s with busOpen := true }.called c (.init cfg) .clocked (.ok [])
      (.setClock s.profile.spiHz true)) := by
  rw [exec_init_opened h hr, nextAnswer_ok_zero hans]
  simp [Answer.isOk]

/-- From its grant to the reset pulse, the opening answered `ok` (R131). -/
theorem init_opening_run (h : Owns s c (.init cfg) .start r) (hstate : legalAtGrant (.init cfg) s)
    (hoperands : operandsOk s.profile (.init cfg))
    (hans : s.answers = (if s.busOpen then [] else [.ok [], .ok []]) ++ rest) :
    ∃ pos r', RunsTo s (s.initOpened c cfg pos r' rest).beginReset := by
  cases hopen : s.busOpen with
  | true =>
    have hrest : s.answers = rest := by rw [hans, hopen]; rfl
    refine ⟨.start, r, .last h (exec_init_start h hstate hoperands) ?_⟩
    rw [if_pos hopen]
    simp [State.initOpened, openEvents, hopen, hrest, h.2]
  | false =>
    have hscript : s.answers = .ok [] :: .ok [] :: rest := by rw [hans, hopen]; rfl
    have hclock : s.answers.tail = .ok [] :: rest := by rw [hscript]; rfl
    have hstart := (initBegins s c cfg r h hstate hoperands).1 hopen
    rw [nextAnswer_ok_zero hscript] at hstart
    refine ⟨.clocked, .ok [], .call h hstart fun h1 => ?_⟩
    refine .call h1 (exec_init_opened_of_script h1 rfl hclock) fun h2 => ?_
    refine .last h2 (exec_init_clocked h2 rfl) ?_
    simp [State.initOpened, State.called, openEvents, hopen, hscript, Answer.isOk]

/-- The reset pulse from its low level on (R134). -/
theorem init_hold_run (h : Owns s c (.init cfg) .holdLow r) :
    RunsTo s { s with
      pinLevel := .high
      hist := s.hist ++ [.wait .rstLow s.ctrl.tRstLow, .pinWrite true, .wait .rstHigh s.ctrl.tRstHigh]
      seq := some { client := c, cmd := .init cfg, pos := .cfgWrite 0, answer := r } } := by
  refine .perform h (exec_init_holdLow h) fun h1 => ?_
  refine .perform h1 (exec_init_pinHigh h1) fun h2 => .last h2 (exec_init_holdHigh h2) ?_
  simp [State.performed]

/-- The whole reset pulse, `PinMode` first for an unconfigured pin (R134). -/
theorem init_pulse_run (h : Owns s c (.init cfg) pos r) : RunsTo s.beginReset (s.pulsed c cfg r) := by
  cases hpin : s.pinMode with
  | unconfigured =>
    rw [beginReset_unconfigured h.2 hpin]
    have h1 := owns_performed (s := { s with pinMode := .output }) (c := c) (i := .init cfg)
      (pos := .pinLow) (r := r) h.1 .pinMode
    refine .perform h1 (exec_init_pinLow h1) fun h2 => (init_hold_run h2).trans (.of_eq ?_)
    simp [State.performed, State.pulsed, pulseEvents, hpin]
  | output =>
    rw [beginReset_output h.2 hpin]
    refine (init_hold_run (owns_performed (s := { s with pinLevel := .low }) h.1 _)).trans (.of_eq ?_)
    simp [State.performed, State.pulsed, pulseEvents, hpin]

/-- After the last write `INIT` latches the configuration (R133). -/
theorem exec_init_written (h : Owns s c (.init cfg) (.cfgWrite n) r) (hr : n = 0 ∨ r.isOk = true)
    (houts : (initFrames s.profile cfg).drop n = []) :
    exec (.init cfg) s =
      .next ({ s with cfg := cfg, cfgValid := true, tstate := .idle }.ended c [0x00#8]) := by
  rw [initFrames_eq, List.drop_eq_nil_iff, List.length_map] at houts
  have hnone : (cfgWrites s.profile cfg)[n]? = none := List.getElem?_eq_none houts
  rw [exec_init_cfgWrite h hr]
  simp only [initWrite, hnone]
  rfl

/-- Before the last write `INIT` sends the next frame of its list (R135). -/
theorem exec_init_write (h : Owns s c (.init cfg) (.cfgWrite n) r) (hr : n = 0 ∨ r.isOk = true)
    (houts : (initFrames s.profile cfg).drop n = out :: outs) :
    exec (.init cfg) s = .next (s.sent c (.init cfg) (.cfgWrite (n + 1)) out) ∧
      (initFrames s.profile cfg).drop (n + 1) = outs := by
  constructor
  · rw [exec_init_cfgWrite h hr, initWrite_of_frame h.2]
    rw [← List.head?_drop, houts, List.head?_cons]
  · rw [← List.tail_drop, houts, List.tail_cons]

/-- The configuration writes from the `n`-th on, each answered `ok`, and the end (R133, R135). -/
theorem init_writes_run (h : Owns s c (.init cfg) (.cfgWrite n) r) (hr : n = 0 ∨ r.isOk = true)
    (houts : (initFrames s.profile cfg).drop n = outs)
    (hlens : ins.map List.length = outs.map List.length) (hans : s.answers = ins.map .ok ++ rest) :
    RunsTo s ({ s with
      cfg := cfg, cfgValid := true, tstate := .idle, answers := rest, draws := s.draws + outs.length
      hist := s.hist ++ xferEvents outs ins }.ended c [0x00#8]) := by
  induction outs generalizing s n r ins with
  | nil =>
    have hins : ins = [] := List.map_eq_nil_iff.1 hlens
    subst hins
    refine .last h (exec_init_written h hr houts) ?_
    simp [State.ended, xferEvents, hans]
  | cons out outs ih =>
    obtain ⟨hsend, hlater⟩ := exec_init_write h hr houts
    cases ins with
    | nil => cases hlens
    | cons b ins =>
      obtain ⟨hlen, hlens⟩ := List.cons_eq_cons.1 hlens
      have hscript : s.answers = .ok b :: (ins.map .ok ++ rest) := hans
      refine .send h hsend hscript hlen fun h1 => ?_
      refine (ih h1 (.inr rfl) hlater hlens (by simp [State.called, hscript])).trans (.of_eq ?_)
      simp [State.ended, State.called, xferEvents, Nat.add_assoc, Nat.add_comm 1]

/-- Settles O32: the opening, the reset pulse and the writes, one run after the other. -/
theorem initRun : Obligations.InitRun := by
  unfold Obligations.InitRun
  intro s c cfg r opens rest ins h hstate hoperands hopens hlens hans
  subst hopens
  rw [List.append_assoc] at hans
  obtain ⟨pos, r', hopening⟩ := init_opening_run h hstate hoperands hans
  have hpulse := init_pulse_run (s := s.initOpened c cfg pos r' (ins.map .ok ++ rest)) ⟨h.1, rfl⟩
  have hwrites := init_writes_run (n := 0)
    (s := (s.initOpened c cfg pos r' (ins.map .ok ++ rest)).pulsed c cfg r') ⟨h.1, rfl⟩ (.inl rfl)
    rfl hlens rfl
  refine (hopening.trans hpulse).trans (hwrites.trans (.of_eq ?_))
  cases hopen : s.busOpen <;>
    simp [State.ended, State.pulsed, State.initOpened, openEvents, pulseEvents, initFrames, hopen]

/-! ### An INIT whatever the transport answers -/

/-- A step of `INIT` before its end records events and keeps what only its end writes. -/
structure InitKeeps (s t : State) : Prop where
  stopped : t.stopped = s.stopped
  deviceId : t.deviceId = s.deviceId
  devValid : t.devValid = s.devValid
  cfg : t.cfg = s.cfg
  cfgValid : t.cfgValid = s.cfgValid
  hist : ∃ ev, t.hist = s.hist ++ ev

/-- From `t` the owner ends its `INIT` of `cfg` in one of the two ways of R133 and R136; `s` is the state
that its end is compared with. -/
def InitCanEnd (c : Nat) (cfg : RadioConfig) (s t : State) : Prop :=
  ∃ (u : State) (ev : List Event), RunsTo t u ∧ u.seq = none ∧ u.owner = none ∧
    u.stopped = s.stopped ∧ u.deviceId = s.deviceId ∧ u.devValid = s.devValid ∧
    ((u.tstate = .idle ∧ u.cfg = cfg ∧ u.cfgValid = true ∧
        u.hist = s.hist ++ ev ++ [.resp c [0x00#8]]) ∨
      (u.tstate = .error ∧ u.cfg = s.cfg ∧ u.cfgValid = s.cfgValid ∧
        u.hist = s.hist ++ ev ++ [.resp c [0x01#8]]))

/-- An end compared with a state is compared with an earlier one. -/
theorem InitCanEnd.of_keeps (hkeep : InitKeeps s t) (hend : InitCanEnd c cfg t t) :
    InitCanEnd c cfg s t := by
  obtain ⟨hstopped, hid, hvalid, hcfg, hcfgValid, ev', hhist⟩ := hkeep
  obtain ⟨u, ev, hrun, hseq, howner, h1, h2, h3, hout⟩ := hend
  rw [hstopped] at h1
  rw [hid] at h2
  rw [hvalid] at h3
  rw [hcfg, hcfgValid, hhist, List.append_assoc s.hist] at hout
  exact ⟨u, ev' ++ ev, hrun, hseq, howner, h1, h2, h3, hout⟩

theorem InitCanEnd.step (h : Owns t c i pos r) (he : exec i t = .next v)
    (hend : InitCanEnd c cfg s v) : InitCanEnd c cfg s t := by
  obtain ⟨u, ev, hrun, hout⟩ := hend
  exact ⟨u, ev, .step h he hrun, hout⟩

/-- A step that keeps what only the end writes, before the end. -/
theorem InitCanEnd.cons (h : Owns s c i pos r) (he : exec i s = .next t) (hend : InitCanEnd c cfg t t)
    (hkeep : InitKeeps s t := by exact ⟨rfl, rfl, rfl, rfl, rfl, _, rfl⟩) : InitCanEnd c cfg s s :=
  .step h he (.of_keeps hkeep hend)

theorem InitCanEnd.perform (h : Owns s c i pos r) (he : exec i s = .next (u.performed c i pos' r e))
    (hrun : Owns (u.performed c i pos' r e) c i pos' r →
      InitCanEnd c cfg (u.performed c i pos' r e) (u.performed c i pos' r e))
    (hturn : u.turn = s.turn := by rfl)
    (hkeep : InitKeeps s (u.performed c i pos' r e) := by exact ⟨rfl, rfl, rfl, rfl, rfl, _, rfl⟩) :
    InitCanEnd c cfg s s :=
  .cons h he (hrun (owns_performed (hturn.trans h.1) e)) hkeep

theorem InitCanEnd.call {r' : Answer} (h : Owns s c i pos r)
    (he : exec i s = .next (u.called c i pos' r' e))
    (hrun : Owns (u.called c i pos' r' e) c i pos' r' →
      InitCanEnd c cfg (u.called c i pos' r' e) (u.called c i pos' r' e))
    (hturn : u.turn = s.turn := by rfl)
    (hkeep : InitKeeps s (u.called c i pos' r' e) := by exact ⟨rfl, rfl, rfl, rfl, rfl, _, rfl⟩) :
    InitCanEnd c cfg s s :=
  .cons h he (hrun (owns_called (hturn.trans h.1) e)) hkeep

/-- The end in `Error` (R132, R136). -/
theorem InitCanEnd.of_failed (h : Owns s c (.init cfg) pos r)
    (he : exec (.init cfg) s = .next ((s.failed (.init cfg)).ended c [0x01#8])) :
    InitCanEnd c cfg s s :=
  ⟨_, [], .last h he rfl, rfl, rfl, rfl, rfl, by simp [State.failed, State.ended],
    .inr ⟨rfl, rfl, rfl, by simp [State.failed, State.ended]⟩⟩

theorem Answer.eq_fail (hr : r.isOk = false) : r = .fail := by
  cases r with
  | ok bs => cases hr
  | fail => rfl

/-- By induction on the writes still to come: each may fail, and after the last one the end is `Idle`. -/
theorem init_ends_cfgWrite (h : Owns s c (.init cfg) (.cfgWrite n) r) (hr : n = 0 ∨ r.isOk = true) :
    InitCanEnd c cfg s s := by
  induction houts : (initFrames s.profile cfg).drop n generalizing s n r with
  | nil =>
    exact ⟨_, [], .last h (exec_init_written h hr houts) rfl, rfl, rfl, rfl, rfl, rfl,
      .inl ⟨rfl, rfl, rfl, by simp [State.ended]⟩⟩
  | cons out outs ih =>
    obtain ⟨hsend, hlater⟩ := exec_init_write h hr houts
    have h1 := owns_sent (c := c) (i := .init cfg) (pos := .cfgWrite (n + 1)) h.1 out
    refine .cons h hsend ?_
    cases hok : (s.nextAnswer out.length).isOk with
    | true => exact ih h1 (.inr hok) hlater
    | false =>
      rw [Answer.eq_fail hok] at h1
      exact .of_failed h1 (exec_of_fail h1 (.inr ⟨n, rfl⟩))

theorem init_ends_holdHigh (h : Owns s c (.init cfg) .holdHigh r) : InitCanEnd c cfg s s :=
  .perform h (exec_init_holdHigh h) fun h1 => init_ends_cfgWrite h1 (.inl rfl)

theorem init_ends_holdLow (h : Owns s c (.init cfg) .holdLow r) : InitCanEnd c cfg s s :=
  .perform h (exec_init_holdLow h) fun h1 => .perform h1 (exec_init_pinHigh h1) init_ends_holdHigh

/-- The reset pulse begins with `PinMode` or with the low level (R134). -/
theorem init_ends_beginReset (h : Owns s c (.init cfg) pos r) : InitCanEnd c cfg s s.beginReset := by
  cases hpin : s.pinMode with
  | unconfigured =>
    rw [beginReset_unconfigured h.2 hpin]
    have h1 := owns_performed (s := { s with pinMode := .output }) (c := c) (i := .init cfg)
      (pos := .pinLow) (r := r) h.1 .pinMode
    exact .of_keeps ⟨rfl, rfl, rfl, rfl, rfl, _, rfl⟩
      (.perform h1 (exec_init_pinLow h1) init_ends_holdLow)
  | output =>
    rw [beginReset_output h.2 hpin]
    exact .of_keeps ⟨rfl, rfl, rfl, rfl, rfl, _, rfl⟩
      (init_ends_holdLow (owns_performed (s := { s with pinLevel := .low }) h.1 _))

theorem init_ends_released (h : Owns s c (.init cfg) .released r) : InitCanEnd c cfg s s :=
  .of_failed h (exec_released h (.inl ⟨cfg, rfl⟩))

theorem init_ends_clocked (h : Owns s c (.init cfg) .clocked r) : InitCanEnd c cfg s s := by
  cases hok : r.isOk with
  | true => exact .step h (exec_init_clocked h hok) (init_ends_beginReset h)
  | false =>
    rw [Answer.eq_fail hok] at h
    exact .perform h (exec_clocked_fail h (.inl ⟨cfg, rfl⟩)) init_ends_released

theorem init_ends_opened (h : Owns s c (.init cfg) .opened r) : InitCanEnd c cfg s s := by
  cases hok : r.isOk with
  | true => exact .call h (exec_init_opened h hok) init_ends_clocked
  | false =>
    rw [Answer.eq_fail hok] at h
    exact .of_failed h (exec_of_fail h (.inl rfl))

/-- Settles O33: the end is compared with the state in which `stopped` and `cfg_valid` are cleared. -/
theorem initEnds : Obligations.InitEnds := by
  unfold Obligations.InitEnds
  intro s c cfg r h hstate hoperands
  have hend : InitCanEnd c cfg { s with stopped := false, cfgValid := false } s := by
    refine .step h (exec_init_start h hstate hoperands) ?_
    split
    · exact init_ends_beginReset (s := { s with stopped := false, cfgValid := false }) h
    · rw [openTransport_goto (s := { s with stopped := false, cfgValid := false }) h.2]
      exact .of_keeps ⟨rfl, rfl, rfl, rfl, rfl, _, rfl⟩
        (init_ends_opened
          (owns_called (s := { s with stopped := false, cfgValid := false }) h.1 _))
  obtain ⟨t, ev, ⟨n, hrun⟩, hout⟩ := hend
  exact ⟨n, t, ev, hrun, hout⟩

end Sys2Proof.Machine
end

section
/-! Whole runs of `RECEIVE`: the number of reads of a finite one, and its end after a stop request (R139
to R141, R222, R224). -/

namespace Sys2Proof.Machine

variable {s t u : State} {c : Nat} {out b : Frame} {timeout : Word} {r : Answer} {pos : Pos}
  {rest : List Answer} {reads : List Frame}

/-! ### The poll count -/

/-- The events of the rounds after the first read: a poll wait, then a read (R139). -/
def pollRounds (out : Frame) (ms : Word) (reads : List Frame) : List Event :=
  reads.flatMap fun b => [.wait .poll ms, .xfer out (.ok b)]

theorem pollEvents_cons (out : Frame) (ms : Word) (b : Frame) (reads : List Frame) :
    pollEvents out ms (b :: reads) = .xfer out (.ok b) :: pollRounds out ms reads := by
  induction reads generalizing b with
  | nil => rfl
  | cons b' reads ih => rw [pollEvents, ih]; rfl

theorem zeroRead_length {n : Nat} (h : zeroRead n b) : b.length = n + 1 := by
  obtain ⟨x, rfl⟩ := h
  simp

theorem fifoReadBytes_length (p : Profile) : (fifoReadBytes p).length = p.fifoDepth + 1 := by
  simp [fifoReadBytes, readBytes]

/-- A read without data is not data unless `ZERO_AS_DATA` says so (R116). -/
theorem isData_of_zeroRead {n : Nat} {policy : Word} (hb : zeroRead n b)
    (hpolicy : policy.getLsbD 1 = false) : isData (Answer.ok b).data policy = false := by
  obtain ⟨x, rfl⟩ := hb
  exact isData_of_zeros (fun _ hmem => List.eq_of_mem_replicate hmem) hpolicy

/-- No stop, no data in zeros, and a timeout that runs out with read `total` and not before. -/
structure PollsUntil (s : State) (timeout : Word) (total : Nat) : Prop where
  running : s.stopReq = false
  finite : timeout ≠ s.profile.inf
  plain : s.ctrl.policy.getLsbD 1 = false
  timeout_iff : ∀ k, 1 ≤ k → (timeout.toNat ≤ k * s.ctrl.tPoll.toNat ↔ total ≤ k)

theorem PollsUntil.of_eq {total : Nat} (h : PollsUntil s timeout total) (hstop : t.stopReq = s.stopReq)
    (hprofile : t.profile = s.profile) (hctrl : t.ctrl = s.ctrl) : PollsUntil t timeout total :=
  ⟨hstop ▸ h.running, hprofile ▸ h.finite, hctrl ▸ h.plain, hctrl ▸ h.timeout_iff⟩

/-- The least `k ≥ 1` with `T ≤ k * T_POLL` is `max(1, ceil(T / T_POLL))` (R140). -/
theorem le_mul_iff_max_ceil_le {T p k : Nat} (hp : p ≠ 0) (hk : 1 ≤ k) :
    T ≤ k * p ↔ max 1 ((T + (p - 1)) / p) ≤ k := by
  rw [max_le_iff, Nat.div_le_iff_le_mul_add_pred (Nat.pos_of_ne_zero hp), Nat.mul_comm p k]
  omega

/-- The last read of a finite `RECEIVE` ends it with `00 00 00` (R139). -/
theorem exec_receive_lastRead {total : Nat} (hpoll : PollsUntil s timeout total)
    (h : Owns s c (.receive timeout) .rxJudge (.ok b)) (hb : zeroRead s.profile.fifoDepth b)
    (hlast : total = s.k + 1) :
    exec (.receive timeout) s =
      .next ({ s with k := s.k + 1, tstate := .idle }.ended c [0x00#8, 0x00#8, 0x00#8]) := by
  rw [exec_receive_empty h rfl (isData_of_zeroRead hb hpoll.plain) hpoll.running, if_pos]
  exact ⟨hpoll.finite, (hpoll.timeout_iff _ (Nat.succ_pos _)).2 hlast.le⟩

/-- A read before the last one is followed by the poll wait (R139). -/
theorem exec_receive_earlierRead {total : Nat} (hpoll : PollsUntil s timeout total)
    (h : Owns s c (.receive timeout) .rxJudge (.ok b)) (hb : zeroRead s.profile.fifoDepth b)
    (hearlier : s.k + 1 < total) :
    exec (.receive timeout) s =
      .next ({ s with k := s.k + 1 }.performed c (.receive timeout) .rxPoll (.ok b)
        (.wait .poll s.ctrl.tPoll)) := by
  rw [exec_receive_empty h rfl (isData_of_zeroRead hb hpoll.plain) hpoll.running, if_neg]
  rintro ⟨-, htimeout⟩
  exact Nat.not_le.2 hearlier ((hpoll.timeout_iff _ (Nat.succ_pos _)).1 htimeout)

/-- The poll loop from the judgement of the empty read `b` on, by induction on the reads still to come. -/
theorem receive_poll_run {total : Nat} (h : Owns s c (.receive timeout) .rxJudge (.ok b))
    (hpoll : PollsUntil s timeout total)
    (hzeros : ∀ b' ∈ b :: reads, zeroRead s.profile.fifoDepth b')
    (htotal : total = s.k + 1 + reads.length) (hans : s.answers = reads.map .ok ++ rest) :
    RunsTo s ({ s with
      k := total, tstate := .idle, answers := rest, draws := s.draws + reads.length
      hist := s.hist ++ pollRounds (fifoReadBytes s.profile) s.ctrl.tPoll reads }.ended c
        [0x00#8, 0x00#8, 0x00#8]) := by
  induction reads generalizing s b with
  | nil =>
    refine .last h (exec_receive_lastRead hpoll h (hzeros b (List.mem_cons_self ..)) htotal) ?_
    simp [State.ended, pollRounds, hans, htotal]
  | cons b' reads ih =>
    obtain ⟨hb, hzeros⟩ := List.forall_mem_cons.1 hzeros
    have hlen : b'.length = (fifoReadBytes s.profile).length := by
      rw [zeroRead_length (hzeros b' (List.mem_cons_self ..)), fifoReadBytes_length]
    have hearlier : s.k + 1 < total := by rw [htotal, List.length_cons]; omega
    refine .perform h (exec_receive_earlierRead hpoll h hb hearlier) fun h1 => ?_
    refine .send h1 (exec_receive_rxPoll h1) hans hlen fun h2 => ?_
    refine (ih h2 (hpoll.of_eq rfl rfl rfl) hzeros ?_ ?_).trans (.of_eq ?_)
    · rw [htotal, List.length_cons]
      simp only [State.called, State.performed]
      omega
    · simp [State.called, State.performed, hans]
    · simp [State.ended, State.called, State.performed, pollRounds, Nat.add_assoc, Nat.add_comm 1]

/-- `s` once `RECEIVE` has had its first FIFO read answered with `b`, after the entry write, if any,
answered with `entry` (R139). -/
def State.firstRead (s : State) (c : Nat) (timeout : Word) (entry : List Frame) (b : Frame)
    (rest : List Answer) : State :=
  { s with
    tstate := .receiving, k := 0, answers := rest, draws := s.draws + entry.length + 1
    hist := s.hist ++
      entry.map (fun b => Event.xfer (writeBytes s.profile.regOpmode [s.profile.opmodeRx]) (.ok b)) ++
      [.xfer (fifoReadBytes s.profile) (.ok b)]
    seq := some { client := c, cmd := .receive timeout, pos := .rxJudge, answer := .ok b } }

/-- From the grant of `RECEIVE` to the judgement of its first read (R139). -/
theorem receive_entry_run {entry : List Frame} (h : Owns s c (.receive timeout) .start r)
    (hidle : s.tstate = .idle) (hb : b.length = s.profile.fifoDepth + 1)
    (hentry : entry.length = if s.profile.rxEntry then 1 else 0) (hlens : ∀ e ∈ entry, e.length = 2)
    (hans : s.answers = entry.map Answer.ok ++ .ok b :: rest) :
    RunsTo s (s.firstRead c timeout entry b rest) := by
  have hlen : b.length = (fifoReadBytes s.profile).length := by rw [hb, fifoReadBytes_length]
  cases hrx : s.profile.rxEntry with
  | true =>
    rw [hrx] at hentry
    obtain ⟨e, rfl⟩ := List.length_eq_one_iff.1 hentry
    have hans1 : s.answers.tail = .ok b :: rest := by rw [hans]; rfl
    have helen : e.length = 2 := hlens e (List.mem_singleton_self e)
    refine .send h (exec_receive_entry h hidle hrx) hans helen fun h1 => ?_
    refine .send h1 (exec_receive_rxEnter h1 rfl) hans1 hlen fun _ => .of_eq ?_
    simp [State.firstRead, State.called, hans]
  | false =>
    rw [hrx] at hentry
    obtain rfl := List.eq_nil_of_length_eq_zero hentry
    refine .send h (exec_receive_noEntry h hidle hrx) hans hlen fun _ => .of_eq ?_
    simp [State.firstRead, State.called, hans]

/-- Settles O40: the entry and the first read, then the poll loop. -/
theorem receivePollCount : Obligations.ReceivePollCount := by
  unfold Obligations.ReceivePollCount
  intro s c timeout r entry reads rest h hidle hstop hfinite htPoll hpolicy hcount hzeros hentry hlens
    hans
  have hp : s.ctrl.tPoll.toNat ≠ 0 := fun hzero => htPoll (BitVec.eq_of_toNat_eq hzero)
  have hpoll : PollsUntil s timeout reads.length :=
    ⟨hstop, hfinite, hpolicy, fun k hk => by rw [hcount]; exact le_mul_iff_max_ceil_le hp hk⟩
  cases reads with
  | nil => rw [List.length_nil] at hcount; omega
  | cons b reads =>
    rw [List.append_assoc] at hans
    have hb := zeroRead_length (hzeros b (List.mem_cons_self ..))
    have hfirst := receive_entry_run h hidle hb hentry hlens hans
    have hloop := receive_poll_run (s := s.firstRead c timeout entry b (reads.map Answer.ok ++ rest))
      ⟨h.1, rfl⟩
      (hpoll.of_eq rfl rfl rfl) hzeros (by simp [State.firstRead, Nat.add_comm]) rfl
    refine hfirst.trans (hloop.trans (.of_eq ?_))
    simp [State.ended, State.firstRead, pollEvents_cons, fifoReadBytes_eq, writeBytes, hidle,
      Nat.add_assoc, Nat.add_comm 1]

/-! ### A stop request -/

/-- How a `RECEIVE` with `stop_req` set ends after its last read was answered `last`: a transport failure,
`CANCELLED`, or the data (R222, R224). -/
def StopVerdict (policy : Word) (last : Answer) (tstate : TState) (frame : Frame) : Prop :=
  (frame = [0x01#8] ∧ tstate = .error) ∨ (frame = [0x05#8] ∧ tstate = .idle) ∨
    (tstate = .idle ∧ last.isOk = true ∧ isData last.data policy = true ∧
      frame = 0x00#8 :: payloadData (decPayload last.data policy))

/-- A failed call ends `RECEIVE` in `Error` (R132). -/
theorem exec_receive_fail (h : Owns s c (.receive timeout) pos .fail)
    (hreads : readsAnswer (.receive timeout) pos) :
    exec (.receive timeout) s = .next ({ s with tstate := .error }.ended c [0x01#8]) := by
  rw [exec_of_fail h hreads, ← busFail_eq_failed Instr.noConfusion, busFail_eq]

/-- A read judged with `stop_req` set ends the command in that step. -/
theorem exec_receive_stopped (h : Owns s c (.receive timeout) .rxJudge r) (hstop : s.stopReq = true) :
    ∃ (t : State) (frame : Frame), exec (.receive timeout) s = .next (t.ended c frame) ∧ t.hist = s.hist ∧
      StopVerdict s.ctrl.policy r t.tstate frame := by
  cases hok : r.isOk with
  | false =>
    rw [Answer.eq_fail hok] at h
    exact ⟨_, _, exec_receive_fail h (.inr rfl), rfl, .inl ⟨rfl, rfl⟩⟩
  | true =>
    cases hdata : isData r.data s.ctrl.policy with
    | true => exact ⟨_, _, exec_receive_data h hok hdata, rfl, .inr (.inr ⟨rfl, hok, hdata, rfl⟩)⟩
    | false => exact ⟨_, _, exec_receive_cancelled h hok hdata hstop, rfl, .inr (.inl ⟨rfl, rfl⟩)⟩

/-- From `pos`, where the last answer was `r`, a `RECEIVE` records the events `ev` before it judges the
answer `last`: none when that is `r`, or one FIFO read. -/
def StoppedEvents (p : Profile) (pos : Pos) (r last : Answer) (ev : List Event) : Prop :=
  (ev = [] ∧ last = r ∧ (pos = .rxJudge ∨ r = .fail)) ∨
    (ev = [.xfer (fifoReadBytes p) last] ∧ pos ≠ .rxJudge)

/-- The owner ends its `RECEIVE` from `pos` as a stop request has it (R141). -/
def StopsReceive (c : Nat) (pos : Pos) (r : Answer) (s : State) : Prop :=
  ∃ (t : State) (ev : List Event) (frame : Frame) (last : Answer),
    RunsTo s (t.ended c frame) ∧ t.hist = s.hist ++ ev ∧ StoppedEvents s.profile pos r last ev ∧
      StopVerdict s.ctrl.policy last t.tstate frame

/-- The FIFO read after a stop request is the last one. -/
theorem receive_stops_after_read (h : Owns s c (.receive timeout) pos r)
    (he : exec (.receive timeout) s =
      .next (u.sent c (.receive timeout) .rxJudge (fifoReadBytes s.profile)))
    (hpos : pos ≠ .rxJudge) (hstop : u.stopReq = true) (hturn : u.turn = s.turn := by rfl)
    (hhist : u.hist = s.hist := by rfl) (hctrl : u.ctrl = s.ctrl := by rfl) :
    StopsReceive c pos r s := by
  have h1 := owns_sent (s := u) (c := c) (i := .receive timeout) (pos := .rxJudge)
    (hturn.trans h.1) (fifoReadBytes s.profile)
  obtain ⟨t, frame, hlast, hend, hverdict⟩ := exec_receive_stopped h1 hstop
  refine ⟨t, _, frame, _, .step h he (.last h1 hlast rfl), ?_, .inr ⟨rfl, hpos⟩, hctrl ▸ hverdict⟩
  rw [hend, ← hhist]
  rfl

/-- With `stop_req` set a running `RECEIVE` ends after at most one more read (R141). -/
theorem receive_stops (h : Owns s c (.receive timeout) pos r)
    (hpos : pos = .rxEnter ∨ pos = .rxPoll ∨ pos = .rxJudge) (hstop : s.stopReq = true) :
    StopsReceive c pos r s := by
  rcases hpos with rfl | rfl | rfl
  · cases hok : r.isOk with
    | true =>
      exact receive_stops_after_read h (exec_receive_rxEnter h hok) Pos.noConfusion hstop
    | false =>
      have hr := Answer.eq_fail hok
      subst hr
      exact ⟨_, [], _, .fail, .last h (exec_receive_fail h (.inl rfl)) rfl,
        (List.append_nil _).symm, .inl ⟨rfl, rfl, .inr rfl⟩, .inl ⟨rfl, rfl⟩⟩
  · exact receive_stops_after_read h (exec_receive_rxPoll h) Pos.noConfusion hstop
  · obtain ⟨t, frame, hlast, hend, hverdict⟩ := exec_receive_stopped h hstop
    exact ⟨t, [], frame, r, .last h hlast rfl, by rw [hend, List.append_nil],
      .inl ⟨rfl, rfl, .inl rfl⟩, hverdict⟩

/-- Those events are no wait and at most one transaction. -/
theorem StoppedEvents.atMostOneRead {p : Profile} {last : Answer} {ev : List Event}
    (h : StoppedEvents p pos r last ev) :
    ev.countP Event.isXfer ≤ 1 ∧ ∀ kind ms, Event.wait kind ms ∉ ev := by
  rcases h with ⟨rfl, -⟩ | ⟨rfl, -⟩
  · simp
  · simp [Event.isXfer]

/-- An answer judged `ok` is the one already there, or that of the read recorded (R141). -/
theorem StoppedEvents.source {p : Profile} {last : Answer} {ev : List Event}
    (h : StoppedEvents p pos r last ev) (hok : last.isOk = true) :
    (pos = .rxJudge → last = r ∧ ev = []) ∧
      (pos ≠ .rxJudge → .xfer (fifoReadBytes p) last ∈ ev) := by
  rcases h with ⟨rfl, rfl, rfl | rfl⟩ | ⟨rfl, hpos⟩
  · exact ⟨fun _ => ⟨rfl, rfl⟩, fun hne => absurd rfl hne⟩
  · cases hok
  · exact ⟨fun he => absurd he hpos, fun _ => List.mem_singleton_self _⟩

/-- Settles O41, from the events and the verdict of the run. -/
theorem receiveCancelled : Obligations.ReceiveCancelled := by
  unfold Obligations.ReceiveCancelled
  intro s c timeout pos r h hpos hstop
  obtain ⟨t, ev, frame, last, ⟨n, hrun⟩, hhist, hevents, hverdict⟩ := receive_stops h hpos hstop
  obtain ⟨hreads, hwaits⟩ := hevents.atMostOneRead
  refine ⟨n, t.ended c frame, ev, frame, hrun, rfl, rfl, by rw [← hhist]; rfl, hreads, hwaits, ?_⟩
  rcases hverdict with hfailed | hcancelled | ⟨hidle, hok, hdata, hframe⟩
  · exact .inl hfailed
  · exact .inr (.inl hcancelled)
  · obtain ⟨hthere, hread⟩ := hevents.source hok
    exact .inr (.inr ⟨hidle, last.data, last, hok, rfl, hthere, hread, (isData_iff _ _).1 hdata,
      hframe⟩)

end Sys2Proof.Machine
end

section
/-! The control commands: `GET_STATE` and `READ_CTRL` in their submission (R172, R174), `STOP` after grant
(R171), and the submission step as a whole (R190 to R192). -/

namespace Sys2Proof.Machine

variable {s : State} {c : Nat} {r : Answer}

/-! ### GET_STATE -/

/-- A flag sits at its own bit and nowhere else (R43). -/
theorem getLsbD_flagBit (b : Bool) (i : Nat) {n : Nat} (hn : n < 8) :
    (flagBit b i).getLsbD n = (b && decide (n = i)) := by
  cases b with
  | false => simp [flagBit]
  | true =>
    rw [flagBit, if_pos rfl, BitVec.getLsbD_shiftLeft, BitVec.getLsbD_one]
    grind

/-- Bit by bit, the state flags byte (R43). -/
theorem getLsbD_flags (s : State) {n : Nat} (hn : n < 8) :
    s.flags.getLsbD n =
      (s.busOpen && decide (n = 0) || s.stopped && decide (n = 1) || s.stopReq && decide (n = 2) ||
        s.owner.isSome && decide (n = 3) || s.devValid && decide (n = 4) ||
        s.cfgValid && decide (n = 5)) := by
  simp only [State.flags, BitVec.getLsbD_or, getLsbD_flagBit _ _ hn]

/-- Settles O17: the answer of `exec_replied`, with the flags read off bit by bit. -/
theorem getStateResult : Obligations.GetStateResult := by
  unfold Obligations.GetStateResult
  intro s c hturn
  refine ⟨s.tstate.code, s.flags, exec_replied hturn rfl, ?_, ?_⟩
  · cases s.tstate <;> decide
  · simp [getLsbD_flags, -BitVec.getLsbD_eq_getElem]

/-! ### READ_CTRL -/

/-- The five registers by index (R29). -/
theorem ctrlRead_of_mem {x : Ctrl} {idx : Byte} {v : Word}
    (h : (idx.toNat, v) ∈ [(0, x.policy), (1, x.tRstLow), (2, x.tRstHigh), (3, x.tSettle),
      (4, x.tPoll)]) : ctrlRead x idx = some v := by
  simp only [List.mem_cons, Prod.mk.injEq, List.not_mem_nil, or_false] at h
  rcases h with ⟨hidx, rfl⟩ | ⟨hidx, rfl⟩ | ⟨hidx, rfl⟩ | ⟨hidx, rfl⟩ | ⟨hidx, rfl⟩ <;>
    simp only [ctrlRead, hidx]

/-- Every other index is reserved (R36). -/
theorem ctrlRead_none (x : Ctrl) {idx : Byte} (h : 4 < idx.toNat) : ctrlRead x idx = none := by
  unfold ctrlRead
  split
  case h_6 => rfl
  all_goals omega

/-- A word whose bits 31:2 are 0 is below 4 (R30). -/
theorem toNat_lt_four {v : Word} (h : v &&& 0xFFFFFFFC#32 = 0#32) : v.toNat < 4 := by
  have hlow : v = v &&& 0x00000003#32 :=
    calc v = v &&& (0xFFFFFFFC#32 ||| 0x00000003#32) := (BitVec.and_allOnes).symm
      _ = v &&& 0x00000003#32 := by rw [BitVec.and_or_distrib_left, h, BitVec.zero_or]
  rw [hlow, BitVec.toNat_and]
  exact Nat.lt_succ_of_le Nat.and_le_right

/-- A value of one byte is written behind three zero bytes (R12). -/
theorem be4_of_lt {n : Nat} (h : n < 256) : be 4 n = [0x00#8, 0x00#8, 0x00#8, BitVec.ofNat 8 n] := by
  have hshift (k : Nat) (hk : 8 ≤ k) : n >>> k = 0 :=
    Nat.shiftRight_eq_zero n k (h.trans_le (Nat.pow_le_pow_right (n := 2) (by decide) hk))
  rw [be4_eq, hshift 24 (by decide), hshift 16 (by decide), hshift 8 (by decide)]

/-- `READ_CTRL` of a register responds with its value (R174). -/
theorem exec_readCtrl_some {idx : Byte} {v : Word} (hturn : s.turn = .submission c)
    (hv : ctrlRead s.ctrl idx = some v) :
    exec (.readCtrl idx) s = .next (s.replied c (0x00#8 :: be 4 v.toNat)) := by
  rw [exec_replied hturn rfl]
  simp only [answerOf, readCtrlAnswer, hv, Status.code]

/-- `READ_CTRL` of a reserved index responds `02` (R36, R174). -/
theorem exec_readCtrl_none {idx : Byte} (hturn : s.turn = .submission c)
    (hv : ctrlRead s.ctrl idx = none) : exec (.readCtrl idx) s = .next (s.replied c [0x02#8]) := by
  rw [exec_replied hturn rfl]
  simp only [answerOf, readCtrlAnswer, hv, Status.code]

/-- Settles O18: index 0 is a register like the others, and its value fits the last byte. -/
theorem readCtrlResult : Obligations.ReadCtrlResult := by
  unfold Obligations.ReadCtrlResult
  intro s c idx hturn
  refine ⟨fun v hv => exec_readCtrl_some hturn (ctrlRead_of_mem hv), fun hidx hpolicy => ?_,
    fun hidx => exec_readCtrl_none hturn (ctrlRead_none _ hidx)⟩
  have hlt := toNat_lt_four hpolicy
  have hread : ctrlRead s.ctrl idx = some s.ctrl.policy := ctrlRead_of_mem (by simp [hidx])
  refine ⟨BitVec.ofNat 8 s.ctrl.policy.toNat, (Nat.mod_le _ _).trans_lt hlt, ?_⟩
  rw [exec_readCtrl_some hturn hread, be4_of_lt (by omega)]

/-! ### STOP -/

/-- `STOP` with the transport open closes it first (R171). -/
theorem exec_stop_close (h : Owns s c .stop .start r) (hopen : s.busOpen = true) :
    exec .stop s = .next ({ s with busOpen := false }.performed c .stop .stopPin r .close) := by
  rw [exec_owns h rfl]
  simp only [body, stopBody, if_pos hopen, closeTransport_goto h.2]

/-- With the transport closed, `STOP` comes to the pin (R171). -/
theorem exec_stop_release
    (h : (Owns s c .stop .start r ∧ s.busOpen = false) ∨ Owns s c .stop .stopPin r) :
    ∃ pos, s.seq = some { client := c, cmd := .stop, pos := pos, answer := r } ∧
      exec .stop s =
        .next (stopRelease { client := c, cmd := .stop, pos := pos, answer := r } s) := by
  rcases h with ⟨h, hclosed⟩ | h
  · refine ⟨.start, h.2, ?_⟩
    rw [exec_owns h rfl]
    simp only [body, stopBody, hclosed, Bool.false_eq_true, if_false]
  · exact ⟨.stopPin, h.2, exec_owns h rfl⟩

/-- A pin that is an output is released (R171). -/
theorem stopRelease_output {q : Seq} (hq : s.seq = some q) (hpin : s.pinMode = .output) :
    stopRelease q s =
      { s with pinMode := .unconfigured, pinLevel := .undriven }.performed q.client q.cmd .stopDone
        q.answer .pinCleanup := by
  rw [stopRelease, if_pos hpin, pinCleanup_goto hq]

/-- With no pin to release, `STOP` ends (R171). -/
theorem stopRelease_unconfigured (q : Seq) (hpin : s.pinMode = .unconfigured) :
    stopRelease q s = stopEnd q s := by
  simp [stopRelease, hpin]

/-- The three ways to come to the end of `STOP` (R171). -/
theorem exec_stop_end
    (h : (Owns s c .stop .start r ∧ s.busOpen = false ∧ s.pinMode = .unconfigured) ∨
      (Owns s c .stop .stopPin r ∧ s.pinMode = .unconfigured) ∨ Owns s c .stop .stopDone r) :
    ∃ pos, exec .stop s = .next (stopEnd { client := c, cmd := .stop, pos := pos, answer := r } s) := by
  rcases h with ⟨h, hclosed, hpin⟩ | ⟨h, hpin⟩ | h
  · obtain ⟨pos, -, hexec⟩ := exec_stop_release (.inl ⟨h, hclosed⟩)
    exact ⟨pos, by rw [hexec, stopRelease_unconfigured _ hpin]⟩
  · obtain ⟨pos, -, hexec⟩ := exec_stop_release (.inr h)
    exact ⟨pos, by rw [hexec, stopRelease_unconfigured _ hpin]⟩
  · exact ⟨.stopDone, exec_owns h rfl⟩

/-- Settles O21: the transport, the pin, the end. -/
theorem stopResult : Obligations.StopResult := by
  unfold Obligations.StopResult
  intro s c r
  refine ⟨exec_stop_close, fun h hpin => ?_, fun h => ?_⟩
  · obtain ⟨pos, hq, hexec⟩ := exec_stop_release h
    rw [hexec, stopRelease_output hq hpin]
  · obtain ⟨pos, hexec⟩ := exec_stop_end h
    exact ⟨_, fun hidle => if_pos hidle, fun hidle => if_neg hidle, hexec⟩

/-! ### The submission step -/

/-- A submission on a port that is not free is passed over (R190, log entry 11). -/
theorem step_submit_busy {ms : List Move} (hsched : s.sched = .submit c :: ms)
    (hbusy : s.outstanding[c]? = some true) : step s = .next s.popMove := by
  have hmove : s.nextMove = .submit c := by rw [State.nextMove, hsched]
  have hbegin : s.popMove.beginSubmit c = none := by simp [State.beginSubmit, hbusy]
  simp only [step, hmove, hbegin]

/-- Settles O22: passed over, `exec_accept`, or `exec_replied`. -/
theorem submissionStep : Obligations.SubmissionStep := by
  unfold Obligations.SubmissionStep
  intro s c f fs m hturn hsched hinbox
  have hpop : s.popMove = { s with sched := m } := by rw [State.popMove, hsched, List.tail_cons]
  refine ⟨fun hbusy => ?_, fun hfree hkind => ?_, fun hfree hkind => ?_⟩
  · rw [step_submit_busy hsched hbusy, hpop]
  · rw [step_submit hsched hfree hinbox, exec_accept rfl hkind, hpop]
    simp only [State.accept, State.takeFrame, State.emit, hturn]
  · have hstep := step_submit hsched hfree hinbox
    rw [exec_replied rfl hkind, replied_takeFrame (t := s.popMove) hturn hfree, hpop] at hstep
    exact ⟨_, hstep⟩

end Sys2Proof.Machine
end

section
/-! Arbitration (43_arbitration.md): the choice of a client (R195, R196), the grant (R194, R206), and
mutual exclusion over the history (R198, R199). -/

namespace Sys2Proof.Machine

variable {s : State} {c pick : Nat} {i : Instr} {ms : List Move}

/-! ### The grant -/

/-- A step of the LMC with no command running is a grant (R194). -/
theorem step_grant (hsched : s.sched = .run pick :: ms) (hseq : s.seq = none) :
    step s = .next (s.popMove.grant pick) := by
  have hmove : s.nextMove = .run pick := by rw [State.nextMove, hsched]
  have hnone : s.popMove.seq = none := hseq
  simp only [step, hmove, hnone]

theorem grant_of_choose (howner : s.owner = none) (hchoose : s.choose pick = some c)
    (hpending : s.pending[c]? = some (some i)) : s.grant pick = s.grantTo c i := by
  simp only [State.grant, howner, hchoose, hpending, Option.join_some]

/-- The grant of the client the arbiter chose, by a step that the schedule names (R194). -/
theorem step_grantTo (hsched : s.sched = .run pick :: ms) (howner : s.owner = none)
    (hseq : s.seq = none) (hchoose : s.choose pick = some c)
    (hpending : s.pending[c]? = some (some i)) : step s = .next (s.popMove.grantTo c i) := by
  rw [step_grant hsched hseq, grant_of_choose (s := s.popMove) howner hchoose hpending]

/-- Settles O24: taking the move off the schedule touches nothing the choice depends on. -/
theorem grantStep : Obligations.GrantStep := by
  unfold Obligations.GrantStep
  intro s pick m c i hsched howner hseq hchoose hpending
  rw [step_grantTo hsched howner hseq hchoose hpending]
  simp only [State.grantTo, State.emit, State.popMove, hsched, List.tail_cons]

/-! ### The choice -/

/-- The clients in the order the policy considers them when no `STOP` is pending (R196). -/
def State.policyOrder (s : State) (pick : Nat) : List Nat :=
  match s.profile.arbPolicy with
  | .roundRobin => clientsFrom s.profile.ports (s.rr + 1)
  | .any => clientsFrom s.profile.ports pick

/-- The choice is the lowest pending `STOP`, or else the first pending client in the policy's order (R195,
R196). -/
theorem choose_eq (s : State) (pick : Nat) :
    s.choose pick = ((List.range s.profile.ports).find? (isPendingStop s.pending)).or
      ((s.policyOrder pick).find? (isPending s.pending)) := by
  unfold State.choose State.policyOrder
  cases (List.range s.profile.ports).find? (isPendingStop s.pending) with
  | some c => rfl
  | none => cases s.profile.arbPolicy <;> rfl

theorem mem_policyOrder (s : State) (pick : Nat) : c ∈ s.policyOrder pick ↔ c < s.profile.ports := by
  unfold State.policyOrder
  cases s.profile.arbPolicy <;> exact ⟨lt_of_mem_clientsFrom, fun hc => mem_clientsFrom hc _⟩

/-- The search for a `STOP` finds the lowest one (R195). -/
theorem find_stop_eq_some :
    (List.range s.profile.ports).find? (isPendingStop s.pending) = some c ↔
      c < s.profile.ports ∧ s.pending[c]? = some (some .stop) ∧
        ∀ d, d < c → s.pending[d]? ≠ some (some .stop) := by
  simp only [find_range, isPendingStop_iff, ← Bool.not_eq_true, ne_eq]

theorem find_stop_eq_none :
    (List.range s.profile.ports).find? (isPendingStop s.pending) = none ↔
      ∀ d, d < s.profile.ports → s.pending[d]? ≠ some (some .stop) := by
  simp only [List.find?_eq_none, List.mem_range, isPendingStop_iff, ne_eq]

/-- Only a client with a pending command is chosen (R196). -/
theorem pending_of_choose (hchoose : s.choose pick = some c) :
    c < s.profile.ports ∧ ∃ i, s.pending[c]? = some (some i) := by
  rw [choose_eq, Option.or_eq_some_iff] at hchoose
  rcases hchoose with hstop | ⟨-, hfound⟩
  · obtain ⟨hc, hpending, -⟩ := find_stop_eq_some.1 hstop
    exact ⟨hc, .stop, hpending⟩
  · exact ⟨(mem_policyOrder s pick).1 (List.mem_of_find?_eq_some hfound),
      (isPending_iff _ _).1 (List.find?_some hfound)⟩

/-- With a command pending some client is chosen (R206). -/
theorem exists_choose (hc : c < s.profile.ports) (hpending : s.pending[c]? = some (some i)) :
    ∃ d, s.choose pick = some d := by
  have hfound : ((s.policyOrder pick).find? (isPending s.pending)).isSome = true :=
    List.find?_isSome.2 ⟨c, (mem_policyOrder s pick).2 hc, (isPending_iff _ _).2 ⟨i, hpending⟩⟩
  rw [← Option.isSome_iff_exists, choose_eq, Option.isSome_or, hfound, Bool.or_true]

/-- Settles O25: the search for a `STOP` comes first and finds the lowest one. -/
theorem stopHasPriority : Obligations.StopHasPriority := by
  unfold Obligations.StopHasPriority
  refine fun s pick => ⟨fun ⟨d, hd, hstop⟩ => ?_, fun c => pending_of_choose⟩
  cases hfound : (List.range s.profile.ports).find? (isPendingStop s.pending) with
  | none => exact absurd hstop (find_stop_eq_none.1 hfound d hd)
  | some c => exact ⟨c, by rw [choose_eq, hfound, Option.some_or], find_stop_eq_some.1 hfound⟩

/-- The first client with a property in the order `first`, `first + 1`, ... taken mod `m`. -/
theorem find_clientsFrom {m first : Nat} {p : Nat → Bool} :
    (clientsFrom m first).find? p = some c ↔
      ∃ n, n < m ∧ c = (first + n) % m ∧ p c = true ∧ ∀ k, k < n → p ((first + k) % m) = false := by
  simp only [clientsFrom, List.find?_map, Option.map_eq_some_iff, find_range, Function.comp_apply]
  constructor
  · rintro ⟨n, ⟨hn, hp, hbefore⟩, rfl⟩
    exact ⟨n, hn, rfl, hp, hbefore⟩
  · rintro ⟨n, hn, rfl, hp, hbefore⟩
    exact ⟨n, ⟨hn, hp, hbefore⟩, rfl⟩

/-- Settles O26: with no `STOP` pending the choice is the search in round-robin order. -/
theorem roundRobinOrder : Obligations.RoundRobinOrder := by
  unfold Obligations.RoundRobinOrder
  intro s pick c hpolicy hnoStop
  rw [choose_eq, find_stop_eq_none.2 hnoStop, Option.none_or, State.policyOrder, hpolicy,
    find_clientsFrom]
  simp only [isPending_iff, ← Bool.not_eq_true, not_exists, ne_eq]

/-- Settles O27: some client is chosen, and its grant is the step. -/
theorem grantEnabled : Obligations.GrantEnabled := by
  unfold Obligations.GrantEnabled
  rintro s pick m h hseq ⟨d, j, hd⟩ hsched
  have howner : s.owner = none := by rw [h.lock, hseq, Option.map_none]
  have hlt : d < s.profile.ports := by
    obtain ⟨-, hpend, -⟩ := h.lengths
    rw [← hpend]
    exact (List.getElem?_eq_some_iff.1 hd).1
  obtain ⟨c, hchoose⟩ := exists_choose (pick := pick) hlt hd
  obtain ⟨-, i, hpending⟩ := pending_of_choose hchoose
  exact ⟨c, i, _, step_grantTo hsched howner hseq hchoose hpending, hpending, rfl, rfl, rfl, rfl⟩

/-! ### Mutual exclusion over the history -/

variable {holder holder' : Option Nat} {e : Event} {pre mid post : List Event}

/-- The holder's response frees a held lock, and nothing else changes who holds it (R198). -/
theorem lockStep_held (h : lockStep (some c) e = some holder) :
    (holder = none ∧ ∃ f, e = .resp c f) ∨
      (holder = some c ∧ (∀ f, e ≠ .resp c f) ∧ ∀ d, e ≠ .grant d) := by
  cases e with
  | resp d f =>
    by_cases hd : d = c
    · simp only [lockStep, if_pos hd, Option.some.injEq] at h
      exact .inl ⟨h.symm, f, by rw [hd]⟩
    · simp only [lockStep, if_neg hd, Option.some.injEq] at h
      exact .inr ⟨h.symm, fun f' he => hd (Event.resp.inj he).1, nofun⟩
  | submit d f =>
    by_cases hd : d = c
    · simp only [lockStep, if_pos hd, reduceCtorEq] at h
    · simp only [lockStep, if_neg hd, Option.some.injEq] at h
      exact .inr ⟨h.symm, nofun, nofun⟩
  | grant d => cases h
  | _ => cases h; exact .inr ⟨rfl, nofun, nofun⟩

/-- Only a grant takes a free lock (R194). -/
theorem grant_of_lockStep_free (h : lockStep none e = some (some c)) : e = .grant c := by
  cases e <;> cases h
  rfl

/-- An event of the owner's command finds no free lock (R198). -/
theorem lockStep_free_of_owners (he : e.isOwners = true) : lockStep none e = none := by
  cases e with
  | submit | grant | resp => cases he
  | _ => rfl

theorem held_of_owners (he : e.isOwners = true) (h : lockStep holder e = some holder') :
    ∃ c, holder = some c := by
  cases holder with
  | some c => exact ⟨c, rfl⟩
  | none => rw [lockStep_free_of_owners he] at h; cases h

/-- A history that keeps the discipline keeps it at each of its events. -/
theorem lockStep_of_lockOf (h : lockOf (pre ++ e :: post) = some holder) :
    ∃ before after, lockOf pre = some before ∧ lockStep before e = some after := by
  induction post using List.reverseRecOn generalizing holder with
  | nil =>
    rw [lockOf_append, Option.bind_eq_some_iff] at h
    obtain ⟨before, hpre, hstep⟩ := h
    exact ⟨before, holder, hpre, hstep⟩
  | append_singleton post e' ih =>
    rw [← List.cons_append, ← List.append_assoc, lockOf_append, Option.bind_eq_some_iff] at h
    obtain ⟨before, hpost, -⟩ := h
    exact ih hpost

/-- The lock stays with the client it was granted to until that client's response. -/
theorem lockOf_after_grant (h : lockOf (pre ++ .grant c :: mid) = some holder)
    (hmid : ∀ f, .resp c f ∉ mid) : holder = some c := by
  induction mid using List.reverseRecOn generalizing holder with
  | nil =>
    rw [lockOf_append, Option.bind_eq_some_iff] at h
    obtain ⟨before, -, hstep⟩ := h
    cases before with
    | none => cases hstep; rfl
    | some d => cases hstep
  | append_singleton mid e ih =>
    rw [← List.cons_append, ← List.append_assoc, lockOf_append, Option.bind_eq_some_iff] at h
    obtain ⟨before, hbefore, hstep⟩ := h
    have hheld := ih hbefore fun f hf => hmid f (List.mem_append_left _ hf)
    subst hheld
    rcases lockStep_held hstep with ⟨-, f, rfl⟩ | ⟨hkept, -⟩
    · exact absurd List.mem_concat_self (hmid f)
    · exact hkept

/-- The holder of the lock got it by the last grant of the history and has not responded since. -/
theorem last_grant_of_lockOf (h : lockOf pre = some (some c)) :
    ∃ pre' mid, pre = pre' ++ .grant c :: mid ∧ (∀ f, .resp c f ∉ mid) ∧ ∀ d, .grant d ∉ mid := by
  induction pre using List.reverseRecOn with
  | nil => cases h
  | append_singleton pre e ih =>
    rw [lockOf_append, Option.bind_eq_some_iff] at h
    obtain ⟨before, hbefore, hstep⟩ := h
    cases before with
    | none =>
      rw [grant_of_lockStep_free hstep]
      exact ⟨pre, [], rfl, nofun, nofun⟩
    | some c' =>
      rcases lockStep_held hstep with ⟨hfree, -⟩ | ⟨hkept, hnoResp, hnoGrant⟩
      · cases hfree
      · cases hkept
        obtain ⟨pre', mid, rfl, hresp, hgrant⟩ := ih hbefore
        refine ⟨pre', mid ++ [e], List.append_assoc .., fun f hf => ?_, fun d hd => ?_⟩
        · rcases List.mem_append.1 hf with hf | hf
          · exact hresp f hf
          · exact hnoResp f (List.mem_singleton.1 hf).symm
        · rcases List.mem_append.1 hd with hd | hd
          · exact hgrant d hd
          · exact hnoGrant d (List.mem_singleton.1 hd).symm

/-- Settles O58: a second grant finds the lock free, an event of the owner finds it held. -/
theorem mutualExclusion : Obligations.MutualExclusion := by
  unfold Obligations.MutualExclusion
  intro s h
  have hlock := h.lock_history
  constructor
  · intro pre mid post c d hhist
    rw [hhist, ← List.cons_append, ← List.append_assoc] at hlock
    obtain ⟨before, after, hbefore, hstep⟩ := lockStep_of_lockOf hlock
    by_contra hnoResp
    cases lockOf_after_grant hbefore (not_exists.1 hnoResp)
    cases hstep
  · intro pre post e hhist howners
    rw [hhist] at hlock
    obtain ⟨before, after, hbefore, hstep⟩ := lockStep_of_lockOf hlock
    obtain ⟨c, rfl⟩ := held_of_owners howners hstep
    obtain ⟨pre', mid, hgrant⟩ := last_grant_of_lockOf hbefore
    exact ⟨pre', mid, c, hgrant⟩

end Sys2Proof.Machine
end

section
/-! Every granted command ends (R197, R198): each step of the owner ends its command or brings it nearer to
its end, by a count of the steps it has left at most. -/

namespace Sys2Proof.Machine

variable {s t u : State} {c n : Nat} {i : Instr} {pos pos' : Pos} {r r' : Answer} {e : Event}
  {cfg : RadioConfig} {data out : Frame} {timeout freq : Word} {idx : Byte} {value : Word}

/-! ### The count of the steps left -/

/-- The poll rounds of a command that polls, at most: `T_POLL` is at least 1 ms (R139, R140). -/
def maxRounds : Instr → Nat
  | .receive timeout => timeout.toNat
  | _ => 0

/-- How many steps the owner's command may still take after the one from `pos`, with `k` FIFO reads made. -/
def stepsLeft (i : Instr) (k : Nat) : Pos → Nat
  | .start => 2 * maxRounds i + 13
  | .opened => 12
  | .clocked => 11
  | .released => 0
  | .pinLow => 9
  | .holdLow => 8
  | .pinHigh => 7
  | .holdHigh => 6
  | .cfgWrite n => 5 - n
  | .version => 0
  | .txMode => 2
  | .txSettle => 1
  | .txDone => 0
  | .rxEnter => 2 * maxRounds i + 1
  | .rxPoll => 2 * (maxRounds i - k) + 1
  | .rxJudge => 2 * (maxRounds i - k)
  | .tuned => 0
  | .rssi => 0
  | .stopPin => 1
  | .stopDone => 0

/-- The step of the owner's command `i` at `pos` ends it, or takes it to a position of its own nearer to
the end; it leaves alone what only the arbiter writes. -/
inductive Advances (c : Nat) (i : Instr) (pos : Pos) (s : State) : Prop
  | ends {u : State} {f : Frame} (he : exec i s = .next (u.ended c f))
      (hout : u.outstanding = s.outstanding := by rfl) (hhist : u.hist = s.hist := by rfl)
  | moves {t : State} {pos' : Pos} {r' : Answer} {e : Event} (he : exec i s = .next t)
      (hown : Owns t c i pos' r') (hshared : SameShared s t) (hhist : t.hist = s.hist ++ [e])
      (hfit : posFits i pos' = true) (hless : stepsLeft i t.k pos' < stepsLeft i s.k pos)

/-- Recording an event and moving on leaves alone what only the arbiter writes. -/
theorem SameShared.performed (h : SameShared s u) (c : Nat) (i : Instr) (pos : Pos) (r : Answer)
    (e : Event) : SameShared s (u.performed c i pos r e) :=
  ⟨h.profile, h.outstanding, h.pending, h.inbox, h.rr, h.ctrl, h.turn, h.owner⟩

theorem SameShared.called (h : SameShared s u) (c : Nat) (i : Instr) (pos : Pos) (r : Answer)
    (e : Event) : SameShared s (u.called c i pos r e) :=
  ⟨h.profile, h.outstanding, h.pending, h.inbox, h.rr, h.ctrl, h.turn, h.owner⟩

theorem SameShared.trans (hst : SameShared s t) (htu : SameShared t u) : SameShared s u :=
  ⟨htu.profile.trans hst.profile, htu.outstanding.trans hst.outstanding, htu.pending.trans hst.pending,
    htu.inbox.trans hst.inbox, htu.rr.trans hst.rr, htu.ctrl.trans hst.ctrl, htu.turn.trans hst.turn,
    htu.owner.trans hst.owner⟩

/-- A step that records an event and moves on; `u` is `s` but for fields the command writes with it. -/
theorem Advances.perform (h : Owns s c i pos r) (he : exec i s = .next (u.performed c i pos' r' e))
    (hless : stepsLeft i u.k pos' < stepsLeft i s.k pos) (hfit : posFits i pos' = true := by rfl)
    (hshared : SameShared s u := by exact ⟨rfl, rfl, rfl, rfl, rfl, rfl, rfl, rfl⟩)
    (hhist : u.hist = s.hist := by rfl) : Advances c i pos s :=
  .moves he (owns_performed (hshared.turn.trans h.1) e) (hshared.performed ..)
    (congrArg (· ++ [e]) hhist) hfit hless

theorem Advances.call (h : Owns s c i pos r) (he : exec i s = .next (u.called c i pos' r' e))
    (hless : stepsLeft i u.k pos' < stepsLeft i s.k pos) (hfit : posFits i pos' = true := by rfl)
    (hshared : SameShared s u := by exact ⟨rfl, rfl, rfl, rfl, rfl, rfl, rfl, rfl⟩)
    (hhist : u.hist = s.hist := by rfl) : Advances c i pos s :=
  .moves he (owns_called (hshared.turn.trans h.1) e) (hshared.called ..)
    (congrArg (· ++ [e]) hhist) hfit hless

/-- At a grant only a command that passes its checks is left to look at (R130). -/
theorem Advances.start (h : Owns s c i .start r) (hk : i.kind = .arbitrated)
    (hpast : legalAtGrant i s → operandsOk s.profile i → Advances c i .start s) :
    Advances c i .start s := by
  by_cases hstate : legalAtGrant i s
  · by_cases hoperands : operandsOk s.profile i
    · exact hpast hstate hoperands
    · exact .ends (exec_badParameter h hk hstate hoperands)
  · exact .ends (exec_badState h hk hstate)

/-- Where a command reads an answer only `ok` is left to look at (R132). -/
theorem Advances.judge (h : Owns s c i pos r) (hreads : readsAnswer i pos)
    (hgood : r.isOk = true → Advances c i pos s) : Advances c i pos s := by
  cases hok : r.isOk with
  | true => exact hgood hok
  | false =>
    rw [Answer.eq_fail hok] at h
    exact .ends (exec_of_fail h hreads)

/-- A failed clock set is followed by `Close` and the end (R131). -/
theorem Advances.clocked (h : Owns s c i .clocked r) (hi : opensTransport i)
    (hfit : posFits i .released = true) (hgood : r.isOk = true → Advances c i .clocked s) :
    Advances c i .clocked s := by
  cases hok : r.isOk with
  | true => exact hgood hok
  | false =>
    rw [Answer.eq_fail hok] at h
    exact .perform h (exec_clocked_fail h hi) (by simp [stepsLeft]) hfit

/-! ### INIT -/

theorem Advances.beginReset (h : Owns s c (.init cfg) pos r) (he : exec (.init cfg) s = .next u.beginReset)
    (hless : 9 < stepsLeft (.init cfg) s.k pos) (hseq : u.seq = s.seq := by rfl)
    (hshared : SameShared s u := by exact ⟨rfl, rfl, rfl, rfl, rfl, rfl, rfl, rfl⟩)
    (hhist : u.hist = s.hist := by rfl) : Advances c (.init cfg) pos s := by
  cases hpin : u.pinMode with
  | unconfigured =>
    rw [beginReset_unconfigured (hseq.trans h.2) hpin] at he
    exact .perform h he hless rfl (hshared.trans ⟨rfl, rfl, rfl, rfl, rfl, rfl, rfl, rfl⟩) hhist
  | output =>
    rw [beginReset_output (hseq.trans h.2) hpin] at he
    exact .perform h he (Nat.lt_of_succ_lt hless) rfl
      (hshared.trans ⟨rfl, rfl, rfl, rfl, rfl, rfl, rfl, rfl⟩) hhist

theorem init_advances_start (h : Owns s c (.init cfg) .start r) : Advances c (.init cfg) .start s := by
  refine .start h rfl fun hstate hoperands => ?_
  have he := exec_init_start h hstate hoperands
  split at he
  · exact .beginReset h he (by simp [stepsLeft])
  · rw [openTransport_goto (s := { s with stopped := false, cfgValid := false }) h.2] at he
    exact .call h he (by simp [stepsLeft])

theorem init_advances_cfgWrite (h : Owns s c (.init cfg) (.cfgWrite n) r) :
    Advances c (.init cfg) (.cfgWrite n) s := by
  have hgood (hr : n = 0 ∨ r.isOk = true) : Advances c (.init cfg) (.cfgWrite n) s := by
    cases houts : (initFrames s.profile cfg).drop n with
    | nil => exact .ends (exec_init_written h hr houts)
    | cons out outs =>
      have hlt : n < 5 := Nat.lt_of_not_le fun hge =>
        List.cons_ne_nil out outs (houts ▸ List.drop_eq_nil_iff.2 hge)
      exact .call h (exec_init_write h hr houts).1 (by simp only [stepsLeft]; omega)
  cases n with
  | zero => exact hgood (.inl rfl)
  | succ n => exact .judge h (.inr ⟨n, rfl⟩) fun hok => hgood (.inr hok)

theorem init_advances (h : Owns s c (.init cfg) pos r) (hfit : posFits (.init cfg) pos = true) :
    Advances c (.init cfg) pos s := by
  have hopens : opensTransport (.init cfg) := .inl ⟨cfg, rfl⟩
  cases pos with
  | start => exact init_advances_start h
  | opened =>
    exact .judge h (.inl rfl) fun hok => .call h (exec_init_opened h hok) (by simp [stepsLeft])
  | clocked =>
    exact .clocked h hopens rfl fun hok => .beginReset h (exec_init_clocked h hok) (by simp [stepsLeft])
  | released => exact .ends (exec_released h hopens)
  | pinLow => exact .perform h (exec_init_pinLow h) (by simp [stepsLeft])
  | holdLow => exact .perform h (exec_init_holdLow h) (by simp [stepsLeft])
  | pinHigh => exact .perform h (exec_init_pinHigh h) (by simp [stepsLeft])
  | holdHigh => exact .perform h (exec_init_holdHigh h) (by simp [stepsLeft])
  | cfgWrite n => exact init_advances_cfgWrite h
  | _ => cases hfit

/-! ### DETECT -/

/-- Whatever the version byte, `DETECT` ends with its judgement (R137). -/
theorem exec_detect_version (h : Owns s c .detect .version r) (hr : r.isOk = true) :
    ∃ (u : State) (f : Frame), exec .detect s = .next (u.ended c f) ∧
      u.outstanding = s.outstanding ∧ u.hist = s.hist := by
  rw [exec_owns h rfl]
  simp only [body, detectBody, if_pos hr, detectJudge, finish_eq]
  split
  · exact ⟨_, _, rfl, rfl, rfl⟩
  · exact ⟨_, _, rfl, rfl, rfl⟩

theorem detect_advances (h : Owns s c .detect pos r) (hfit : posFits .detect pos = true) :
    Advances c .detect pos s := by
  obtain ⟨hread, hopen, hclock⟩ := detectReads s c r
  cases pos with
  | start =>
    refine .start h rfl fun hstate _ => ?_
    cases hbus : s.busOpen with
    | true => exact .call h (hread (.inl ⟨h, hstate, hbus⟩)) (by simp [stepsLeft])
    | false => exact .call h (hopen h hstate hbus) (by simp [stepsLeft])
  | opened => exact .judge h (.inl rfl) fun hok => .call h (hclock h hok) (by simp [stepsLeft])
  | clocked =>
    exact .clocked h (.inr rfl) rfl fun hok => .call h (hread (.inr ⟨h, hok⟩)) (by simp [stepsLeft])
  | released => exact .ends (exec_released h (.inr rfl))
  | version =>
    refine .judge h (.inr rfl) fun hok => ?_
    obtain ⟨u, f, he, hout, hhist⟩ := exec_detect_version h hok
    exact .ends he hout hhist
  | _ => cases hfit

/-! ### TRANSMIT and RECEIVE -/

theorem transmit_advances (h : Owns s c (.transmit data) pos r)
    (hfit : posFits (.transmit data) pos = true) : Advances c (.transmit data) pos s := by
  cases pos with
  | start =>
    exact .start h rfl fun hidle hfits =>
      .call h (exec_transmit_start h hidle hfits) (by simp [stepsLeft])
  | txMode =>
    exact .judge h (.inl rfl) fun hok => .call h (exec_transmit_txMode h hok) (by simp [stepsLeft])
  | txSettle =>
    exact .judge h (.inr rfl) fun hok => .perform h (exec_transmit_txSettle h hok) (by simp [stepsLeft])
  | txDone => exact .ends (exec_transmit_txDone h)
  | _ => cases hfit

/-- A `RECEIVE` has a timeout that runs out (R139): not the infinite one, and a poll interval above 0. -/
def TimesOut (i : Instr) (s : State) : Prop :=
  ∀ timeout, i = .receive timeout → timeout ≠ s.profile.inf ∧ s.ctrl.tPoll ≠ 0#32

theorem TimesOut.of_shared (h : TimesOut i s) (hshared : SameShared s t) : TimesOut i t := by
  unfold TimesOut
  rw [hshared.profile, hshared.ctrl]
  exact h

/-- Before its timeout `RECEIVE` has made fewer reads than the timeout has milliseconds (R140). -/
theorem lt_timeout_of_not_timedOut {k : Nat} (hfinite : TimesOut (.receive timeout) s)
    (hmore : ¬(timeout ≠ s.profile.inf ∧ timeout.toNat ≤ k * s.ctrl.tPoll.toNat)) :
    k < timeout.toNat := by
  obtain ⟨hinf, hpoll⟩ := hfinite timeout rfl
  have hpos : 0 < s.ctrl.tPoll.toNat :=
    Nat.pos_of_ne_zero fun hzero => hpoll (BitVec.eq_of_toNat_eq hzero)
  calc k ≤ k * s.ctrl.tPoll.toNat := Nat.le_mul_of_pos_right k hpos
    _ < timeout.toNat := Nat.lt_of_not_le fun hle => hmore ⟨hinf, hle⟩

/-- The judgement of a read ends `RECEIVE` or leaves it one round less (R139). -/
theorem receive_advances_rxJudge (h : Owns s c (.receive timeout) .rxJudge r)
    (hfinite : TimesOut (.receive timeout) s) : Advances c (.receive timeout) .rxJudge s := by
  refine .judge h (.inr rfl) fun hok => ?_
  cases hdata : isData r.data s.ctrl.policy with
  | true => exact .ends (exec_receive_data h hok hdata)
  | false =>
    cases hstop : s.stopReq with
    | true => exact .ends (exec_receive_cancelled h hok hdata hstop)
    | false =>
      have he := exec_receive_empty h hok hdata hstop
      split at he
      · exact .ends he
      · rename_i hmore
        have hlt := lt_timeout_of_not_timedOut hfinite hmore
        exact .perform h he (by simp only [stepsLeft, maxRounds]; omega)

theorem receive_advances (h : Owns s c (.receive timeout) pos r)
    (hfit : posFits (.receive timeout) pos = true) (hfinite : TimesOut (.receive timeout) s) :
    Advances c (.receive timeout) pos s := by
  cases pos with
  | start =>
    refine .start h rfl fun hidle _ => ?_
    cases hentry : s.profile.rxEntry with
    | true => exact .call h (exec_receive_entry h hidle hentry) (by simp [stepsLeft])
    | false => exact .call h (exec_receive_noEntry h hidle hentry) (by simp [stepsLeft])
  | rxEnter =>
    exact .judge h (.inl rfl) fun hok => .call h (exec_receive_rxEnter h hok) (by simp [stepsLeft])
  | rxPoll => exact .call h (exec_receive_rxPoll h) (by simp [stepsLeft])
  | rxJudge => exact receive_advances_rxJudge h hfinite
  | _ => cases hfit

/-! ### SET_FREQ and READ_RSSI -/

theorem setFreq_advances (h : Owns s c (.setFreq freq) pos r)
    (hfit : posFits (.setFreq freq) pos = true) : Advances c (.setFreq freq) pos s := by
  obtain ⟨hwrite, hend⟩ := setFreqResult s c freq r
  cases pos with
  | start =>
    exact .start h rfl fun hidle hrange => .call h (hwrite h hidle hrange) (by simp [stepsLeft])
  | tuned => exact .judge h rfl fun hok => .ends (hend h hok)
  | _ => cases hfit

/-- Whatever the read answers, `READ_RSSI` ends with what it decodes to (R143). -/
theorem exec_readRssi_rssi (h : Owns s c .readRssi .rssi r) (hr : r.isOk = true) :
    exec .readRssi s = .next (s.ended c (0x00#8 :: rssiData s.profile (u8At r.data 0))) := by
  rw [exec_owns h rfl]
  simp only [body, readRssiBody, if_pos hr, finish_eq, Status.code]

theorem readRssi_advances (h : Owns s c .readRssi pos r) (hfit : posFits .readRssi pos = true) :
    Advances c .readRssi pos s := by
  obtain ⟨hread, -⟩ := readRssiResult s c r
  cases pos with
  | start => exact .start h rfl fun hidle _ => .call h (hread h hidle) (by simp [stepsLeft])
  | rssi => exact .judge h rfl fun hok => .ends (exec_readRssi_rssi h hok)
  | _ => cases hfit

/-! ### STOP and WRITE_CTRL -/

/-- Once the transport is closed, `STOP` releases the pin or ends (R171). -/
theorem stop_advances_release (h : Owns s c .stop pos r)
    (hat : (pos = .start ∧ s.busOpen = false) ∨ pos = .stopPin) : Advances c .stop pos s := by
  have hclosed : (Owns s c .stop .start r ∧ s.busOpen = false) ∨ Owns s c .stop .stopPin r := by
    rcases hat with ⟨rfl, hbus⟩ | rfl
    · exact .inl ⟨h, hbus⟩
    · exact .inr h
  have hless : 0 < stepsLeft .stop s.k pos := by
    rcases hat with ⟨rfl, -⟩ | rfl <;> simp [stepsLeft]
  obtain ⟨pos', hq, he⟩ := exec_stop_release hclosed
  cases hpin : s.pinMode with
  | output =>
    rw [stopRelease_output hq hpin] at he
    exact .perform h he hless
  | unconfigured =>
    rw [stopRelease_unconfigured _ hpin, stopEnd, finish_eq] at he
    exact .ends he

theorem stop_advances (h : Owns s c .stop pos r) (hfit : posFits .stop pos = true) :
    Advances c .stop pos s := by
  cases pos with
  | start =>
    cases hbus : s.busOpen with
    | true => exact .perform h (exec_stop_close h hbus) (by simp [stepsLeft])
    | false => exact stop_advances_release h (.inl ⟨rfl, hbus⟩)
  | stopPin => exact stop_advances_release h (.inr rfl)
  | stopDone =>
    obtain ⟨pos', he⟩ := exec_stop_end (.inr (.inr h))
    rw [stopEnd, finish_eq] at he
    exact .ends he
  | _ => cases hfit

theorem writeCtrl_advances (h : Owns s c (.writeCtrl idx value) pos r) :
    Advances c (.writeCtrl idx value) pos s := by
  cases hx : ctrlWrite s.ctrl idx value with
  | some x => exact .ends (exec_writeCtrl_some h hx)
  | none => exact .ends (exec_writeCtrl_none h hx)

/-! ### Every command -/

/-- Every step of the owner's command ends it or brings it nearer to its end (R194, R197). -/
theorem advances_of_owns (h : Owns s c i pos r) (hk : i.kind = .arbitrated)
    (hfit : posFits i pos = true) (hfinite : TimesOut i s) : Advances c i pos s := by
  cases i with
  | init cfg => exact init_advances h hfit
  | detect => exact detect_advances h hfit
  | transmit data => exact transmit_advances h hfit
  | receive timeout => exact receive_advances h hfit hfinite
  | setFreq freq => exact setFreq_advances h hfit
  | readRssi => exact readRssi_advances h hfit
  | stop => exact stop_advances h hfit
  | writeCtrl idx value => exact writeCtrl_advances h
  | _ => cases hk

/-- The owner alone ends its command with a response and releases the lock, by induction on the count of
the steps left. -/
theorem ends_of_owns (h : Owns s c i pos r) (hk : i.kind = .arbitrated) (hfit : posFits i pos = true)
    (hfinite : TimesOut i s) :
    ∃ (u : State) (ev : List Event) (f : Frame), RunsTo s (u.ended c f) ∧
      u.outstanding = s.outstanding ∧ u.hist = s.hist ++ ev := by
  induction hn : stepsLeft i s.k pos using Nat.strong_induction_on generalizing s pos r with
  | _ n ih =>
    subst hn
    cases advances_of_owns h hk hfit hfinite with
    | ends he hout hhist =>
      exact ⟨_, [], _, .last h he rfl, hout, by rw [hhist, List.append_nil]⟩
    | @moves t pos' r' e he hown hshared hhist hfit' hless =>
      obtain ⟨u, ev, f, hrun, hout, hev⟩ := ih _ hless hown hfit' (hfinite.of_shared hshared) rfl
      refine ⟨u, e :: ev, f, .step h he hrun, hout.trans hshared.outstanding, ?_⟩
      rw [hev, hhist, List.append_assoc, List.singleton_append]

/-- Settles O57: the grant leaves the command at its first position. -/
theorem commandsEnd : Obligations.CommandsEnd := by
  unfold Obligations.CommandsEnd
  intro s c i r h hk hfinite
  obtain ⟨u, ev, f, ⟨n, hrun⟩, hout, hev⟩ := ends_of_owns h hk (posFits_start hk) hfinite
  refine ⟨n, u.ended c f, ev, f, hrun, rfl, rfl, ?_, ?_⟩
  · rw [← hout]; rfl
  · rw [← hev]; rfl

end Sys2Proof.Machine
end

section
/-! The start of a scan (R246, R248, R250): `ceil(FSTEP)` as a bound on the step, the argument check, and
the scan frequency sequence. -/

namespace Sys2Proof.Machine

variable {p : Profile} {first last step : Nat} {l : List Nat}

/-! ### The argument check -/

/-- `ceil(FSTEP)` is Mathlib's ceiling quotient of the crystal frequency. -/
theorem minStep_eq_ceilDiv (p : Profile) : minStep p = p.fXtal ⌈/⌉ 2 ^ p.fShift := by
  rw [Nat.ceilDiv_eq_add_pred_div, Nat.add_sub_assoc Nat.one_le_two_pow, minStep]

/-- A step reaches `ceil(FSTEP)` exactly when it is at least one register step. -/
theorem minStep_le_iff : minStep p ≤ step ↔ p.fXtal ≤ step * 2 ^ p.fShift := by
  rw [minStep_eq_ceilDiv, ceilDiv_le_iff_le_mul (Nat.two_pow_pos p.fShift), Nat.mul_comm]

theorem scanOk_iff : scanOk p first last step = true ↔
    p.fXtal ≤ step * 2 ^ p.fShift ∧ p.fMin ≤ first ∧ first ≤ last ∧ last ≤ p.fMax := by
  rw [scanOk, decide_eq_true_iff, minStep_le_iff]

/-- A step of at least one register step is not zero, under a crystal that oscillates. -/
theorem step_pos (hxtal : 0 < p.fXtal) (hstep : p.fXtal ≤ step * 2 ^ p.fShift) : 0 < step :=
  Nat.pos_of_mul_pos_right (hxtal.trans_le hstep)

/-! ### The scan frequency sequence -/

/-- The frequencies a scan visits, lowest first (R246). -/
def scanFrequencies (first last step : Nat) : List Nat :=
  (List.range ((last - first) / step + 1)).map fun i => first + i * step

theorem scanSequence_of_ok (hok : scanOk p first last step = true) :
    scanSequence p first last step = some (scanFrequencies first last step) := if_pos hok

theorem scanSequence_of_not_ok (hok : ¬ scanOk p first last step = true) :
    scanSequence p first last step = none := if_neg hok

theorem scanFrequencies_length :
    (scanFrequencies first last step).length = (last - first) / step + 1 := by
  simp [scanFrequencies]

theorem scanFrequencies_getElem? {i : Nat} (hi : i < (scanFrequencies first last step).length) :
    (scanFrequencies first last step)[i]? = some (first + i * step) := by
  rw [scanFrequencies_length] at hi
  simp [scanFrequencies, List.getElem?_range hi]

theorem scanFrequencies_ascending (hpos : 0 < step) :
    (scanFrequencies first last step).Pairwise (· < ·) := by
  rw [scanFrequencies, List.pairwise_map]
  exact List.pairwise_lt_range.imp fun hij =>
    Nat.add_lt_add_left (Nat.mul_lt_mul_of_pos_right hij hpos) first

/-- The sequence stays inside its range: the last index is the number of whole steps that fit. -/
theorem scanFrequencies_bounds (hrange : first ≤ last) {f : Nat}
    (hf : f ∈ scanFrequencies first last step) : first ≤ f ∧ f ≤ last := by
  obtain ⟨i, hi, rfl⟩ := List.mem_map.1 hf
  have hfits : i * step ≤ last - first := calc
    i * step ≤ (last - first) / step * step :=
      Nat.mul_le_mul_right step (Nat.le_of_lt_succ (List.mem_range.1 hi))
    _ ≤ last - first := Nat.div_mul_le_self _ _
  omega

/-! ### The start -/

theorem startScan_of_none {a : ScanArgs} (h : scanSequence p a.first a.last a.step = none) :
    startScan p a = .error .invalidParameter := by rw [startScan, h]

theorem startScan_of_some {a : ScanArgs} (h : scanSequence p a.first a.last a.step = some l) :
    startScan p a = .ok
      { todo := l.map (BitVec.ofNat 32), mode := a.mode, firstHit := a.firstHit, pos := .ask } := by
  rw [startScan, h]

/-- Settles O59: the argument check is the one of R246, and the sequence of an accepted scan ascends
inside its range. -/
theorem scanStart : Obligations.ScanStart := by
  unfold Obligations.ScanStart
  refine ⟨fun p first last step mode hit hxtal => ⟨fun hbad => ?refused, fun hgood => ?accepted⟩,
    fun _ _ _ _ => rfl⟩
  case refused =>
    have hnone := scanSequence_of_not_ok (mt scanOk_iff.1 hbad)
    exact ⟨hnone, startScan_of_none hnone⟩
  case accepted =>
    have hsome := scanSequence_of_ok (scanOk_iff.2 hgood)
    obtain ⟨hstep, -, hrange, -⟩ := hgood
    exact ⟨_, hsome, scanFrequencies_length, fun _ => scanFrequencies_getElem?,
      scanFrequencies_ascending (step_pos hxtal hstep), fun _ => scanFrequencies_bounds hrange,
      startScan_of_some hsome⟩

end Sys2Proof.Machine
end

section
/-! There is no trap (R218). -/

namespace Sys2Proof.Machine

/-- Settles O50: a move passed over and a grant answer a next state, and so does every instruction, in a
submission as in the owner's step. -/
theorem noTrap : Obligations.NoTrap := by
  unfold Obligations.NoTrap
  intro s
  unfold step
  split
  case h_1 c _ =>
    split
    · exact exec_next _ _
    · exact ⟨_, rfl⟩
  case h_2 pick _ =>
    split
    · exact exec_next _ _
    · exact ⟨_, rfl⟩

end Sys2Proof.Machine
end
